-- ==== Sys2Proof/Word.lean ====
section
/-! DEFINITION. The word types of the block and the one counting function on bits the parameter constraints need. -/

namespace Sys2Proof

/-- A register or buffer word: 32 bits, unsigned (R5, R10). -/
abbrev Word := BitVec 32

/-- A frame octet. -/
abbrev Byte := BitVec 8

/-- An MDIO command or MDIO data value: 16 bits (R5). -/
abbrev Half := BitVec 16

/-- The number of one bits of `v` (R13). -/
def popcount {n : Nat} (v : BitVec n) : Nat :=
  (List.range n).countP fun i => v.getLsbD i

end Sys2Proof
end

