-- ==== Sys2Proof/Config.lean ====
section
/-! DEFINITION. What an instantiation of the block fixes (the parameters of R6), the example instantiation E0, and the free values: constants with no body, of which nothing can be proved. -/

namespace Sys2Proof

/-- The two register windows (R21). -/
inductive Window where
  | mdio   -- WIN_MDIO
  | pkt    -- WIN_PKT
  deriving DecidableEq, Repr

/-- The direction of a bus operation (R110). -/
inductive Dir where
  | read
  | write
  deriving DecidableEq, Repr

/-- The fourteen logical registers (R22). -/
inductive Reg where
  | mdioCtrl | mdioStat | mdioCmd | mdioData
  | rxAvail | rxLen | rxAck
  | txBusy | txLen | txSend | txDone
  | macHi | macLo | rxErrCnt
  deriving DecidableEq, Repr

/-- Where a register lies: the assignment to a window is configuration too (R21, D1). -/
structure Loc where
  win : Window
  off : Nat
  deriving DecidableEq, Repr

/-- Where a frame buffer lies and how many bytes it has (R6, R40). -/
structure BufLoc where
  win   : Window
  off   : Nat
  bytes : Nat
  deriving DecidableEq, Repr

/-- How an acknowledge with no frame staged is treated (R6, C1). -/
inductive AckEmpty where
  | ignore
  | fault
  deriving DecidableEq, Repr

/-- One write of the PHY bring-up sequence: PHY register number and value (R190). -/
structure PhyPair where
  reg : Nat
  val : Half
  deriving DecidableEq, Repr

/-- The parameters of R6. Their constraints are `Config.valid` (WellFormed.lean). -/
structure Config where
  baseMdio : Nat
  sizeMdio : Nat
  basePkt  : Nat
  sizePkt  : Nat
  mdioCtrl : Loc
  mdioStat : Loc
  mdioCmd  : Loc
  mdioData : Loc
  rxAvail  : Loc
  rxLen    : Loc
  rxAck    : Loc
  txBusy   : Loc
  txLen    : Loc
  txSend   : Loc
  txDone   : Loc
  macHi    : Loc
  macLo    : Loc
  rxErrCnt : Loc
  rxBuf    : BufLoc
  txBuf    : BufLoc
  writeOpcode  : BitVec 4
  readOpcode   : BitVec 4
  turnaround   : BitVec 2
  fixedPhyAddr : BitVec 5
  startStrobe  : Word
  busyBit      : Fin 32
  ackEmpty     : AckEmpty
  bringup      : List PhyPair
  softResetBit : Half
  deriving DecidableEq, Repr

/-- `CRC_BYTES`, the trailing CRC of a received frame (R5). -/
def crcBytes : Nat := 4

/-- The bus width in bytes, the only one (R12, R72). -/
def busWidth : Nat := 4

/-- The example instantiation E0 (R6, table T-E0 of 95_test_vectors.md): the spec's own choice of
numbers, not the chip's (log 1, log 17). -/
def Config.e0 : Config where
  baseMdio := 0x40000000
  sizeMdio := 0x10
  basePkt  := 0x40010000
  sizePkt  := 0x2000
  mdioCtrl := ⟨.mdio, 0x00⟩
  mdioStat := ⟨.mdio, 0x04⟩
  mdioCmd  := ⟨.mdio, 0x08⟩
  mdioData := ⟨.mdio, 0x0C⟩
  rxAvail  := ⟨.pkt, 0x00⟩
  rxLen    := ⟨.pkt, 0x04⟩
  rxAck    := ⟨.pkt, 0x08⟩
  txBusy   := ⟨.pkt, 0x0C⟩
  txLen    := ⟨.pkt, 0x10⟩
  txSend   := ⟨.pkt, 0x14⟩
  txDone   := ⟨.pkt, 0x18⟩
  macHi    := ⟨.pkt, 0x1C⟩
  macLo    := ⟨.pkt, 0x20⟩
  rxErrCnt := ⟨.pkt, 0x24⟩
  rxBuf    := ⟨.pkt, 0x1000, 2048⟩
  txBuf    := ⟨.pkt, 0x1800, 2048⟩
  writeOpcode  := 0b0101
  readOpcode   := 0b0110
  turnaround   := 0b10
  fixedPhyAddr := 7
  startStrobe  := 0x00000003
  busyBit      := 0
  ackEmpty     := .ignore
  bringup      := [⟨22, 0x0000⟩, ⟨0, 0x0140⟩, ⟨4, 0x0001⟩, ⟨9, 0x0300⟩, ⟨16, 0x0060⟩, ⟨27, 0x000F⟩, ⟨0, 0x8140⟩]
  softResetBit := 0x8000

/-- FREE VALUE (log 4): the `n`-th draw `any32` of a run (R150, R154, R211, R212). -/
opaque Config.freeWord : Nat → Word

/-- FREE VALUE (log 15): the `n`-th free choice of a run, whether a dropped frame is counted (R222, U15). -/
opaque Config.freeBit : Nat → Bool

/-- FREE VALUE (log 5): `mdio_cmd` after reset (R60: unspecified). -/
opaque Config.resetMdioCmd : Word

/-- FREE VALUE (log 5): `mdio_rdata` after reset (R60: unspecified). -/
opaque Config.resetMdioRdata : Half

/-- FREE VALUE (log 5): `rx_len` after reset (R60: unspecified). -/
opaque Config.resetRxLen : Word

/-- FREE VALUE (log 5): `tx_len` after reset (R60: unspecified). -/
opaque Config.resetTxLen : Word

/-- FREE VALUE (log 5): `mac_hi` after reset (R60: unspecified). -/
opaque Config.resetMacHi : Word

/-- FREE VALUE (log 5): `mac_lo` after reset (R60: unspecified). -/
opaque Config.resetMacLo : Word

/-- FREE VALUE (log 6): byte `i` of `tx_buf` after reset (R60: unspecified). -/
opaque Config.resetTxByte : Nat → Byte

end Sys2Proof
end

