-- ==== Sys2Proof/Syntax.lean ====
section
/-! DEFINITION. The nineteen host bus operations of the opcode table (R125), one constructor per row. -/

namespace Sys2Proof

/-- The operations of R125. What the encoding fixes (strobe values, opcode, turnaround) is no operand. -/
inductive Instr where
  /-- `RD MDIO_STAT`, R150. -/
  | rdMdioStat
  /-- `WR MDIO_CMD.W`, R151: a write-form command word, its fields as R117 names them. -/
  | wrMdioCmdW (phy reg : BitVec 5) (data : Half)
  /-- `WR MDIO_CMD.R`, R152: a read-form command word. -/
  | wrMdioCmdR (phy reg : BitVec 5)
  /-- `WR MDIO_CTRL.START`, R153. -/
  | wrMdioCtrlStart
  /-- `RD MDIO_DATA`, R154. -/
  | rdMdioData
  /-- `RD RX_AVAIL`, R210. -/
  | rdRxAvail
  /-- `RD RX_LEN`, R211. -/
  | rdRxLen
  /-- `RD RXBUF[k]`, R212. -/
  | rdRxbuf (k : Nat)
  /-- `WR RX_ACK.1`, R213. -/
  | wrRxAck1
  /-- `RD TX_BUSY`, R250. -/
  | rdTxBusy
  /-- `WR TXBUF[k]`, R251. -/
  | wrTxbuf (k : Nat) (v : Word)
  /-- `WR TX_LEN`, R252. -/
  | wrTxLen (n : Word)
  /-- `WR TX_SEND.1`, R253. -/
  | wrTxSend1
  /-- `RD TX_DONE`, R254. -/
  | rdTxDone
  /-- `RD MAC_ADDR_HI`, R290. -/
  | rdMacAddrHi
  /-- `WR MAC_ADDR_HI`, R291. -/
  | wrMacAddrHi (v : Word)
  /-- `RD MAC_ADDR_LO`, R292. -/
  | rdMacAddrLo
  /-- `WR MAC_ADDR_LO`, R293. -/
  | wrMacAddrLo (v : Word)
  /-- `RD RX_ERR_CNT`, R294. -/
  | rdRxErrCnt
  deriving DecidableEq, Repr

end Sys2Proof
end

