-- ==== Sys2Proof/Decode.lean ====
section
/-! DEFINITION. Decoding of a bus operation (R75, R110, R114, R117, R140 to R143, R323) and its encoder. Total on every bus operation: what no rule gives a meaning is rejected by name. -/

namespace Sys2Proof

/-- The two bus primitives (R12, R70). `width` is in bytes, so that an access of another width can be
written down and rejected (R72). -/
inductive BusOp where
  | memRead (addr width : Nat)
  | memWrite (addr width : Nat) (v : Word)
  deriving DecidableEq, Repr

/-- What a bus operation can select (R75): a register, or word `k` of a buffer. -/
inductive Target where
  | reg (r : Reg)
  | rxWord (k : Nat)
  | txWord (k : Nat)
  deriving DecidableEq, Repr

/-- Why a bus operation has no meaning (R311, X1 to X5; and R75 for an address outside the block). -/
inductive Reject where
  /-- the address lies in neither window (R75) -/
  | notThisBlock (addr : Nat)
  /-- X1 (R140) -/
  | unmapped (w : Window) (off : Nat) (d : Dir)
  /-- X2 (R141) -/
  | wrongDirection (t : Target) (d : Dir)
  /-- X3 (R72) -/
  | badWidthOrAlignment (addr width : Nat)
  /-- X4 (R142) -/
  | badStrobeValue (v : Word)
  /-- X5 (R143) -/
  | malformedMdioCommand (v : Word)
  deriving DecidableEq, Repr

def BusOp.dir : BusOp → Dir
  | .memRead _ _ => .read
  | .memWrite _ _ _ => .write

def BusOp.addr : BusOp → Nat
  | .memRead a _ => a
  | .memWrite a _ _ => a

def BusOp.width : BusOp → Nat
  | .memRead _ n => n
  | .memWrite _ n _ => n

/-- The registers in the order of R22. -/
def Reg.all : List Reg :=
  [.mdioCtrl, .mdioStat, .mdioCmd, .mdioData, .rxAvail, .rxLen, .rxAck, .txBusy, .txLen, .txSend,
   .txDone, .macHi, .macLo, .rxErrCnt]

/-- The access classes of R22 and R23: does register `r` admit direction `d`? -/
def Reg.admits : Reg → Dir → Bool
  | .mdioCtrl, d => d == .write
  | .mdioStat, d => d == .read
  | .mdioCmd, d => d == .write
  | .mdioData, d => d == .read
  | .rxAvail, d => d == .read
  | .rxLen, d => d == .read
  | .rxAck, d => d == .write
  | .txBusy, d => d == .read
  | .txLen, d => d == .write
  | .txSend, d => d == .write
  | .txDone, d => d == .read
  | .macHi, _ => true
  | .macLo, _ => true
  | .rxErrCnt, d => d == .read

/-- R23, R40: RXBUF is read-only and TXBUF write-only for the host. -/
def Target.admits : Target → Dir → Bool
  | .reg r, d => r.admits d
  | .rxWord _, d => d == .read
  | .txWord _, d => d == .write

/-- Where register `r` lies. -/
def Config.loc (c : Config) : Reg → Loc
  | .mdioCtrl => c.mdioCtrl
  | .mdioStat => c.mdioStat
  | .mdioCmd => c.mdioCmd
  | .mdioData => c.mdioData
  | .rxAvail => c.rxAvail
  | .rxLen => c.rxLen
  | .rxAck => c.rxAck
  | .txBusy => c.txBusy
  | .txLen => c.txLen
  | .txSend => c.txSend
  | .txDone => c.txDone
  | .macHi => c.macHi
  | .macLo => c.macLo
  | .rxErrCnt => c.rxErrCnt

def Config.base (c : Config) : Window → Nat
  | .mdio => c.baseMdio
  | .pkt => c.basePkt

def Config.size (c : Config) : Window → Nat
  | .mdio => c.sizeMdio
  | .pkt => c.sizePkt

/-- Window and byte offset of a target (R12): word `k` of a buffer lies `4 k` bytes above its start. -/
def Config.targetLoc (c : Config) : Target → Loc
  | .reg r => c.loc r
  | .rxWord k => ⟨c.rxBuf.win, c.rxBuf.off + 4 * k⟩
  | .txWord k => ⟨c.txBuf.win, c.txBuf.off + 4 * k⟩

/-- The byte address of a target: `BASE_w + offset` (R70). -/
def Config.addr (c : Config) (t : Target) : Nat :=
  c.base (c.targetLoc t).win + (c.targetLoc t).off

/-- R75, first half: the window a byte address lies in, and the offset in it. -/
def Config.window? (c : Config) (a : Nat) : Option (Window × Nat) :=
  if c.baseMdio ≤ a ∧ a < c.baseMdio + c.sizeMdio then some (.mdio, a - c.baseMdio)
  else if c.basePkt ≤ a ∧ a < c.basePkt + c.sizePkt then some (.pkt, a - c.basePkt)
  else none

/-- Does offset `off` of window `w` lie in buffer `b`? -/
def BufLoc.holds (b : BufLoc) (w : Window) (off : Nat) : Bool :=
  b.win == w && decide (b.off ≤ off) && decide (off < b.off + b.bytes)

/-- R75, second half: everything at an offset of a window, whatever its direction. -/
def Config.targetsAt (c : Config) (w : Window) (off : Nat) : List Target :=
  (Reg.all.filter fun r => c.loc r == ⟨w, off⟩).map .reg
    ++ (if c.rxBuf.holds w off then [.rxWord ((off - c.rxBuf.off) / 4)] else [])
    ++ (if c.txBuf.holds w off then [.txWord ((off - c.txBuf.off) / 4)] else [])

/-- The target selected by offset and direction; X1 where nothing lies there, X2 where only a target of
the other direction does (R140, R141). DESIGN CHOICE (log 28): R311 has X2 record "register, direction" and
does not say which register where two lie at the offset, which a valid instantiation has only at the read
word shared by MDIO_STAT and MDIO_DATA (R25); for a write there the model records the first in the order of
R22, MDIO_STAT. -/
def Config.select (c : Config) (w : Window) (off : Nat) (d : Dir) : Except Reject Target :=
  match c.targetsAt w off with
  | [] => .error (.unmapped w off d)
  | t :: ts =>
    match (t :: ts).find? (fun x => x.admits d) with
    | some x => .ok x
    | none => .error (.wrongDirection t d)

/-- `WriteForm(w)` of R114. -/
def Config.writeForm (c : Config) (w : Word) : Bool :=
  w.extractLsb' 28 4 == c.writeOpcode && w.extractLsb' 16 2 == c.turnaround

/-- `ReadForm(w)` of R114. -/
def Config.readForm (c : Config) (w : Word) : Bool :=
  w.extractLsb' 16 16 == 0#16 && w.extractLsb' 0 4 == c.readOpcode && w.extractLsb' 14 2 == c.turnaround

/-- The write-form word of R112: opcode, PHY address, PHY register, turnaround, data. -/
def Config.writeWord (c : Config) (phy reg : BitVec 5) (data : Half) : Word :=
  c.writeOpcode ++ phy ++ reg ++ c.turnaround ++ data

/-- The read-form word of R113: zero, turnaround, PHY register, PHY address, opcode. -/
def Config.readWord (c : Config) (phy reg : BitVec 5) : Word :=
  0#16 ++ c.turnaround ++ reg ++ phy ++ c.readOpcode

/-- The fields of a write-form word (R117). -/
def writePhy (w : Word) : BitVec 5 := w.extractLsb' 23 5
def writeReg (w : Word) : BitVec 5 := w.extractLsb' 18 5
def writeTa (w : Word) : BitVec 2 := w.extractLsb' 16 2
def writeData (w : Word) : Half := w.extractLsb' 0 16

/-- The fields of a read-form word (R117). -/
def readTa (w : Word) : BitVec 2 := w.extractLsb' 14 2
def readReg (w : Word) : BitVec 5 := w.extractLsb' 9 5
def readPhy (w : Word) : BitVec 5 := w.extractLsb' 4 5

/-- The operation of a read of `t` (R125). A target that admits no read is X2 (R141). -/
def decodeRead (t : Target) : Except Reject Instr :=
  match t with
  | .reg .mdioStat => .ok .rdMdioStat
  | .reg .mdioData => .ok .rdMdioData
  | .reg .rxAvail => .ok .rdRxAvail
  | .reg .rxLen => .ok .rdRxLen
  | .reg .txBusy => .ok .rdTxBusy
  | .reg .txDone => .ok .rdTxDone
  | .reg .macHi => .ok .rdMacAddrHi
  | .reg .macLo => .ok .rdMacAddrLo
  | .reg .rxErrCnt => .ok .rdRxErrCnt
  | .rxWord k => .ok (.rdRxbuf k)
  | .reg .mdioCtrl => .error (.wrongDirection t .read)
  | .reg .mdioCmd => .error (.wrongDirection t .read)
  | .reg .rxAck => .error (.wrongDirection t .read)
  | .reg .txLen => .error (.wrongDirection t .read)
  | .reg .txSend => .error (.wrongDirection t .read)
  | .txWord _ => .error (.wrongDirection t .read)

/-- The operation of a write of `v` to `t` (R125): for MDIO_CMD and the strobes the data word is part of
the encoding (R110, R111), and a word of no documented form is X5 or X4 (R142, R143). -/
def decodeWrite (c : Config) (t : Target) (v : Word) : Except Reject Instr :=
  match t with
  | .reg .mdioCmd =>
    if c.writeForm v then .ok (.wrMdioCmdW (writePhy v) (writeReg v) (writeData v))
    else if c.readForm v then .ok (.wrMdioCmdR (readPhy v) (readReg v))
    else .error (.malformedMdioCommand v)
  | .reg .mdioCtrl => if v = c.startStrobe then .ok .wrMdioCtrlStart else .error (.badStrobeValue v)
  | .reg .rxAck => if v = 1#32 then .ok .wrRxAck1 else .error (.badStrobeValue v)
  | .reg .txSend => if v = 1#32 then .ok .wrTxSend1 else .error (.badStrobeValue v)
  | .reg .txLen => .ok (.wrTxLen v)
  | .reg .macHi => .ok (.wrMacAddrHi v)
  | .reg .macLo => .ok (.wrMacAddrLo v)
  | .txWord k => .ok (.wrTxbuf k v)
  | .reg .mdioStat => .error (.wrongDirection t .write)
  | .reg .mdioData => .error (.wrongDirection t .write)
  | .reg .rxAvail => .error (.wrongDirection t .write)
  | .reg .rxLen => .error (.wrongDirection t .write)
  | .reg .txBusy => .error (.wrongDirection t .write)
  | .reg .txDone => .error (.wrongDirection t .write)
  | .reg .rxErrCnt => .error (.wrongDirection t .write)
  | .rxWord _ => .error (.wrongDirection t .write)

/-- The second stage of R110: the operation, given the selected target. -/
def decodeAt (c : Config) (op : BusOp) (t : Target) : Except Reject Instr :=
  match op with
  | .memRead _ _ => decodeRead t
  | .memWrite _ _ v => decodeWrite c t v

/-- Decoding of a bus operation, checked in the order of R323: X3, X1, X2, then X4 or X5. -/
def decode (c : Config) (op : BusOp) : Except Reject Instr :=
  match c.window? op.addr with
  | none => .error (.notThisBlock op.addr)
  | some (w, off) =>
    if op.width = busWidth ∧ op.addr % busWidth = 0 then
      match c.select w off op.dir with
      | .ok t => decodeAt c op t
      | .error e => .error e
    else .error (.badWidthOrAlignment op.addr op.width)

/-- `RD32(t)` of R12. -/
def readOf (c : Config) (t : Target) : BusOp := .memRead (c.addr t) busWidth

/-- `WR32(t, v)` of R12. -/
def writeOf (c : Config) (t : Target) (v : Word) : BusOp := .memWrite (c.addr t) busWidth v

/-- The bus operation that carries an instruction (R125, R111). -/
def encode (c : Config) : Instr → BusOp
  | .rdMdioStat => readOf c (.reg .mdioStat)
  | .wrMdioCmdW phy reg data => writeOf c (.reg .mdioCmd) (c.writeWord phy reg data)
  | .wrMdioCmdR phy reg => writeOf c (.reg .mdioCmd) (c.readWord phy reg)
  | .wrMdioCtrlStart => writeOf c (.reg .mdioCtrl) c.startStrobe
  | .rdMdioData => readOf c (.reg .mdioData)
  | .rdRxAvail => readOf c (.reg .rxAvail)
  | .rdRxLen => readOf c (.reg .rxLen)
  | .rdRxbuf k => readOf c (.rxWord k)
  | .wrRxAck1 => writeOf c (.reg .rxAck) 1#32
  | .rdTxBusy => readOf c (.reg .txBusy)
  | .wrTxbuf k v => writeOf c (.txWord k) v
  | .wrTxLen n => writeOf c (.reg .txLen) n
  | .wrTxSend1 => writeOf c (.reg .txSend) 1#32
  | .rdTxDone => readOf c (.reg .txDone)
  | .rdMacAddrHi => readOf c (.reg .macHi)
  | .wrMacAddrHi v => writeOf c (.reg .macHi) v
  | .rdMacAddrLo => readOf c (.reg .macLo)
  | .wrMacAddrLo v => writeOf c (.reg .macLo) v
  | .rdRxErrCnt => readOf c (.reg .rxErrCnt)

/-- The bus operation a table word stands for (log 3). A word of more than 32 bits is a whole operation:
data in bits [31:0], byte address in [63:32], bit 64 set for a write. A word of at most 32 bits is the
data word alone, as spec/opcode_table.json gives it, which names no register: it is put on the register
whose fixed pattern in the table it fits first (0 fits only the flags read, 1 first the acknowledge), and
on MDIO_CMD, which refuses it, if it fits none. -/
def tableOp (c : Config) (nbits w : Nat) : BusOp :=
  let v : Word := BitVec.ofNat 32 w
  if nbits ≤ 32 then
    if c.writeForm v || c.readForm v then writeOf c (.reg .mdioCmd) v
    else if v = c.startStrobe then writeOf c (.reg .mdioCtrl) v
    else if v = 1#32 then writeOf c (.reg .rxAck) v
    else if v = 0#32 then readOf c (.reg .rxAvail)
    else writeOf c (.reg .mdioCmd) v
  else
    let a := w / 2 ^ 32 % 2 ^ 32
    if w.testBit 64 then .memWrite a busWidth v else .memRead a busWidth

/-- The instruction the decoder reads from a table word under E0 (log 3). -/
def decodeTableWord (nbits w : Nat) : Option Instr :=
  match decode Config.e0 (tableOp Config.e0 nbits w) with
  | .ok i => some i
  | .error _ => none

end Sys2Proof
end

