-- ==== Sys2Proof/WellFormed.lean ====
section
/-! DEFINITION. The checks: a well-formed instruction (its buffer word exists), and a valid instantiation (the constraints of R6, R25 and R191). -/

namespace Sys2Proof

/-- R212, R251: the word index of a buffer access lies in the buffer. No other operand has a bound. -/
def Instr.wellFormed (c : Config) : Instr → Bool
  | .rdMdioStat => true
  | .wrMdioCmdW _ _ _ => true
  | .wrMdioCmdR _ _ => true
  | .wrMdioCtrlStart => true
  | .rdMdioData => true
  | .rdRxAvail => true
  | .rdRxLen => true
  | .rdRxbuf k => decide (k < c.rxBuf.bytes / 4)
  | .wrRxAck1 => true
  | .rdTxBusy => true
  | .wrTxbuf k _ => decide (k < c.txBuf.bytes / 4)
  | .wrTxLen _ => true
  | .wrTxSend1 => true
  | .rdTxDone => true
  | .rdMacAddrHi => true
  | .wrMacAddrHi _ => true
  | .rdMacAddrLo => true
  | .wrMacAddrLo _ => true
  | .rdRxErrCnt => true

/-- R6: bases are multiples of 4 and the windows are disjoint. -/
def Config.windowsOk (c : Config) : Bool :=
  decide (c.baseMdio % 4 = 0 ∧ c.basePkt % 4 = 0 ∧
    (c.baseMdio + c.sizeMdio ≤ c.basePkt ∨ c.basePkt + c.sizePkt ≤ c.baseMdio))

/-- R6, R24: a register's offset is a multiple of 4; DEDUCED (log 13): its word lies in its window. -/
def Config.regOk (c : Config) (r : Reg) : Bool :=
  decide ((c.loc r).off % 4 = 0 ∧ (c.loc r).off + 4 ≤ c.size (c.loc r).win)

/-- R6: a buffer's offset and size are multiples of 4; DEDUCED (log 13): it lies in its window. -/
def Config.bufOk (c : Config) (b : BufLoc) : Bool :=
  decide (b.off % 4 = 0 ∧ b.bytes % 4 = 0 ∧ b.off + b.bytes ≤ c.size b.win)

/-- R6: `RX_BUF_BYTES > CRC_BYTES`, `TX_BUF_BYTES >= 4`; DEDUCED (log 13): a frame length fits the 32 bits of RX_LEN. -/
def Config.bufSizesOk (c : Config) : Bool :=
  decide (crcBytes < c.rxBuf.bytes ∧ c.rxBuf.bytes < 2 ^ 32 ∧ 4 ≤ c.txBuf.bytes)

/-- May two registers share one offset (R25)? Only where no direction selects both; and the in-progress
bit and the read result may be one read word where the bit stands above the result. -/
def Config.mayShare (c : Config) (r r' : Reg) : Bool :=
  !(r.admits .read && r'.admits .read) && !(r.admits .write && r'.admits .write)
    || (decide (r = .mdioStat ∧ r' = .mdioData) || decide (r = .mdioData ∧ r' = .mdioStat))
        && decide (16 ≤ c.busyBit.val)

/-- R6, R25: registers at one offset may share it. -/
def Config.regsApart (c : Config) : Bool :=
  Reg.all.all fun r => Reg.all.all fun r' =>
    decide (r = r') || !(c.loc r == c.loc r') || c.mayShare r r'

/-- R6: no register lies in a buffer, and the two buffers are disjoint. -/
def Config.bufsApart (c : Config) : Bool :=
  (Reg.all.all fun r => !c.rxBuf.holds (c.loc r).win (c.loc r).off && !c.txBuf.holds (c.loc r).win (c.loc r).off)
    && decide (c.rxBuf.win ≠ c.txBuf.win ∨ c.rxBuf.off + c.rxBuf.bytes ≤ c.txBuf.off
        ∨ c.txBuf.off + c.txBuf.bytes ≤ c.rxBuf.off)

/-- R6: the write opcode is not zero, the start strobe has exactly two bits set. -/
def Config.codesOk (c : Config) : Bool :=
  c.writeOpcode != 0#4 && popcount c.startStrobe == 2

/-- R191: step 7 repeats step 2 with the soft-reset bit, one bit not set in step 2's value; step 1
addresses the page register, which no later step does. PHY register numbers are 5 bits (R47). -/
def Config.bringupOk (c : Config) : Bool :=
  match c.bringup with
  | [p1, p2, p3, p4, p5, p6, p7] =>
    decide (p7.reg = p2.reg) && p7.val == p2.val ||| c.softResetBit
      && popcount c.softResetBit == 1 && p2.val &&& c.softResetBit == 0#16
      && [p2, p3, p4, p5, p6, p7].all (fun p => p.reg != p1.reg)
      && [p1, p2, p3, p4, p5, p6, p7].all (fun p => decide (p.reg < 32))
  | _ => false

/-- A valid instantiation of the parameters (R6, R25, R191). -/
def Config.valid (c : Config) : Bool :=
  c.windowsOk && Reg.all.all c.regOk && c.bufOk c.rxBuf && c.bufOk c.txBuf && c.bufSizesOk
    && c.regsApart && c.bufsApart && c.codesOk && c.bringupOk

end Sys2Proof
end

