-- ==== Sys2Proof/Machine/State.lean ====
section
/-! DEFINITION. The state of the block (R20) with the run's observations (R14, R16) and the model's own bookkeeping, the faults and refusals (R311), and the state after reset (R60). -/

namespace Sys2Proof.Machine

/-- R41. -/
inductive MdioPhase where
  | idle
  | armed
  | busy
  deriving DecidableEq, Repr

/-- R42. -/
inductive RxPhase where
  | empty
  | full
  deriving DecidableEq, Repr

/-- R43. -/
inductive TxPhase where
  | idle
  | sending
  deriving DecidableEq, Repr

/-- The MDIO transaction in flight (R20, `mdio_txn`). -/
inductive Txn where
  | write (phy reg : BitVec 5) (ta : BitVec 2) (data : Half)
  | read (phy reg : BitVec 5) (ta : BitVec 2)
  deriving DecidableEq, Repr

/-- The nine event kinds of R16. -/
inductive Event where
  | mdioWriteTxn (phy reg : BitVec 5) (ta : BitVec 2) (data : Half)
  | mdioReadTxn (phy reg : BitVec 5) (ta : BitVec 2) (result : Half)
  | frameStaged (bytes : List Byte)
  | frameDropped
  | frameReleased
  | frameSent (bytes : List Byte)
  | badFrameCounted
  /-- `irq_rx` changes to `level` (R49; log 8) -/
  | irqRx (level : Bool)
  /-- `irq_tx` changes to `level` (R49; log 8) -/
  | irqTx (level : Bool)
  deriving DecidableEq, Repr

/-- The contents of a frame buffer: byte index and byte, indexes strictly rising. A byte not listed holds
no value the run has put there (log 6). -/
abbrev Memory := List Host.Cell

/-- One step of one agent (R17), with what the environment supplies to it. -/
inductive Action where
  /-- a bus operation of some host agent -/
  | host (op : BusOp)
  /-- the MDIO engine completes; `answer` is the PHY's answer if a read is in flight (R160, R161) -/
  | mdioEngine (answer : Half)
  /-- the wire delivers a frame (R220, R222) -/
  | wireFrame (bytes : List Byte)
  /-- the wire delivers a bad frame (R295) -/
  | badFrame
  /-- the transmit engine completes (R261) -/
  | txEngine
  deriving DecidableEq, Repr

/-- The faults of R311. All are safe: the spec names the fault where the chip's behaviour is unknown. -/
inductive Fault where
  /-- F1, raised by a write of MDIO_CMD or MDIO_CTRL while a transaction is in flight (R155); the data word. Safe. -/
  | mdioAccessWhileBusy (w : Word)
  /-- F2, raised by the start strobe in phase Idle (R153). Safe. -/
  | mdioStrobeNotArmed
  /-- F3, raised by an acknowledge with no frame staged, under `ACK_EMPTY = fault` only (R213). Safe. -/
  | ackWhileEmpty
  /-- F4, raised by a write of TXBUF (with its word index) or TX_LEN (with none) while sending (R251, R252). Safe. -/
  | txWriteWhileBusy (k : Option Nat)
  /-- F5, raised by the send strobe while sending (R253). Safe. -/
  | txSendWhileBusy
  /-- F6, raised by the send strobe with a length of zero or beyond the buffer (R253); the length. Safe. -/
  | txBadLength (len : Word)
  deriving DecidableEq, Repr

/-- The refusals of R311, and what the model itself gives no meaning. All are safe: the run stops. -/
inductive Refusal where
  /-- raised by an arm of `exec` without a meaning; none is left. Safe. -/
  | notModelled (mnemonic : String)
  /-- raised by a bus operation whose address lies in neither window (R75; log 9). Safe. -/
  | notThisBlock (addr : Nat)
  /-- X1, raised by any operation at an offset where nothing lies (R140). Safe. -/
  | unmapped (w : Window) (off : Nat) (d : Dir)
  /-- X2, raised by any operation in a direction its register does not admit (R141). Safe. -/
  | wrongDirection (t : Target) (d : Dir)
  /-- X3, raised by any access that is not an aligned 32-bit access (R72). Safe. -/
  | badWidthOrAlignment (addr width : Nat)
  /-- X4, raised by a strobe write of an undocumented value (R142). Safe. -/
  | badStrobeValue (v : Word)
  /-- X5, raised by a write of MDIO_CMD with a word in neither form (R143). Safe. -/
  | malformedMdioCommand (v : Word)
  /-- raised by a buffer access whose word index lies outside the buffer, which no bus operation decodes to (log 10). Safe. -/
  | noSuchBufferWord (k : Nat)
  /-- raised by a wire frame whose length is outside the bounds of R220, which is no step of the spec's model (log 11). Safe. -/
  | frameOutsideBounds (n : Nat)
  deriving DecidableEq, Repr

/-- The state. The first group is R20 whole, but for the two lines, which are functions of it (R49). -/
structure State where
  mdioPhase  : MdioPhase
  mdioCmd    : Word
  mdioTxn    : Option Txn
  mdioRdata  : Half
  mdioRvalid : Bool
  rxPhase    : RxPhase
  rxLen      : Word
  rxBuf      : Memory
  txPhase    : TxPhase
  txLen      : Word
  txBuf      : Memory
  txDone     : Bool
  macHi      : Word
  macLo      : Word
  rxErrCnt   : Word
  /-- the value the latest read returned to the host (R14; log 7) -/
  returned   : Option Word
  /-- the events recorded so far, of all nine kinds in one sequence, oldest first (R16; log 8) -/
  history    : List Event
  /-- the parameters (R6); no step changes them (log 1) -/
  cfg        : Config
  /-- the steps still to come, in the total order of R80 (log 2) -/
  agenda     : List Action
  /-- how many free values have been drawn (log 4) -/
  draws      : Nat
  deriving DecidableEq, Repr

/-- `irq_rx` (R49). -/
def State.irqRx (s : State) : Bool := decide (s.rxPhase = .full)

/-- `irq_tx` (R49). -/
def State.irqTx (s : State) : Bool := s.txDone

/-- The state after reset under the parameters `c` (R60, R350): what R60 gives, and a free value where it
says "unspecified" (log 5, log 6). -/
def State.resetWith (c : Config) : State where
  mdioPhase  := .idle
  mdioCmd    := Config.resetMdioCmd
  mdioTxn    := none
  mdioRdata  := Config.resetMdioRdata
  mdioRvalid := false
  rxPhase    := .empty
  rxLen      := Config.resetRxLen
  rxBuf      := []
  txPhase    := .idle
  txLen      := Config.resetTxLen
  txBuf      := []
  txDone     := false
  macHi      := Config.resetMacHi
  macLo      := Config.resetMacLo
  rxErrCnt   := 0
  returned   := none
  history    := []
  cfg        := c
  agenda     := []
  draws      := 0

/-- The state after reset of the example instantiation E0 (log 1). -/
def State.reset : State := State.resetWith Config.e0

end Sys2Proof.Machine
end

