-- ==== Sys2Proof/Machine/Ops.lean ====
section
/-! DEFINITION. The named operations over the buffers and the state. The block takes no exception and returns from none (R310, R324, R326), so there is no such operation: a fault is an outcome (`Host.Outcome.fault`), and raising a line is `State.setRxPhase` or `State.setTxDone`. -/

namespace Sys2Proof.Machine

/-- What a buffer holds at byte index `a`: a byte the run has put there, or none. The ONE definition of
what a byte not listed reads as: no value. -/
def Memory.get? : Memory → Nat → Option Byte
  | [], _ => none
  | (b, w) :: m, a => if b = a then some w else Memory.get? m a

/-- Store a byte, keeping the indexes strictly rising. -/
def Memory.set : Memory → Nat → Byte → Memory
  | [], a, v => [(a, v)]
  | (b, w) :: m, a, v =>
    if a < b then (a, v) :: (b, w) :: m
    else if a = b then (a, v) :: m
    else (b, w) :: Memory.set m a v

/-- The canonical form: indexes strictly rising. No listed byte equals what an unlisted one reads as,
because an unlisted one has no value. -/
abbrev Memory.wf (m : Memory) : Prop := List.Pairwise (fun p q => p.1 < q.1) m

/-- Every listed index lies below `n`. -/
abbrev Memory.below (m : Memory) (n : Nat) : Prop := ∀ p ∈ m, p.1 < n

/-- The buffer that holds `bytes` from index `a` up and nothing else (R220: the rest is drawn). -/
def Memory.ofBytes : Nat → List Byte → Memory
  | _, [] => []
  | a, b :: bs => (a, b) :: Memory.ofBytes (a + 1) bs

/-- Store the four octets of word `v` at octet index `a`, the least significant first (R251, R71). -/
def Memory.setWord (m : Memory) (a : Nat) (v : Word) : Memory :=
  Memory.set (Memory.set (Memory.set (Memory.set m a (v.extractLsb' 0 8)) (a + 1) (v.extractLsb' 8 8))
    (a + 2) (v.extractLsb' 16 8)) (a + 3) (v.extractLsb' 24 8)

/-- The draw the next undefined value takes (R14, U13; log 4). -/
def State.nextDraw (s : State) : Word := Config.freeWord s.draws

/-- A draw has been used. -/
def State.drawn (s : State) : State := { s with draws := s.draws + 1 }

/-- A read returns `v` to the host (R14). -/
def State.returning (s : State) (v : Word) : State := { s with returned := some v }

/-- Record an event (R16). -/
def State.record (s : State) (e : Event) : State := { s with history := s.history ++ [e] }

/-- A transaction starts: it is in flight, and MDIO_DATA has no specified value (R151, R153). -/
def State.startTxn (s : State) (t : Txn) : State :=
  { s with mdioTxn := some t, mdioRvalid := false, mdioPhase := .busy }

/-- The transaction in flight ends (R160, R161). -/
def State.endTxn (s : State) : State := { s with mdioTxn := none, mdioPhase := .idle }

/-- A read transaction delivers its result (R161). -/
def State.setRdata (s : State) (r : Half) : State := { s with mdioRdata := r, mdioRvalid := true }

/-- The receive slot changes owner, and `irq_rx` follows it: a change of level is an event
(R42, R49, R16; log 8). -/
def State.setRxPhase (s : State) (p : RxPhase) : State :=
  { s with
    rxPhase := p
    history := if s.rxPhase = p then s.history else s.history ++ [.irqRx (decide (p = .full))] }

/-- The transmit slot changes owner (R43). -/
def State.setTxPhase (s : State) (p : TxPhase) : State := { s with txPhase := p }

/-- `tx_done` takes a value, and `irq_tx` follows it: a change of level is an event
(R36, R49, R16; log 8). -/
def State.setTxDone (s : State) (b : Bool) : State :=
  { s with
    txDone := b
    history := if s.txDone = b then s.history else s.history ++ [.irqTx b] }

/-- The write-only and read/write storage registers take a value (R151, R152, R252, R291, R293). -/
def State.setMdioCmd (s : State) (w : Word) : State := { s with mdioCmd := w }

def State.setTxLen (s : State) (n : Word) : State := { s with txLen := n }

def State.setMacHi (s : State) (v : Word) : State := { s with macHi := v }

def State.setMacLo (s : State) (v : Word) : State := { s with macLo := v }

/-- A read command waits for the start strobe (R152). -/
def State.arm (s : State) : State := { s with mdioPhase := .armed }

/-- Word `k` of `tx_buf` takes the value `v` (R251). -/
def State.setTxWord (s : State) (k : Nat) (v : Word) : State := { s with txBuf := s.txBuf.setWord (4 * k) v }

/-- The frame `f` is put into the receive slot: its bytes, and its length. The rest of RXBUF is drawn
(R220): nothing is listed there. -/
def State.setRxFrame (s : State) (f : List Byte) : State :=
  { s with rxBuf := Memory.ofBytes 0 f, rxLen := BitVec.ofNat 32 f.length }

/-- `rx_err_cnt` counts one more bad frame, modulo 2^32 (R295, R296). -/
def State.countBad (s : State) : State := { s with rxErrCnt := s.rxErrCnt + 1 }

/-- Octet `i` of `tx_buf`: what the host put there, else what it held at reset (R60: unspecified). -/
def State.txByte (s : State) (i : Nat) : Byte := (s.txBuf.get? i).getD (Config.resetTxByte i)

/-- The frame in the transmit slot: octets `0 .. tx_len - 1` of `tx_buf` (R253, R261). -/
def State.txFrame (s : State) : List Byte := (List.range s.txLen.toNat).map s.txByte

/-- Octet `i` of the receive slot where it is defined: the slot is full and the octet lies below `rx_len`
(R212, R234). -/
def State.rxByte? (s : State) (i : Nat) : Option Byte :=
  if s.rxPhase = .full ∧ i < s.rxLen.toNat then s.rxBuf.get? i else none

/-- The PHY writes a history holds, oldest first: what the PHY oracle has recorded (R46, R160). -/
def phyWrites (h : List Event) : List (BitVec 5 × BitVec 5 × Half) :=
  h.filterMap fun e =>
    match e with
    | .mdioWriteTxn phy reg _ data => some (phy, reg, data)
    | _ => none

/-- The echo PHY of R46: the data of the latest write to the register, if there is one. A test oracle,
not a property of any PHY. -/
def echoPhy (h : List Event) (phy reg : BitVec 5) : Option Half :=
  ((phyWrites h).reverse.find? fun w => w.1 == phy && w.2.1 == reg).map fun w => w.2.2

end Sys2Proof.Machine
end

