-- ==== Sys2Proof/Machine/Flags.lean ====
section
/-! DEFINITION. The four flags of R45 and how a flag reads. The block has no condition codes. -/

namespace Sys2Proof.Machine

/-- A BOOL register reads 1 or 0 (R111, R30, R33, R36). -/
def flagWord (b : Bool) : Word := if b then 1#32 else 0#32

/-- MDIO in-progress (R45). -/
def State.inProgress (s : State) : Bool := decide (s.mdioPhase = .busy)

/-- RX new-packet, packet-available (R45). -/
def State.newPacket (s : State) : Bool := decide (s.rxPhase = .full)

/-- TX busy (R45). -/
def State.txBusyFlag (s : State) : Bool := decide (s.txPhase = .sending)

/-- TX done (R45). -/
def State.txDoneFlag (s : State) : Bool := s.txDone

end Sys2Proof.Machine
end

