-- ==== Sys2Proof/Machine/Operands.lean ====
section
/-! DEFINITION. The data words of the reads (R111): which bits are defined, the rest being the draw `v`; and the host's assembly of command words (R112, R113, R115). -/

namespace Sys2Proof.Machine

/-- `v` with bit `i` set to `b` (R150). -/
def putBit (v : Word) (i : Fin 32) (b : Bool) : Word :=
  if b then v ||| (1#32 <<< i.val) else v &&& ~~~(1#32 <<< i.val)

/-- `v` with bits [15:0] set to `d`, if there is a defined value for them (R154). -/
def putLow (v : Word) (d : Option Half) : Word :=
  match d with
  | some x => v.extractLsb' 16 16 ++ x
  | none => v

/-- Byte lane `j` of word `v` (R71). -/
def lane (v : Word) (j : Nat) : Byte := v.extractLsb' (8 * j) 8

/-- The word with byte lanes `b0` (least significant) to `b3` (R71, R111 BUF). -/
def ofLanes (b0 b1 b2 b3 : Byte) : Word := b3 ++ b2 ++ b1 ++ b0

/-- The read result where MDIO_DATA specifies one: a read has completed and no transaction has started
since (R29, R154). -/
def State.readResult (s : State) : Option Half :=
  if s.mdioRvalid ∧ s.mdioPhase ≠ .busy then some s.mdioRdata else none

/-- Do MDIO_STAT and MDIO_DATA lie in one read word (R25, R27, R29)? -/
def sharedWord (c : Config) : Bool := c.mdioStat == c.mdioData

/-- The word a read of MDIO_STAT returns, drawing `v` (R150; R27 for the shared word). -/
def State.statWord (s : State) (v : Word) : Word :=
  putBit (if sharedWord s.cfg then putLow v s.readResult else v) s.cfg.busyBit s.inProgress

/-- The word a read of MDIO_DATA returns, drawing `v` (R154; R29 for the shared word). -/
def State.dataWord (s : State) (v : Word) : Word :=
  if sharedWord s.cfg then putBit (putLow v s.readResult) s.cfg.busyBit s.inProgress
  else putLow v s.readResult

/-- The word a read of RX_LEN returns, drawing `v` (R211). -/
def State.rxLenWord (s : State) (v : Word) : Word :=
  if s.rxPhase = .full then s.rxLen else v

/-- The word a read of RXBUF[k] returns, drawing `v`: lane by lane, the octet where it is defined (R212). -/
def State.rxBufWord (s : State) (k : Nat) (v : Word) : Word :=
  ofLanes ((s.rxByte? (4 * k)).getD (lane v 0)) ((s.rxByte? (4 * k + 1)).getD (lane v 1))
    ((s.rxByte? (4 * k + 2)).getD (lane v 2)) ((s.rxByte? (4 * k + 3)).getD (lane v 3))

/-- The command of a PHY write as the host assembles it (R112): the fields are OR-ed with no mask, and the
result is cut to 16 bits (R115). -/
def writeCommand (c : Config) (register : Nat) : Half :=
  BitVec.ofNat 16 ((c.writeOpcode.toNat <<< 12) ||| (c.fixedPhyAddr.toNat <<< 7) ||| (register <<< 2)
    ||| c.turnaround.toNat)

/-- The command of a PHY read as the host assembles it (R113, R115). -/
def readCommand (c : Config) (register : Nat) : Half :=
  BitVec.ofNat 16 ((c.turnaround.toNat <<< 14) ||| (register <<< 9) ||| (c.fixedPhyAddr.toNat <<< 4)
    ||| c.readOpcode.toNat)

/-- The word written to MDIO_CMD for a PHY write: command and value concatenated (R112). -/
def writeCommandWord (c : Config) (register : Nat) (value : Half) : Word := writeCommand c register ++ value

/-- The word written to MDIO_CMD for a PHY read: the command, zero-extended (R113). -/
def readCommandWord (c : Config) (register : Nat) : Word := (readCommand c register).setWidth 32

end Sys2Proof.Machine
end

