-- ==== Sys2Proof/Machine/Mdio.lean ====
section
/-! DEFINITION. The five host operations on the MDIO registers and the two steps of the MDIO engine (40_mdio.md). -/

namespace Sys2Proof.Machine

/-- A read that returns `v` and changes nothing of the block (R74). -/
def readValue (v : Word) (s : State) : Host.Outcome State Fault Refusal :=
  .next (s.returning v)

/-- A read some of whose bits are draws: `f` overlays what is defined on the draw (R14, R74). -/
def readDrawn (f : Word → Word) (s : State) : Host.Outcome State Fault Refusal :=
  .next (s.drawn.returning (f s.nextDraw))

/-- R150. -/
def execRdMdioStat (s : State) : Host.Outcome State Fault Refusal :=
  readDrawn s.statWord s

/-- R151. -/
def execWrMdioCmdW (phy reg : BitVec 5) (data : Half) (s : State) : Host.Outcome State Fault Refusal :=
  if s.mdioPhase = .busy then .fault (.mdioAccessWhileBusy (s.cfg.writeWord phy reg data))
  else
    .next ((s.setMdioCmd (s.cfg.writeWord phy reg data)).startTxn (.write phy reg s.cfg.turnaround data))

/-- R152. -/
def execWrMdioCmdR (phy reg : BitVec 5) (s : State) : Host.Outcome State Fault Refusal :=
  if s.mdioPhase = .busy then .fault (.mdioAccessWhileBusy (s.cfg.readWord phy reg))
  else .next (s.setMdioCmd (s.cfg.readWord phy reg)).arm

/-- R153: the fields of the read come from the stored command word (R117). -/
def execWrMdioCtrlStart (s : State) : Host.Outcome State Fault Refusal :=
  match s.mdioPhase with
  | .busy => .fault (.mdioAccessWhileBusy s.cfg.startStrobe)
  | .idle => .fault .mdioStrobeNotArmed
  | .armed => .next (s.startTxn (.read (readPhy s.mdioCmd) (readReg s.mdioCmd) (readTa s.mdioCmd)))

/-- R154. -/
def execRdMdioData (s : State) : Host.Outcome State Fault Refusal :=
  readDrawn s.dataWord s

/-- The MDIO engine's step: completion of the write (R160) or of the read, which the PHY answers with
`answer` (R161). Not enabled, the engine does nothing (log 2). -/
def mdioComplete (answer : Half) (s : State) : State :=
  match s.mdioPhase, s.mdioTxn with
  | .busy, some (.write phy reg ta data) => s.endTxn.record (.mdioWriteTxn phy reg ta data)
  | .busy, some (.read phy reg ta) => (s.endTxn.setRdata answer).record (.mdioReadTxn phy reg ta answer)
  | _, _ => s

end Sys2Proof.Machine
end

