-- ==== Sys2Proof/Machine/Receive.lean ====
section
/-! DEFINITION. The four host operations on the receive slot and the steps of the receive engine (42_receive.md, R295). -/

namespace Sys2Proof.Machine

/-- R210. -/
def execRdRxAvail (s : State) : Host.Outcome State Fault Refusal :=
  readValue (flagWord s.newPacket) s

/-- R211. -/
def execRdRxLen (s : State) : Host.Outcome State Fault Refusal :=
  readDrawn s.rxLenWord s

/-- R212. A word index outside the buffer is no operation (log 10). -/
def execRdRxbuf (k : Nat) (s : State) : Host.Outcome State Fault Refusal :=
  if k < s.cfg.rxBuf.bytes / 4 then readDrawn (s.rxBufWord k) s
  else .refused (.noSuchBufferWord k)

/-- R213. -/
def execWrRxAck1 (s : State) : Host.Outcome State Fault Refusal :=
  match s.rxPhase, s.cfg.ackEmpty with
  | .full, _ => .next ((s.setRxPhase .empty).record .frameReleased)
  | .empty, .ignore => .next s
  | .empty, .fault => .fault .ackWhileEmpty

/-- Staging a frame in the empty slot (R220). -/
def stageFrame (f : List Byte) (s : State) : State :=
  ((s.setRxFrame f).setRxPhase .full).record (.frameStaged f)

/-- Counting a bad frame (R295). -/
def countBadFrame (s : State) : State := s.countBad.record .badFrameCounted

/-- A frame that meets the full slot is dropped; whether it is counted is a free choice (R222, log 15). -/
def dropFrame (s : State) : State :=
  if Config.freeBit s.draws then countBadFrame (s.drawn.record .frameDropped)
  else s.drawn.record .frameDropped

/-- The wire delivers a frame (R220, R222). A length outside the bounds of R220 is no step (log 11). -/
def receiveFrame (f : List Byte) (s : State) : Host.Outcome State Fault Refusal :=
  if crcBytes ≤ f.length ∧ f.length ≤ s.cfg.rxBuf.bytes then
    match s.rxPhase with
    | .empty => .next (stageFrame f s)
    | .full => .next (dropFrame s)
  else .refused (.frameOutsideBounds f.length)

end Sys2Proof.Machine
end

