-- ==== Sys2Proof/Machine/Transmit.lean ====
section
/-! DEFINITION. The five host operations on the transmit slot and the step of the transmit engine (43_transmit.md). -/

namespace Sys2Proof.Machine

/-- R250. -/
def execRdTxBusy (s : State) : Host.Outcome State Fault Refusal :=
  readValue (flagWord s.txBusyFlag) s

/-- R251. A word index outside the buffer is no operation (log 10). -/
def execWrTxbuf (k : Nat) (v : Word) (s : State) : Host.Outcome State Fault Refusal :=
  if k < s.cfg.txBuf.bytes / 4 then
    if s.txPhase = .sending then .fault (.txWriteWhileBusy (some k)) else .next (s.setTxWord k v)
  else .refused (.noSuchBufferWord k)

/-- R252. -/
def execWrTxLen (n : Word) (s : State) : Host.Outcome State Fault Refusal :=
  if s.txPhase = .sending then .fault (.txWriteWhileBusy none) else .next (s.setTxLen n)

/-- R253. -/
def execWrTxSend1 (s : State) : Host.Outcome State Fault Refusal :=
  if s.txPhase = .sending then .fault .txSendWhileBusy
  else if s.txLen = 0#32 ∨ s.cfg.txBuf.bytes < s.txLen.toNat then .fault (.txBadLength s.txLen)
  else .next ((s.setTxDone false).setTxPhase .sending)

/-- R254. -/
def execRdTxDone (s : State) : Host.Outcome State Fault Refusal :=
  readValue (flagWord s.txDoneFlag) s

/-- The transmit engine's step (R261). Not enabled, the engine does nothing (log 2). -/
def txComplete (s : State) : State :=
  match s.txPhase with
  | .sending => ((s.record (.frameSent s.txFrame)).setTxDone true).setTxPhase .idle
  | .idle => s

end Sys2Proof.Machine
end

