-- ==== Sys2Proof/Machine/Misc.lean ====
section
/-! DEFINITION. The MAC address registers and the receive error counter (44_misc_registers.md). -/

namespace Sys2Proof.Machine

/-- R290. -/
def execRdMacAddrHi (s : State) : Host.Outcome State Fault Refusal :=
  readValue s.macHi s

/-- R291. -/
def execWrMacAddrHi (v : Word) (s : State) : Host.Outcome State Fault Refusal :=
  .next (s.setMacHi v)

/-- R292. -/
def execRdMacAddrLo (s : State) : Host.Outcome State Fault Refusal :=
  readValue s.macLo s

/-- R293. -/
def execWrMacAddrLo (v : Word) (s : State) : Host.Outcome State Fault Refusal :=
  .next (s.setMacLo v)

/-- R294. -/
def execRdRxErrCnt (s : State) : Host.Outcome State Fault Refusal :=
  readValue s.rxErrCnt s

/-- The six octets of the MAC address as the two registers hold them (R37, R38). -/
def State.macAddress (s : State) : List Byte :=
  [lane s.macHi 1, lane s.macHi 0, lane s.macLo 3, lane s.macLo 2, lane s.macLo 1, lane s.macLo 0]

end Sys2Proof.Machine
end

