-- ==== Sys2Proof/Machine/Dispatch.lean ====
section
/-! DEFINITION. The one match over the operations of R125: each arm calls that operation's own meaning. -/

namespace Sys2Proof.Machine

def exec (i : Instr) (s : State) : Host.Outcome State Fault Refusal :=
  match i with
  | .rdMdioStat => Sys2Proof.Machine.execRdMdioStat s
  | .wrMdioCmdW phy reg data => Sys2Proof.Machine.execWrMdioCmdW phy reg data s
  | .wrMdioCmdR phy reg => Sys2Proof.Machine.execWrMdioCmdR phy reg s
  | .wrMdioCtrlStart => Sys2Proof.Machine.execWrMdioCtrlStart s
  | .rdMdioData => Sys2Proof.Machine.execRdMdioData s
  | .rdRxAvail => Sys2Proof.Machine.execRdRxAvail s
  | .rdRxLen => Sys2Proof.Machine.execRdRxLen s
  | .rdRxbuf k => Sys2Proof.Machine.execRdRxbuf k s
  | .wrRxAck1 => Sys2Proof.Machine.execWrRxAck1 s
  | .rdTxBusy => Sys2Proof.Machine.execRdTxBusy s
  | .wrTxbuf k v => Sys2Proof.Machine.execWrTxbuf k v s
  | .wrTxLen n => Sys2Proof.Machine.execWrTxLen n s
  | .wrTxSend1 => Sys2Proof.Machine.execWrTxSend1 s
  | .rdTxDone => Sys2Proof.Machine.execRdTxDone s
  | .rdMacAddrHi => Sys2Proof.Machine.execRdMacAddrHi s
  | .wrMacAddrHi v => Sys2Proof.Machine.execWrMacAddrHi v s
  | .rdMacAddrLo => Sys2Proof.Machine.execRdMacAddrLo s
  | .wrMacAddrLo v => Sys2Proof.Machine.execWrMacAddrLo v s
  | .rdRxErrCnt => Sys2Proof.Machine.execRdRxErrCnt s

end Sys2Proof.Machine
end

