-- ==== Sys2Proof/Machine/Bus.lean ====
section
/-! DEFINITION. The block's port: a bus operation is decoded and run, or refused by name; and the step of each agent (R17, R80). -/

namespace Sys2Proof.Machine

/-- The refusal a rejected bus operation is answered with (R311). -/
def refusalOf : Reject → Refusal
  | .notThisBlock a => .notThisBlock a
  | .unmapped w off d => .unmapped w off d
  | .wrongDirection t d => .wrongDirection t d
  | .badWidthOrAlignment a n => .badWidthOrAlignment a n
  | .badStrobeValue v => .badStrobeValue v
  | .malformedMdioCommand v => .malformedMdioCommand v

/-- One bus operation of a host agent: atomic (R73), decoded as R75 and R110 say. -/
def hostOp (op : BusOp) (s : State) : Host.Outcome State Fault Refusal :=
  match decode s.cfg op with
  | .ok i => exec i s
  | .error e => .refused (refusalOf e)

/-- One step of one agent (R17). -/
def act (a : Action) (s : State) : Host.Outcome State Fault Refusal :=
  match a with
  | .host op => hostOp op s
  | .mdioEngine answer => .next (mdioComplete answer s)
  | .wireFrame f => receiveFrame f s
  | .badFrame => .next (countBadFrame s)
  | .txEngine => .next (txComplete s)

/-- The next step of the total order (R80) is taken off the agenda and run; with nothing on it no agent
acts, and the block stays as it is (log 2). -/
def runNext (s : State) : Host.Outcome State Fault Refusal :=
  match s.agenda with
  | [] => .next s
  | a :: rest => act a { s with agenda := rest }

/-- Put a bus operation first on the agenda (log 3). -/
def State.issue (s : State) (op : BusOp) : State := { s with agenda := .host op :: s.agenda }

end Sys2Proof.Machine
end

