-- ==== Sys2Proof/Machine/Step.lean ====
section
/-! DEFINITION. The step of the machine, and placing an operation where the step takes its next one from. -/

namespace Sys2Proof.Machine

/-- One step: the next agent of the total order acts (R80). -/
def step (s : State) : Host.Outcome State Fault Refusal := runNext s

/-- `s` with the bus operation of a table word as the next step of the order (log 3). -/
def State.withFetchWord (s : State) (nbits w : Nat) : State := s.issue (tableOp s.cfg nbits w)

end Sys2Proof.Machine
end

