-- ==== Sys2Proof/Machine/Driver.lean ====
section
/-! DEFINITION. The host side the spec gives as the usage contract (R3): the notation of R130 and R131 as small programs, the Concurrency Guard (R90), and the driver's procedures (R170, R171, R190, R193, R230, R270). Software: none of it is state of the block (R50). -/

namespace Sys2Proof.Driver

open Sys2Proof.Machine

/-- What a procedure returns (R132). `handled` carries the frame delivered, none where the buffer could
not be allocated (R232); `failure` is a start-up that attach-time software has failed (R193). -/
inductive Result where
  | success
  | value (v : Half)
  | handled (delivered : Option (List Byte))
  | notHandled
  | accepted
  | busy
  | failure
  deriving DecidableEq, Repr

/-- A host program (R130, R131): each line is one bus operation, or takes or leaves the guard, or has the
receive interrupt enabled at the controller (`arm`, step 5 of R355); `poll0` is the unbounded wait, one read
an iteration. -/
inductive Proc where
  | done (r : Result)
  | lock (k : Proc)
  | unlock (k : Proc)
  | rd (t : Target) (k : Word → Proc)
  | wr (t : Target) (v : Word) (k : Proc)
  | poll0 (t : Target) (mask : Word) (k : Proc)
  | arm (k : Proc)

/-- The receive interrupt at the interrupt controller (R320): not enabled since reset, and no handler is
invoked (R193); or enabled by a start-up, since when the controller may mask and unmask it. -/
inductive Interrupt where
  | unarmed
  | masked
  | enabled
  deriving DecidableEq, Repr

/-- An operation an agent has issued and gone on from before it has reached the block (R81). -/
structure Outstanding where
  agent : Nat
  op : BusOp
  /-- for a read, the value the agent has gone on with -/
  value : Word
  deriving DecidableEq, Repr

/-- The block with the host agents that use it: who holds the guard, what each agent still has to run, the
operations issued that have not reached the block, every operation in the order of issue and in the order
of reaching the block, each with its agent (R81, R94), oldest first, and how the receive
interrupt stands at the controller (R193, R320, R322). -/
structure System where
  block : State
  guard : Option Nat
  procs : List Proc
  outstanding : List Outstanding
  issued : List (Nat × BusOp)
  trace : List (Nat × BusOp)
  interrupt : Interrupt

/-- What steps next: an agent of the list, whose operation reaches the block at once (`host`) or is issued
with the agent going on, as after `v` (`post`); the `n`-th outstanding operation, which reaches the block
(`reach`); a new agent that begins a program (`start`) or the receive handler (`invoke`, R322); the
interrupt controller, which unmasks or masks (`enable`); or an engine, the wire or a host outside the list (`env`). -/
inductive Choice where
  | host (i : Nat)
  | post (i : Nat) (v : Word)
  | reach (n : Nat)
  | start (p : Proc)
  | invoke (allocated : Bool)
  | enable (b : Bool)
  | env (a : Action)

/-- The bus operation of a program's next line, if it makes one, and how the program goes on from the value
the block returns (R130, R131). -/
def Proc.operation (c : Config) : Proc → Option (BusOp × (Word → Proc))
  | .done _ => none
  | .lock _ => none
  | .unlock _ => none
  | .rd t k => some (readOf c t, k)
  | .wr t v k => some (writeOf c t v, fun _ => k)
  | .poll0 t m k => some (readOf c t, fun v => if v &&& m = 0#32 then k else .poll0 t m k)
  | .arm _ => none

/-- Has agent `i` an operation outstanding? -/
def System.waits (y : System) (i : Nat) : Bool := y.outstanding.any fun o => o.agent == i

/-- Agent `i` issues `op`, which reaches the block at once, and goes on with `k` of what the block returned. -/
def issueAs (i : Nat) (op : BusOp) (k : Word → Proc) (y : System) :
    Host.Outcome System Fault Refusal :=
  match hostOp op y.block with
  | .next s => .next { y with
      block := s, procs := y.procs.set i (k (s.returned.getD 0#32))
      issued := y.issued ++ [(i, op)], trace := y.trace ++ [(i, op)] }
  | .fault f => .fault f
  | .refused r => .refused r

/-- Agent `i` takes the free guard, or releases it, once it has nothing outstanding (log 21). Not getting the
guard it spins, with no bus operation (R90, R368). DESIGN CHOICE (log 29), where the spec is silent: an
`unlock` frees the guard whoever holds it, and a `lock` by the agent that holds the guard already spins like
any other. -/
def guardLine (i : Nat) (p : Proc) (y : System) : System :=
  match p with
  | .lock k =>
    if y.guard = none ∧ y.waits i = false then { y with guard := some i, procs := y.procs.set i k } else y
  | .unlock k => if y.waits i = false then { y with guard := none, procs := y.procs.set i k } else y
  | _ => y

/-- How the controller's unmasking or masking leaves the interrupt: nothing before a start-up has had it
enabled (R193, R322). -/
def Interrupt.unmask (b : Bool) : Interrupt → Interrupt
  | .unarmed => .unarmed
  | _ => if b then .enabled else .masked

/-- Agent `i` runs a line that makes no bus operation. `arm` enables the interrupt, once the agent has nothing
outstanding: what the line ends has then reached the block (R193, log 30). -/
def quietLine (i : Nat) (p : Proc) (y : System) : System :=
  match p with
  | .arm k => if y.waits i = false then { y with interrupt := .enabled, procs := y.procs.set i k } else y
  | _ => guardLine i p y

/-- Agent `i` runs the next line of its program, which completes before the next line (R81). -/
def agentStep (i : Nat) (p : Proc) (y : System) : Host.Outcome System Fault Refusal :=
  match p.operation y.block.cfg with
  | some (op, k) => issueAs i op k y
  | none => .next (quietLine i p y)

/-- Agent `i` issues the operation of its next line and goes on, as after the value `v`, before it reaches
the block: what a host does that does not keep R81. -/
def postStep (i : Nat) (v : Word) (p : Proc) (y : System) : System :=
  match p.operation y.block.cfg with
  | some (op, k) => { y with
      procs := y.procs.set i (k v)
      outstanding := y.outstanding ++ [⟨i, op, v⟩], issued := y.issued ++ [(i, op)] }
  | none => y

/-- The `n`-th outstanding operation reaches the block. A read of another value than its agent has gone on
with is no run: it does not complete (log 22). -/
def reachStep (n : Nat) (y : System) : Host.Outcome System Fault Refusal :=
  match y.outstanding[n]? with
  | none => .next y
  | some o =>
    match hostOp o.op y.block with
    | .next s =>
      if o.op.dir = .read ∧ s.returned ≠ some o.value then .next y
      else .next { y with
        block := s, outstanding := y.outstanding.eraseIdx n, trace := y.trace ++ [(o.agent, o.op)] }
    | .fault f => .fault f
    | .refused r => .refused r

/-- The mask of the in-progress bit (R27, R366). -/
def busyMask (c : Config) : Word := 1#32 <<< c.busyBit.val

/-- `mdio_write` (R170), going on with `k`; the caller holds the guard. -/
def mdioWriteThen (c : Config) (register : Nat) (value : Half) (k : Proc) : Proc :=
  .poll0 (.reg .mdioStat) (busyMask c)
    (.wr (.reg .mdioCmd) (writeCommandWord c register value)
      (.poll0 (.reg .mdioStat) (busyMask c) k))

/-- `mdio_write` (R170). -/
def mdioWrite (c : Config) (register : Nat) (value : Half) : Proc :=
  mdioWriteThen c register value (.done .success)

/-- `mdio_read` (R171), going on with `k` of the 16-bit result; the caller holds the guard. -/
def mdioReadThen (c : Config) (register : Nat) (k : Half → Proc) : Proc :=
  .poll0 (.reg .mdioStat) (busyMask c)
    (.wr (.reg .mdioCmd) (readCommandWord c register)
      (.wr (.reg .mdioCtrl) c.startStrobe
        (.poll0 (.reg .mdioStat) (busyMask c)
          (.rd (.reg .mdioData) fun t => k (t.extractLsb' 0 16)))))

/-- `mdio_read` (R171). -/
def mdioRead (c : Config) (register : Nat) : Proc :=
  mdioReadThen c register fun v => .done (.value v)

/-- The PHY bring-up sequence (R190), going on with `k`: the writes in order, each under the guard (R92, log
21), then the acknowledge (R194). -/
def bringUpThen (c : Config) (k : Proc) : Proc :=
  c.bringup.foldr (fun p k => .lock (mdioWriteThen c p.reg p.val (.unlock k)))
    (.lock (.wr (.reg .rxAck) 1#32 (.unlock k)))

/-- The PHY bring-up sequence (R190). -/
def bringUp (c : Config) : Proc := bringUpThen c (.done .success)

/-- Device start-up (R193, R355): the bring-up sequence, then the interrupt. A missing memory resource or a
failed IRQ registration is an attach-time failure, before the first bus operation (R312(e), log 30): nothing
of the bring-up is done. No MDIO write fails, and no PHY is looked for. -/
def startUp (c : Config) (resource registered : Bool) : Proc :=
  if resource = true ∧ registered = true then bringUpThen c (.arm (.done .success)) else .done .failure

/-- The words a copy of `n` bytes takes (R78). -/
def wordsFor (n : Nat) : Nat := (n + 3) / 4

/-- `COPYIN` (R131): `n` words of RXBUF from word `k` on, appended to `got`. -/
def copyIn (k : Nat) : Nat → List Byte → (List Byte → Proc) → Proc
  | 0, got, f => f got
  | n + 1, got, f =>
    .rd (.rxWord k) fun t => copyIn (k + 1) n (got ++ [lane t 0, lane t 1, lane t 2, lane t 3]) f

/-- `word(src, k, n)` of R131; `pad` is what stands beyond the frame ("any value"). -/
def frameWord (src : List Byte) (pad : Nat → Byte) (k : Nat) : Word :=
  ofLanes (src[4 * k]?.getD (pad (4 * k))) (src[4 * k + 1]?.getD (pad (4 * k + 1)))
    (src[4 * k + 2]?.getD (pad (4 * k + 2))) (src[4 * k + 3]?.getD (pad (4 * k + 3)))

/-- `COPYOUT` (R131): `n` words of `src` into TXBUF from word `k` on, then `rest`. -/
def copyOut (src : List Byte) (pad : Nat → Byte) (k : Nat) : Nat → Proc → Proc
  | 0, rest => rest
  | n + 1, rest => .wr (.txWord k) (frameWord src pad k) (copyOut src pad (k + 1) n rest)

/-- The acknowledge that ends the handler, under the guard (R230 step 6). -/
def acknowledge (r : Result) : Proc := .lock (.wr (.reg .rxAck) 1#32 (.unlock (.done r)))

/-- The receive handler (R230). `allocated` says whether the buffer allocation succeeds (R232). DESIGN CHOICE
(log 31): the spec gives `n - 4` for `n >= 4` only (R211, R296); of a length read below 4, which no staged
frame has, it is taken modulo 2^32. -/
def rxHandler (allocated : Bool) : Proc :=
  .lock (.rd (.reg .rxAvail) fun a =>
    if a = 0#32 then .unlock (.done .notHandled)
    else .rd (.reg .rxLen) fun n =>
      .unlock (
        if allocated then
          copyIn 0 (wordsFor (n - 4#32).toNat) [] fun got =>
            acknowledge (.handled (some (got.take (n - 4#32).toNat)))
        else acknowledge (.handled none)))

/-- `transmit` (R270). The length written is the frame's own. DESIGN CHOICE (log 32): R6 puts no upper bound on
the transmit buffer, and the spec does not say what is written to the 32-bit TX_LEN for a frame of 2^32 octets
or more; all its words are copied, and its length is written modulo 2^32. -/
def transmit (frame : List Byte) (pad : Nat → Byte) : Proc :=
  .lock (.poll0 (.reg .txBusy) 0xFFFFFFFF#32 (.rd (.reg .txBusy) fun b =>
    if b ≠ 0#32 then .unlock (.done .busy)
    else copyOut frame pad 0 (wordsFor frame.length)
      (.wr (.reg .txLen) (BitVec.ofNat 32 frame.length)
        (.wr (.reg .txSend) 1#32 (.unlock (.done .accepted))))))

/-- One step of the system (R17, R80). The handler is invoked at any time while the interrupt is enabled,
so never before a start-up has ended (R193), whatever `irq_rx` is (R322). -/
def sysStep (ch : Choice) (y : System) : Host.Outcome System Fault Refusal :=
  match ch with
  | .host i =>
    match y.procs[i]? with
    | some p => agentStep i p y
    | none => .next y
  | .post i v =>
    match y.procs[i]? with
    | some p => .next (postStep i v p y)
    | none => .next y
  | .reach n => reachStep n y
  | .start p => .next { y with procs := y.procs ++ [p] }
  | .invoke allocated =>
    if y.interrupt = .enabled then .next { y with procs := y.procs ++ [rxHandler allocated] } else .next y
  | .enable b => .next { y with interrupt := y.interrupt.unmask b }
  | .env a =>
    match act a y.block with
    | .next s => .next { y with block := s }
    | .fault f => .fault f
    | .refused r => .refused r

/-- A run of the system under a schedule (R80: any interleaving). -/
def sysRun : List Choice → System → Host.Outcome System Fault Refusal
  | [], y => .next y
  | ch :: rest, y =>
    match sysStep ch y with
    | .next y' => sysRun rest y'
    | .fault f => .fault f
    | .refused r => .refused r

/-- One agent, alone, about to run `p` with the guard free and the interrupt not yet enabled. -/
def alone (s : State) (p : Proc) : System := ⟨s, none, [p], [], [], [], .unarmed⟩

end Sys2Proof.Driver
end

