-- ==== Sys2Proof/Safety.lean ====
section
/-! DEFINITION. The terms claims are stated in: the machine invariant, the launch premise of a driver (R60), the three environment assumptions of R8 and the fairness of R322. -/

namespace Sys2Proof.Machine

/-- The turnaround field of a transaction. -/
def Txn.ta : Txn → BitVec 2
  | .write _ _ ta _ => ta
  | .read _ _ ta => ta

/-- What holds in every state a run of a valid instantiation can reach. -/
structure State.Inv (s : State) : Prop where
  /-- R6 -/
  cfgValid : s.cfg.valid = true
  /-- R41: a transaction is in flight exactly while Busy -/
  busyIff : s.mdioPhase = .busy ↔ s.mdioTxn ≠ none
  /-- R153: while Armed the stored command has the read form -/
  armedForm : s.mdioPhase = .armed → s.cfg.readForm s.mdioCmd = true
  /-- R151, R153: while a transaction is in flight there is no read result -/
  busyNoResult : s.mdioPhase = .busy → s.mdioRvalid = false
  /-- R114: a transaction carries the turnaround pattern -/
  txnTa : ∀ t, s.mdioTxn = some t → t.ta = s.cfg.turnaround
  /-- R31 -/
  rxLenBounds : s.rxPhase = .full → crcBytes ≤ s.rxLen.toNat ∧ s.rxLen.toNat ≤ s.cfg.rxBuf.bytes
  /-- R220: every octet of the staged frame is in the buffer -/
  rxHeld : s.rxPhase = .full → ∀ i, i < s.rxLen.toNat → s.rxBuf.get? i ≠ none
  rxWf : s.rxBuf.wf
  rxBelow : s.rxBuf.below s.cfg.rxBuf.bytes
  txWf : s.txBuf.wf
  txBelow : s.txBuf.below s.cfg.txBuf.bytes
  /-- R253: what is being sent has a legal length -/
  txLenBounds : s.txPhase = .sending → 1 ≤ s.txLen.toNat ∧ s.txLen.toNat ≤ s.cfg.txBuf.bytes
  /-- R253: `tx_done` is 0 while sending -/
  txNotDone : s.txPhase = .sending → s.txDone = false

/-- The launch premise of a claim about the driver (R60, R351): everything else is any. -/
def State.LaunchPremise (s : State) : Prop := s.txPhase = .idle ∧ s.txDone = false

/-- `MDIO_LIVE` (R8): wherever the run from `s` goes, a transaction in flight has its completion still to
come. An assumption, never a fact of the model (R162). -/
def MdioLive (s : State) : Prop :=
  ∀ k t, Host.Core.run core k s = .next t → t.mdioPhase = .busy → ∃ a, Action.mdioEngine a ∈ t.agenda

/-- `TX_LIVE` (R8): the same for a transmission (R262). -/
def TxLive (s : State) : Prop :=
  ∀ k t, Host.Core.run core k s = .next t → t.txPhase = .sending → Action.txEngine ∈ t.agenda

/-- Does this choice let agent `i` issue a bus operation? -/
def IssuesBy (ch : Driver.Choice) (y : Driver.System) (i : Nat) : Prop :=
  (ch = .host i ∨ ∃ v, ch = .post i v) ∧ ∃ p, y.procs[i]? = some p ∧ p.operation y.block.cfg ≠ none

/-- `HOST_IN_ORDER` (R8, R81) of the run under schedule `l` from `y`: wherever the run goes, an agent issues
a bus operation only when its operation before has reached the block, a read included. An assumption on the
host, never a fact of the model: the choices `post` and `reach` break it. -/
def HostInOrder : List Driver.Choice → Driver.System → Prop
  | [], _ => True
  | ch :: rest, y =>
    (∀ i, IssuesBy ch y i → y.waits i = false) ∧ ∀ w, Driver.sysStep ch y = .next w → HostInOrder rest w

/-- Interrupt delivery is due: `irq_rx` is 1 and the interrupt is enabled (R322). -/
def InterruptDue (y : Driver.System) : Prop := y.block.irqRx = true ∧ y.interrupt = .enabled

/-- The run under the first `n` choices of an unending schedule. -/
def runFor (sched : Nat → Driver.Choice) (n : Nat) (y : Driver.System) : Host.Outcome Driver.System Fault Refusal :=
  Driver.sysRun ((List.range n).map sched) y

/-- The fairness of interrupt delivery (R322, D21; R380 lists it beside `MDIO_LIVE` and `TX_LIVE`): wherever
the run under the unending schedule has delivery due, the handler is invoked later, unless the line falls or
the interrupt is disabled first. An assumption, never a fact of the model. -/
def DeliveryFair (sched : Nat → Driver.Choice) (y : Driver.System) : Prop :=
  ∀ n w, runFor sched n y = .next w → InterruptDue w →
    ∃ m, n ≤ m ∧ ((∃ allocated, sched m = .invoke allocated) ∨ ∃ w', runFor sched m y = .next w' ∧ ¬InterruptDue w')

/-- A choice of agent 0's own: one of its lines, or an operation of its own reaching the block. -/
def OwnChoice (ch : Driver.Choice) : Prop := ch = .host 0 ∨ (∃ v, ch = .post 0 v) ∨ ∃ n, ch = .reach n

/-- Whatever `HOST_IN_ORDER` run of agent 0 alone from `y0` is finished, with nothing outstanding, is at `y`. -/
def EndsAt (y0 y : Driver.System) : Prop :=
  ∀ l z, (∀ ch ∈ l, OwnChoice ch) → HostInOrder l y0 → Driver.sysRun l y0 = .next z →
    (∃ r, z.procs = [.done r]) → z.outstanding = [] → z = y

end Sys2Proof.Machine
end

