-- ==== Sys2Proof/Certificates/Slice0/Obligations.lean ====
section
/-! DEFINITION. The statements for the provers: encoding, one rule of the spec after another, and the rules about the whole machine. -/

open Sys2Proof Sys2Proof.Machine Sys2Proof.Driver

/-- How often `irq_rx` rises in a history. -/
def Sys2Proof.Machine.rxRises (l : List Event) : Nat := l.countP fun e => e == .irqRx true

/-- How often `irq_tx` rises in a history. -/
def Sys2Proof.Machine.txRises (l : List Event) : Nat := l.countP fun e => e == .irqTx true

/-- How many frames a history has staged. -/
def Sys2Proof.Machine.framesStaged (h : List Event) : Nat := h.countP fun e => match e with | .frameStaged _ => true | _ => false

/-- How many frames a history has sent. -/
def Sys2Proof.Machine.framesSent (h : List Event) : Nat := h.countP fun e => match e with | .frameSent _ => true | _ => false

/-! ## Encoding -/

/-- R112, R113, R117, R125: words written out from the encodings decode to what they stand for, under E0
(the numbers of E0 are the spec's own choice, log 17). -/
def Obligations.SampleWordsDecode : Prop :=
  -- 0101 00111 00101 10 0001001000110100: Write(phy 7, reg 5, ta 2, data 0x1234)
  decode Config.e0 (.memWrite 0x40000008 4 0b01010011100101100001001000110100) = .ok (.wrMdioCmdW 7 5 0x1234)
  -- 0000000000000000 10 10001 00111 0110: Read(phy 7, reg 17, ta 2)
  ∧ decode Config.e0 (.memWrite 0x40000008 4 0b00000000000000001010001001110110) = .ok (.wrMdioCmdR 7 17)
  ∧ decode Config.e0 (.memWrite 0x40000000 4 3) = .ok .wrMdioCtrlStart
  ∧ decode Config.e0 (.memRead 0x400117FC 4) = .ok (.rdRxbuf 511)
  ∧ decode Config.e0 (.memWrite 0x40010008 4 1) = .ok .wrRxAck1
  ∧ decode Config.e0 (.memWrite 0x40010014 4 1) = .ok .wrTxSend1
  ∧ decode Config.e0 (.memWrite 0x40010020 4 0x5E102030) = .ok (.wrMacAddrLo 0x5E102030)

/-- R110, R125: the bus operation that carries a well-formed instruction decodes to it, under every valid
instantiation. Where MDIO_STAT and MDIO_DATA are one read word (R25), its read is the read of MDIO_STAT:
the statement SharedReadWord covers that form. -/
def Obligations.DecodeOfEncode : Prop :=
  ∀ (c : Config) (i : Instr), c.valid = true → i.wellFormed c = true →
    (c.mdioStat = c.mdioData → i ≠ .rdMdioData) → decode c (encode c i) = .ok i

/-- R75, R110: every bus operation with a meaning is the one that carries the instruction it decodes to, so
no bit of address, width, direction or written data is dropped, and the instruction is well-formed. -/
def Obligations.EncodeOfDecode : Prop :=
  ∀ (c : Config) (op : BusOp) (i : Instr), c.valid = true → decode c op = .ok i →
    i.wellFormed c = true ∧ encode c i = op

/-- R25, R27, R29: where MDIO_STAT and MDIO_DATA are one read word, reading it is one operation, whichever
register it is taken for. The sharing is the spec's decision D4 (log 12). -/
def Obligations.SharedReadWord : Prop :=
  ∀ s : State, s.cfg.valid = true → s.cfg.mdioStat = s.cfg.mdioData →
    decode s.cfg (encode s.cfg .rdMdioData) = .ok .rdMdioStat
      ∧ exec .rdMdioData s = exec .rdMdioStat s

/-- R114: no word is in both forms. The forms are the spec's decision D10. -/
def Obligations.CommandFormsExclusive : Prop :=
  ∀ (c : Config) (w : Word), c.valid = true → ¬(c.writeForm w = true ∧ c.readForm w = true)

/-- R112, R113, R115: for a register address the driver may use, the assembled words are the words of the
two layouts, with the driver's PHY address. The command in the high half is the spec's decision D9. -/
def Obligations.AssembledCommandWords : Prop :=
  ∀ (c : Config) (r : Nat) (v : Half), r < 32 →
    writeCommandWord c r v = c.writeWord c.fixedPhyAddr (BitVec.ofNat 5 r) v
      ∧ readCommandWord c r = c.readWord c.fixedPhyAddr (BitVec.ofNat 5 r)

/-! ## Refusals -/

/-- R72, R323: an access of the block that is not an aligned 32-bit access is refused, whatever it selects. Refusing is the spec's decision D29, for the buffers D14. -/
def Obligations.BadWidthOrAlignmentRefused : Prop :=
  ∀ (s : State) (op : BusOp), s.cfg.window? op.addr ≠ none → (op.width ≠ 4 ∨ op.addr % 4 ≠ 0) →
    hostOp op s = .refused (.badWidthOrAlignment op.addr op.width)

/-- R140: an aligned 32-bit access to an offset where no register and no buffer word lies is refused. Refusing is the spec's decision D29. -/
def Obligations.UnmappedRefused : Prop :=
  ∀ (s : State) (op : BusOp) (w : Window) (off : Nat),
    s.cfg.window? op.addr = some (w, off) → op.width = 4 → op.addr % 4 = 0 →
    (∀ r, s.cfg.loc r ≠ ⟨w, off⟩) →
    ¬(s.cfg.rxBuf.win = w ∧ s.cfg.rxBuf.off ≤ off ∧ off < s.cfg.rxBuf.off + s.cfg.rxBuf.bytes) →
    ¬(s.cfg.txBuf.win = w ∧ s.cfg.txBuf.off ≤ off ∧ off < s.cfg.txBuf.off + s.cfg.txBuf.bytes) →
    hostOp op s = .refused (.unmapped w off op.dir)

/-- R141: a register is not accessed in a direction it does not admit, unless one of the other direction
lies at its place: the access is refused. The buffers are refused the same way. Refusing is the spec's decision D29. -/
def Obligations.WrongDirectionRefused : Prop :=
  ∀ (s : State) (v : Word), s.cfg.valid = true →
    (∀ r, r.admits .read = false → (∀ r', s.cfg.loc r' = s.cfg.loc r → r'.admits .read = false) →
      ∃ t, s.cfg.targetLoc t = s.cfg.loc r ∧ hostOp (readOf s.cfg (.reg r)) s = .refused (.wrongDirection t .read))
    ∧ (∀ r, r.admits .write = false → (∀ r', s.cfg.loc r' = s.cfg.loc r → r'.admits .write = false) →
      ∃ t, s.cfg.targetLoc t = s.cfg.loc r
        ∧ hostOp (writeOf s.cfg (.reg r) v) s = .refused (.wrongDirection t .write))
    ∧ (∀ k, k < s.cfg.rxBuf.bytes / 4 →
      hostOp (writeOf s.cfg (.rxWord k) v) s = .refused (.wrongDirection (.rxWord k) .write))
    ∧ (∀ k, k < s.cfg.txBuf.bytes / 4 →
      hostOp (readOf s.cfg (.txWord k)) s = .refused (.wrongDirection (.txWord k) .read))

/-- R142: a strobe register written with another value is refused, in every state. Refusing is the spec's decision D29. -/
def Obligations.BadStrobeRefused : Prop :=
  ∀ (s : State) (v : Word), s.cfg.valid = true →
    (v ≠ 1 → hostOp (writeOf s.cfg (.reg .rxAck) v) s = .refused (.badStrobeValue v)
      ∧ hostOp (writeOf s.cfg (.reg .txSend) v) s = .refused (.badStrobeValue v))
    ∧ (v ≠ s.cfg.startStrobe → hostOp (writeOf s.cfg (.reg .mdioCtrl) v) s = .refused (.badStrobeValue v))

/-- R143: a word in neither form written to MDIO_CMD is refused, in every state. Refusing is the spec's decision D10. -/
def Obligations.MalformedCommandRefused : Prop :=
  ∀ (s : State) (w : Word), s.cfg.valid = true → s.cfg.writeForm w = false → s.cfg.readForm w = false →
    hostOp (writeOf s.cfg (.reg .mdioCmd) w) s = .refused (.malformedMdioCommand w)

/-! ## The MDIO registers and engine -/

/-- R150: RD MDIO_STAT answers, shows the in-progress flag, and changes nothing of the block; the other
bits are the draw (in a word of its own; for the shared word R27 gives bits [15:0]). The draw is the model's free value (log 4). -/
def Obligations.ReadMdioStat : Prop :=
  ∀ s : State, s.cfg.valid = true →
    decode s.cfg (readOf s.cfg (.reg .mdioStat)) = .ok .rdMdioStat
      ∧ ∃ v : Word, exec .rdMdioStat s = .next { s with returned := some v, draws := s.draws + 1 }
        ∧ v.getLsbD s.cfg.busyBit.val = decide (s.mdioPhase = .busy)
        ∧ (s.cfg.mdioStat ≠ s.cfg.mdioData → ∀ j, j ≠ s.cfg.busyBit.val →
            v.getLsbD j = (Config.freeWord s.draws).getLsbD j)

/-- R151, R117: the write of a write-form word starts the write it names; a fault while a transaction is in
flight. Nothing else changes. That the command write is the trigger is the spec's decision D9. -/
def Obligations.WriteCommandStartsWrite : Prop :=
  ∀ (s : State) (w : Word), s.cfg.valid = true → s.cfg.writeForm w = true →
    let i : Instr := .wrMdioCmdW (w.extractLsb' 23 5) (w.extractLsb' 18 5) (w.extractLsb' 0 16)
    decode s.cfg (writeOf s.cfg (.reg .mdioCmd) w) = .ok i
      ∧ (s.mdioPhase = .busy → exec i s = .fault (.mdioAccessWhileBusy w))
      ∧ (s.mdioPhase ≠ .busy → exec i s = .next { s with
          mdioCmd := w
          mdioTxn := some (.write (w.extractLsb' 23 5) (w.extractLsb' 18 5) (w.extractLsb' 16 2) (w.extractLsb' 0 16))
          mdioRvalid := false
          mdioPhase := .busy })

/-- R151: the same for the operation with any operands: the stored word has the fields it was written with. That the command write is the trigger is the spec's decision D9. -/
def Obligations.WriteCommandCompletes : Prop :=
  ∀ (s : State) (phy reg : BitVec 5) (data : Half), s.mdioPhase ≠ .busy →
    ∃ w : Word, s.cfg.writeForm w = true ∧ w.extractLsb' 23 5 = phy ∧ w.extractLsb' 18 5 = reg
      ∧ w.extractLsb' 0 16 = data
      ∧ exec (.wrMdioCmdW phy reg data) s = .next { s with
          mdioCmd := w, mdioTxn := some (.write phy reg s.cfg.turnaround data), mdioRvalid := false
          mdioPhase := .busy }

/-- R152: the write of a read-form word arms the read; a fault while a transaction is in flight. Nothing
else changes. The phase Armed is the spec's decision D10. -/
def Obligations.ReadCommandArms : Prop :=
  ∀ (s : State) (w : Word), s.cfg.valid = true → s.cfg.readForm w = true →
    let i : Instr := .wrMdioCmdR (w.extractLsb' 4 5) (w.extractLsb' 9 5)
    decode s.cfg (writeOf s.cfg (.reg .mdioCmd) w) = .ok i
      ∧ (s.mdioPhase = .busy → exec i s = .fault (.mdioAccessWhileBusy w))
      ∧ (s.mdioPhase ≠ .busy → exec i s = .next { s with mdioCmd := w, mdioPhase := .armed })

/-- R152: the same for the operation with any operands. The phase Armed is the spec's decision D10. -/
def Obligations.ReadCommandCompletes : Prop :=
  ∀ (s : State) (phy reg : BitVec 5), s.mdioPhase ≠ .busy →
    ∃ w : Word, s.cfg.readForm w = true ∧ w.extractLsb' 4 5 = phy ∧ w.extractLsb' 9 5 = reg
      ∧ exec (.wrMdioCmdR phy reg) s = .next { s with mdioCmd := w, mdioPhase := .armed }

/-- R153: the start strobe starts the read the stored command names; it faults in the other two phases.
Nothing else changes. The spec's decisions D6 and D10. -/
def Obligations.StartStrobe : Prop :=
  ∀ s : State, s.cfg.valid = true →
    decode s.cfg (writeOf s.cfg (.reg .mdioCtrl) s.cfg.startStrobe) = .ok .wrMdioCtrlStart
      ∧ (s.mdioPhase = .busy → exec .wrMdioCtrlStart s = .fault (.mdioAccessWhileBusy s.cfg.startStrobe))
      ∧ (s.mdioPhase = .idle → exec .wrMdioCtrlStart s = .fault .mdioStrobeNotArmed)
      ∧ (s.mdioPhase = .armed → exec .wrMdioCtrlStart s = .next { s with
          mdioTxn := some (.read (s.mdioCmd.extractLsb' 4 5) (s.mdioCmd.extractLsb' 9 5) (s.mdioCmd.extractLsb' 14 2))
          mdioRvalid := false
          mdioPhase := .busy })

/-- R154: RD MDIO_DATA answers the read result where there is one, else a draw, and changes nothing of the
block (in a word of its own; for the shared word R29 gives the in-progress bit). The spec's decision D12; the draw is the model's free value (log 4). -/
def Obligations.ReadMdioData : Prop :=
  ∀ s : State, s.cfg.valid = true →
    (s.cfg.mdioStat ≠ s.cfg.mdioData → decode s.cfg (readOf s.cfg (.reg .mdioData)) = .ok .rdMdioData)
      ∧ ∃ v : Word, exec .rdMdioData s = .next { s with returned := some v, draws := s.draws + 1 }
        ∧ (s.mdioRvalid = true ∧ s.mdioPhase ≠ .busy → v.extractLsb' 0 16 = s.mdioRdata)
        ∧ (s.cfg.mdioStat ≠ s.cfg.mdioData → ∀ j, 16 ≤ j → v.getLsbD j = (Config.freeWord s.draws).getLsbD j)
        ∧ (s.cfg.mdioStat ≠ s.cfg.mdioData → (s.mdioRvalid = false ∨ s.mdioPhase = .busy) →
            v = Config.freeWord s.draws)

/-- R142, R143, R155, R323: while a transaction is in flight no write of MDIO_CMD or MDIO_CTRL has a next state: a
documented data word faults with that word, any other is refused. The fault is the spec's decision D29. -/
def Obligations.MdioWritesFaultWhileBusy : Prop :=
  ∀ (s : State) (v : Word), s.cfg.valid = true → s.mdioPhase = .busy →
    (hostOp (writeOf s.cfg (.reg .mdioCmd) v) s =
      if s.cfg.writeForm v = true ∨ s.cfg.readForm v = true then .fault (.mdioAccessWhileBusy v)
      else .refused (.malformedMdioCommand v))
    ∧ (hostOp (writeOf s.cfg (.reg .mdioCtrl) v) s =
      if v = s.cfg.startStrobe then .fault (.mdioAccessWhileBusy v) else .refused (.badStrobeValue v))

/-- R160: the MDIO engine completes a write: the PHY records it, the event is recorded, the phase is Idle. One step at the end is the spec's decision D11. -/
def Obligations.WriteTransactionCompletes : Prop :=
  ∀ (s : State) (rest : List Action) (answer : Half) (phy reg : BitVec 5) (ta : BitVec 2) (data : Half),
    s.agenda = .mdioEngine answer :: rest → s.mdioPhase = .busy → s.mdioTxn = some (.write phy reg ta data) →
    step s = .next { s with
        agenda := rest, mdioTxn := none, mdioPhase := .idle
        history := s.history ++ [.mdioWriteTxn phy reg ta data] }
      ∧ phyWrites (s.history ++ [.mdioWriteTxn phy reg ta data]) = phyWrites s.history ++ [(phy, reg, data)]

/-- R161: the MDIO engine completes a read with the PHY's answer. One step at the end is the spec's decision D11; the answer is any value (D35, log 14). -/
def Obligations.ReadTransactionCompletes : Prop :=
  ∀ (s : State) (rest : List Action) (answer : Half) (phy reg : BitVec 5) (ta : BitVec 2),
    s.agenda = .mdioEngine answer :: rest → s.mdioPhase = .busy → s.mdioTxn = some (.read phy reg ta) →
    step s = .next { s with
        agenda := rest, mdioTxn := none, mdioPhase := .idle, mdioRdata := answer, mdioRvalid := true
        history := s.history ++ [.mdioReadTxn phy reg ta answer] }
      ∧ phyWrites (s.history ++ [.mdioReadTxn phy reg ta answer]) = phyWrites s.history

/-! ## The receive slot -/

/-- R210: RD RX_AVAIL answers 1 or 0 and changes nothing of the block; a slot that is full stays full until
the host acknowledges. (The value 1, not only non-zero, is the spec's decision D16.) -/
def Obligations.ReadRxAvail : Prop :=
  ∀ s : State, s.cfg.valid = true →
    decode s.cfg (readOf s.cfg (.reg .rxAvail)) = .ok .rdRxAvail
      ∧ exec .rdRxAvail s = .next { s with returned := some (if s.rxPhase = .full then 1 else 0) }
      ∧ (s.rxPhase = .full → ∀ a t, act a s = .next t →
          t.rxPhase = .full ∨ a = .host (writeOf s.cfg (.reg .rxAck) 1))

/-- R211: RD RX_LEN answers the length while Full, a draw while Empty, and changes nothing of the block. The draw is the model's free value (log 4). -/
def Obligations.ReadRxLen : Prop :=
  ∀ s : State, s.cfg.valid = true →
    decode s.cfg (readOf s.cfg (.reg .rxLen)) = .ok .rdRxLen
      ∧ exec .rdRxLen s = .next { s with
          returned := some (if s.rxPhase = .full then s.rxLen else Config.freeWord s.draws)
          draws := s.draws + 1 }

/-- R212, R40, R71: RD RXBUF[k] answers octet 4k+j in byte lane j where the octet is defined, the draw's
lane elsewhere, and changes nothing of the block. The byte order is the spec's decision D13; the draw is the model's free value (log 4). -/
def Obligations.ReadRxBuf : Prop :=
  ∀ (s : State) (k : Nat), s.cfg.valid = true → k < s.cfg.rxBuf.bytes / 4 →
    decode s.cfg (.memRead (s.cfg.base s.cfg.rxBuf.win + s.cfg.rxBuf.off + 4 * k) 4) = .ok (.rdRxbuf k)
      ∧ ∃ v : Word, exec (.rdRxbuf k) s = .next { s with returned := some v, draws := s.draws + 1 }
        ∧ ∀ j, j < 4 →
          (∀ b, s.rxPhase = .full → 4 * k + j < s.rxLen.toNat → s.rxBuf.get? (4 * k + j) = some b →
            v.extractLsb' (8 * j) 8 = b)
          ∧ (s.rxPhase = .empty ∨ s.rxLen.toNat ≤ 4 * k + j →
            v.extractLsb' (8 * j) 8 = (Config.freeWord s.draws).extractLsb' (8 * j) 8)

/-- R213: the acknowledge releases a staged frame; with none staged it follows ACK_EMPTY. Nothing else
changes but the line, whose fall is an event. The empty case is the spec's decision D18; the line is D21, the place
of its event log 8. -/
def Obligations.Acknowledge : Prop :=
  ∀ s : State, s.cfg.valid = true →
    decode s.cfg (writeOf s.cfg (.reg .rxAck) 1) = .ok .wrRxAck1
      ∧ (s.rxPhase = .full → exec .wrRxAck1 s = .next { s with
          rxPhase := .empty, history := s.history ++ [.irqRx false, .frameReleased] })
      ∧ (s.rxPhase = .empty → s.cfg.ackEmpty = .ignore → exec .wrRxAck1 s = .next s)
      ∧ (s.rxPhase = .empty → s.cfg.ackEmpty = .fault → exec .wrRxAck1 s = .fault .ackWhileEmpty)

/-- R220, R31: a frame within the bounds is staged in the empty slot: its octets and its length are there
to be read, the flag and the line rise, and nothing else changes. The bounds are the spec's decision D17, the one step D39; the place of the line's event is log 8. -/
def Obligations.FrameIsStaged : Prop :=
  ∀ (s : State) (f : List Byte), s.cfg.valid = true → s.rxPhase = .empty →
    4 ≤ f.length → f.length ≤ s.cfg.rxBuf.bytes →
    ∃ b : Memory, act (.wireFrame f) s = .next { s with
        rxBuf := b, rxLen := BitVec.ofNat 32 f.length, rxPhase := .full
        history := s.history ++ [.irqRx true, .frameStaged f] }
      ∧ (BitVec.ofNat 32 f.length).toNat = f.length ∧ b.wf ∧ ∀ i, b.get? i = f[i]?

/-- R222: a frame that meets a full slot is dropped; it is counted or not; the staged frame is untouched. The spec's decision D19; which of the two is the model's free choice (log 15). -/
def Obligations.FrameIsDropped : Prop :=
  ∀ (s : State) (f : List Byte), s.rxPhase = .full → 4 ≤ f.length → f.length ≤ s.cfg.rxBuf.bytes →
    act (.wireFrame f) s = .next { s with
        draws := s.draws + 1, history := s.history ++ [.frameDropped] }
      ∨ act (.wireFrame f) s = .next { s with
        draws := s.draws + 1, rxErrCnt := s.rxErrCnt + 1
        history := s.history ++ [.frameDropped, .badFrameCounted] }

/-- R295: a bad frame is counted modulo 2^32 in either phase, and nothing else changes. The spec's decisions D19 and D27. -/
def Obligations.BadFrameIsCounted : Prop :=
  ∀ s : State, ∃ n : Word, n.toNat = (s.rxErrCnt.toNat + 1) % 2 ^ 32
    ∧ act .badFrame s = .next { s with rxErrCnt := n, history := s.history ++ [.badFrameCounted] }

/-! ## The transmit slot -/

/-- R250: RD TX_BUSY answers 1 or 0 and changes nothing of the block; a flag that reads 0 stays 0 until a
host writes the send strobe. (The value 1 and this last part are the spec's decisions D22 and D40.) -/
def Obligations.ReadTxBusy : Prop :=
  ∀ s : State, s.cfg.valid = true →
    decode s.cfg (readOf s.cfg (.reg .txBusy)) = .ok .rdTxBusy
      ∧ exec .rdTxBusy s = .next { s with returned := some (if s.txPhase = .sending then 1 else 0) }
      ∧ (s.txPhase = .idle → ∀ a t, act a s = .next t →
          t.txPhase = .idle ∨ a = .host (writeOf s.cfg (.reg .txSend) 1))

/-- R251, R40, R71: WR TXBUF[k] stores byte lane j at octet 4k+j and changes no other octet and nothing
else; it faults while sending. The byte order is the spec's decision D13. -/
def Obligations.WriteTxBuf : Prop :=
  ∀ (s : State) (k : Nat) (v : Word), s.cfg.valid = true → k < s.cfg.txBuf.bytes / 4 →
    decode s.cfg (.memWrite (s.cfg.base s.cfg.txBuf.win + s.cfg.txBuf.off + 4 * k) 4 v) = .ok (.wrTxbuf k v)
      ∧ (s.txPhase = .sending → exec (.wrTxbuf k v) s = .fault (.txWriteWhileBusy (some k)))
      ∧ (s.txPhase = .idle → ∃ b : Memory, exec (.wrTxbuf k v) s = .next { s with txBuf := b }
        ∧ (∀ j, j < 4 → b.get? (4 * k + j) = some (v.extractLsb' (8 * j) 8))
        ∧ ∀ a, a < 4 * k ∨ 4 * k + 4 ≤ a → b.get? a = s.txBuf.get? a)

/-- R252: WR TX_LEN stores any value; it faults while sending. Nothing else changes. -/
def Obligations.WriteTxLen : Prop :=
  ∀ (s : State) (n : Word), s.cfg.valid = true →
    decode s.cfg (writeOf s.cfg (.reg .txLen) n) = .ok (.wrTxLen n)
      ∧ (s.txPhase = .sending → exec (.wrTxLen n) s = .fault (.txWriteWhileBusy none))
      ∧ (s.txPhase = .idle → exec (.wrTxLen n) s = .next { s with txLen := n })

/-- R253: the send strobe hands the slot over; it faults while sending and on a length of zero or beyond
the buffer, in this order. Nothing else changes but the line, whose fall is an event. The spec's
decisions D23 and D24; the line's event is log 8. -/
def Obligations.SendStrobe : Prop :=
  ∀ s : State, s.cfg.valid = true →
    decode s.cfg (writeOf s.cfg (.reg .txSend) 1) = .ok .wrTxSend1
      ∧ (s.txPhase = .sending → exec .wrTxSend1 s = .fault .txSendWhileBusy)
      ∧ (s.txPhase = .idle → s.txLen.toNat = 0 ∨ s.cfg.txBuf.bytes < s.txLen.toNat →
          exec .wrTxSend1 s = .fault (.txBadLength s.txLen))
      ∧ (s.txPhase = .idle → 1 ≤ s.txLen.toNat → s.txLen.toNat ≤ s.cfg.txBuf.bytes →
          exec .wrTxSend1 s = .next { s with
            txDone := false, txPhase := .sending
            history := s.history ++ (if s.txDone = true then [.irqTx false] else []) })

/-- R254: RD TX_DONE answers the flag and changes nothing of the block, the flag included. The spec's decision D25. -/
def Obligations.ReadTxDone : Prop :=
  ∀ s : State, s.cfg.valid = true →
    decode s.cfg (readOf s.cfg (.reg .txDone)) = .ok .rdTxDone
      ∧ exec .rdTxDone s = .next { s with returned := some (if s.txDone = true then 1 else 0) }

/-- R261: the transmit engine completes: the frame in the slot is sent, the flags change, the slot keeps
its contents, and nothing else changes but the line, whose rise is an event. The spec's decision D23; the place of the
line's event is log 8. -/
def Obligations.TransmissionCompletes : Prop :=
  ∀ (s : State) (rest : List Action), s.agenda = .txEngine :: rest → s.txPhase = .sending →
    ∃ f : List Byte, step s = .next { s with
        agenda := rest, txDone := true, txPhase := .idle
        history := s.history ++ [.frameSent f] ++ (if s.txDone = true then [] else [.irqTx true]) }
      ∧ f.length = s.txLen.toNat
      ∧ ∀ i b, i < s.txLen.toNat → s.txBuf.get? i = some b → f[i]? = some b

/-! ## The MAC address registers and the error counter -/

/-- R290 to R293: each of the two registers answers what it holds and takes what is written; a read or
write changes nothing else. The spec's decision D26. -/
def Obligations.MacAddressRegisters : Prop :=
  ∀ (s : State) (v : Word), s.cfg.valid = true →
    (decode s.cfg (readOf s.cfg (.reg .macHi)) = .ok .rdMacAddrHi
      ∧ exec .rdMacAddrHi s = .next { s with returned := some s.macHi })
    ∧ (decode s.cfg (writeOf s.cfg (.reg .macHi) v) = .ok (.wrMacAddrHi v)
      ∧ exec (.wrMacAddrHi v) s = .next { s with macHi := v })
    ∧ (decode s.cfg (readOf s.cfg (.reg .macLo)) = .ok .rdMacAddrLo
      ∧ exec .rdMacAddrLo s = .next { s with returned := some s.macLo })
    ∧ (decode s.cfg (writeOf s.cfg (.reg .macLo) v) = .ok (.wrMacAddrLo v)
      ∧ exec (.wrMacAddrLo v) s = .next { s with macLo := v })

/-- R37, R38: the octets of the MAC address stand in the two registers as the rules lay them out, whatever
the meaningless half of MAC_ADDR_HI holds. The layout is the spec's decision D26. -/
def Obligations.MacAddressOctets : Prop :=
  ∀ (s : State) (u : Half) (o0 o1 o2 o3 o4 o5 : Byte),
    ∃ t t', exec (.wrMacAddrHi (u ++ o0 ++ o1)) s = .next t ∧ exec (.wrMacAddrLo (o2 ++ o3 ++ o4 ++ o5)) t = .next t'
      ∧ t'.macAddress = [o0, o1, o2, o3, o4, o5]

/-- R294: RD RX_ERR_CNT answers the count and changes nothing of the block, the count included. The spec's decision D27. -/
def Obligations.ReadRxErrCnt : Prop :=
  ∀ s : State, s.cfg.valid = true →
    decode s.cfg (readOf s.cfg (.reg .rxErrCnt)) = .ok .rdRxErrCnt
      ∧ exec .rdRxErrCnt s = .next { s with returned := some s.rxErrCnt }

/-! ## The whole machine -/

/-- R80, R75: when the next step of the order is a bus operation that decodes to an instruction, the step
is that instruction's, with the operation taken off the agenda. The agenda is the model's (log 2); the total order is the spec's decision D30. -/
def Obligations.StepRunsDecoded : Prop :=
  ∀ (s : State) (op : BusOp) (rest : List Action) (i : Instr),
    s.agenda = .host op :: rest → decode s.cfg op = .ok i → step s = exec i { s with agenda := rest }

/-- R60, R350: the values reset leaves, under any instantiation. That `State.reset` is the one of E0 is the
model's choice (log 1). The values are the spec's decision D31. -/
def Obligations.ResetValues : Prop :=
  State.reset = State.resetWith Config.e0 ∧ ∀ c : Config,
    let s := State.resetWith c
    s.mdioPhase = .idle ∧ s.mdioTxn = none ∧ s.mdioRvalid = false ∧ s.rxPhase = .empty ∧ s.txPhase = .idle
      ∧ s.txDone = false ∧ s.rxErrCnt = 0 ∧ s.irqRx = false ∧ s.irqTx = false ∧ s.cfg = c ∧ s.LaunchPremise

/-- The invariant holds after reset of every valid instantiation. -/
def Obligations.ResetMeetsInvariant : Prop :=
  ∀ c : Config, c.valid = true → (State.resetWith c).Inv

/-- Every step keeps the invariant: the buffers' canonical form and bounds, the phase and the transaction
in flight, the armed command's form, the staged and the sent length. -/
def Obligations.StepKeepsInvariant : Prop :=
  ∀ s t : State, s.Inv → step s = .next t → t.Inv

/-- R21, R6: no step changes the parameters. -/
def Obligations.StepKeepsParameters : Prop :=
  ∀ s t : State, step s = .next t → t.cfg = s.cfg

/-- R41: the MDIO phase changes only by the four transitions of the rule, each by its own operation or step. The phases are derived by the spec from the driver's sequences (D10). -/
def Obligations.MdioPhaseTransitions : Prop :=
  ∀ (s t : State) (a : Action), act a s = .next t → t.mdioPhase ≠ s.mdioPhase →
    (s.mdioPhase ≠ .busy ∧ t.mdioPhase = .busy ∧ ∃ op phy reg data, a = .host op
        ∧ decode s.cfg op = .ok (.wrMdioCmdW phy reg data))
      ∨ (s.mdioPhase = .armed ∧ t.mdioPhase = .busy ∧ ∃ op, a = .host op ∧ decode s.cfg op = .ok .wrMdioCtrlStart)
      ∨ (s.mdioPhase = .idle ∧ t.mdioPhase = .armed ∧ ∃ op phy reg, a = .host op
        ∧ decode s.cfg op = .ok (.wrMdioCmdR phy reg))
      ∨ (s.mdioPhase = .busy ∧ t.mdioPhase = .idle ∧ ∃ answer, a = .mdioEngine answer)

/-- R42: the receive slot is filled by the wire alone and emptied by the acknowledge alone; while it is
empty any frame may be staged; while it is full exactly one frame is staged: none is staged beside it. (What counts as a frame, its
bounds, is the spec's decision D17.) -/
def Obligations.RxPhaseTransitions : Prop :=
  ∀ s : State, s.cfg.valid = true →
    (∀ a t, act a s = .next t → t.rxPhase ≠ s.rxPhase →
      (s.rxPhase = .empty ∧ t.rxPhase = .full ∧ ∃ f, a = .wireFrame f)
        ∨ (s.rxPhase = .full ∧ t.rxPhase = .empty ∧ a = .host (writeOf s.cfg (.reg .rxAck) 1)))
    ∧ (s.rxPhase = .empty → ∀ f : List Byte, 4 ≤ f.length → f.length ≤ s.cfg.rxBuf.bytes →
      ∃ t l, act (.wireFrame f) s = .next t ∧ t.rxPhase = .full ∧ t.history = s.history ++ l
        ∧ framesStaged l = 1 ∧ .frameStaged f ∈ l)
    ∧ (s.rxPhase = .full → ∃ t, act (.host (writeOf s.cfg (.reg .rxAck) 1)) s = .next t ∧ t.rxPhase = .empty)
    ∧ (s.rxPhase = .full → ∀ a t, act a s = .next t → framesStaged t.history = framesStaged s.history)

/-- R43, R45: the transmit slot is handed over by the send strobe alone and comes back by the transmit
engine alone, and the same two are all that change TX_DONE. The spec's decisions D22, D25 and D40. -/
def Obligations.TxPhaseTransitions : Prop :=
  ∀ (s t : State) (a : Action), act a s = .next t → t.txPhase ≠ s.txPhase ∨ t.txDone ≠ s.txDone →
    (s.txPhase = .idle ∧ t.txPhase = .sending ∧ t.txDone = false
        ∧ ∃ op, a = .host op ∧ decode s.cfg op = .ok .wrTxSend1)
      ∨ (s.txPhase = .sending ∧ t.txPhase = .idle ∧ t.txDone = true ∧ a = .txEngine)

/-- R234, R212: the receive slot has one owner. While Empty the engine may write it at any step and the host
reads draws; while Full no step of any agent changes its octets or its length and the host reads them; it
passes to the host when a frame is staged and back at the acknowledge. (Which byte lane holds which octet is
the spec's decision D13, log 18; the bounds of a frame are D17; the draw is the model's free value, log 4.) -/
def Obligations.ReceiveSlotOwnership : Prop :=
  ∀ s : State, s.cfg.valid = true →
    (s.rxPhase = .empty →
      (∀ f : List Byte, 4 ≤ f.length → f.length ≤ s.cfg.rxBuf.bytes →
        ∃ t, act (.wireFrame f) s = .next t ∧ t.rxPhase = .full)
      ∧ exec .rdRxLen s = .next { s with returned := some (Config.freeWord s.draws), draws := s.draws + 1 }
      ∧ ∀ k, k < s.cfg.rxBuf.bytes / 4 →
        exec (.rdRxbuf k) s = .next { s with returned := some (Config.freeWord s.draws), draws := s.draws + 1 })
    ∧ (s.rxPhase = .full →
      (∀ a t, act a s = .next t → t.rxBuf = s.rxBuf ∧ t.rxLen = s.rxLen)
      ∧ exec .rdRxLen s = .next { s with returned := some s.rxLen, draws := s.draws + 1 }
      ∧ (∀ k j b, k < s.cfg.rxBuf.bytes / 4 → j < 4 → 4 * k + j < s.rxLen.toNat → s.rxBuf.get? (4 * k + j) = some b →
        ∃ v : Word, exec (.rdRxbuf k) s = .next { s with returned := some v, draws := s.draws + 1 }
          ∧ v.extractLsb' (8 * j) 8 = b)
      ∧ ∃ t, act (.host (writeOf s.cfg (.reg .rxAck) 1)) s = .next t ∧ t.rxPhase = .empty)

/-- R255: the transmit slot has one owner. While Idle the host's writes of TXBUF and TX_LEN answer and leave
it Idle, and no step but a host's changes its octets or its length; while Sending no step of any agent changes the slot's octets or its length, and the host's writes
of TXBUF, TX_LEN and TX_SEND fault; it passes to the hardware at the send strobe of a legal length and back
at the completion. (Which lengths are legal is the spec's decision D23.) -/
def Obligations.TransmitSlotOwnership : Prop :=
  ∀ s : State, s.cfg.valid = true →
    (s.txPhase = .idle →
      (∀ k v, k < s.cfg.txBuf.bytes / 4 → ∃ t, exec (.wrTxbuf k v) s = .next t ∧ t.txPhase = .idle)
      ∧ (∀ n, ∃ t, exec (.wrTxLen n) s = .next t ∧ t.txPhase = .idle)
      ∧ (∀ a t, (∀ op, a ≠ .host op) → act a s = .next t → t.txBuf = s.txBuf ∧ t.txLen = s.txLen)
      ∧ (1 ≤ s.txLen.toNat → s.txLen.toNat ≤ s.cfg.txBuf.bytes →
        ∃ t, exec .wrTxSend1 s = .next t ∧ t.txPhase = .sending))
    ∧ (s.txPhase = .sending →
      (∀ a t, act a s = .next t → t.txBuf = s.txBuf ∧ t.txLen = s.txLen)
      ∧ (∀ k v, k < s.cfg.txBuf.bytes / 4 → exec (.wrTxbuf k v) s = .fault (.txWriteWhileBusy (some k)))
      ∧ (∀ n, exec (.wrTxLen n) s = .fault (.txWriteWhileBusy none))
      ∧ exec .wrTxSend1 s = .fault .txSendWhileBusy
      ∧ ∃ t, act .txEngine s = .next t ∧ t.txPhase = .idle)

/-- R74, R311: every read of the table answers, never faults, and changes nothing but the value returned
and the model's count of draws. For the registers that are not polled this is the spec's decision D28. -/
def Obligations.ReadsAreHarmless : Prop :=
  ∀ (s : State) (i : Instr), (encode s.cfg i).dir = .read → i.wellFormed s.cfg = true →
    ∃ v n, exec i s = .next { s with returned := some v, draws := n }

/-- R74: the writes that only store are idempotent. -/
def Obligations.StoringWritesAreIdempotent : Prop :=
  ∀ (s t : State) (i : Instr), s.Inv →
    ((∃ phy reg, i = .wrMdioCmdR phy reg) ∨ (∃ n, i = .wrTxLen n) ∨ (∃ k v, i = .wrTxbuf k v)
      ∨ (∃ v, i = .wrMacAddrHi v) ∨ (∃ v, i = .wrMacAddrLo v)) →
    exec i s = .next t → exec i t = .next t

/-- R49: a step makes `irq_rx` rise as often as it stages a frame, and `irq_tx` as often as it completes a
transmission; the levels are those of the flags. The lines are the spec's decision D21; their events are log 8. -/
def Obligations.OneRisePerFrame : Prop :=
  ∀ s t : State, s.Inv → step s = .next t →
    rxRises t.history + framesStaged s.history = rxRises s.history + framesStaged t.history
      ∧ txRises t.history + framesSent s.history = txRises s.history + framesSent t.history
      ∧ (t.irqRx = true ↔ t.rxPhase = .full) ∧ (t.irqTx = true ↔ t.txDone = true)

/-- R8, R162, R262, R322: a transaction in flight whose completion is among the steps to come (which MDIO_LIVE
gives, `mdioLive_pending`) ends by then, and so does a transmission (TX_LIVE, `txLive_pending`), each unless
the run stops first; and under the fairness of delivery, wherever an interrupt is due, a later choice of the
schedule invokes the handler, which then stands beside the other programs, or the line falls or is masked
first, unless the run stops. The assumptions are the spec's (D11, D21), their form the model's (logs 2, 23). -/
def Obligations.LiveTransactionEnds : Prop :=
  (∀ s : State, s.Inv → s.mdioPhase = .busy → (∃ a, Action.mdioEngine a ∈ s.agenda) →
    (∃ k t, k ≤ s.agenda.length ∧ Host.Core.run core k s = .next t ∧ t.mdioPhase = .idle)
      ∨ (∃ k e, k ≤ s.agenda.length ∧ Host.Core.run core k s = .fault e)
      ∨ (∃ k r, k ≤ s.agenda.length ∧ Host.Core.run core k s = .refused r))
  ∧ (∀ s : State, s.txPhase = .sending → Action.txEngine ∈ s.agenda →
    (∃ k t, k ≤ s.agenda.length ∧ Host.Core.run core k s = .next t ∧ t.txPhase = .idle)
      ∨ (∃ k e, k ≤ s.agenda.length ∧ Host.Core.run core k s = .fault e)
      ∨ (∃ k r, k ≤ s.agenda.length ∧ Host.Core.run core k s = .refused r))
  ∧ ∀ (sched : Nat → Choice) (y : System) (n : Nat) (v : System), DeliveryFair sched y →
    runFor sched n y = .next v → InterruptDue v →
    (∃ m w, n ≤ m ∧ runFor sched m y = .next w ∧
      ((∃ allocated, sched m = .invoke allocated
          ∧ runFor sched (m + 1) y = .next { w with procs := w.procs ++ [rxHandler allocated] })
        ∨ ¬InterruptDue w))
      ∨ (∃ m e, n ≤ m ∧ runFor sched m y = .fault e) ∨ (∃ m r, n ≤ m ∧ runFor sched m y = .refused r)

/-- R162, R262: without the assumptions nothing ends: a machine with no step to come keeps its transaction
and its transmission in flight for ever. And an engine that has nothing in flight changes nothing. Both are
the model's choice (log 2). -/
def Obligations.StuckEnginesStayBusy : Prop :=
  (∀ (s : State) (k : Nat), s.agenda = [] → Host.Core.run core k s = .next s)
  ∧ (∀ (s : State) (answer : Half), s.mdioPhase ≠ .busy → act (.mdioEngine answer) s = .next s)
  ∧ ∀ s : State, s.txPhase = .idle → act .txEngine s = .next s

/-! ## The driver's procedures -/

/-- The trace of agent 0 issuing these operations in this order. -/
def Sys2Proof.Machine.issued (ops : List BusOp) : List (Nat × BusOp) := ops.map fun op => (0, op)

/-- R170, R173: `mdio_write` then `mdio_read` of the same register on the echo PHY, run alone with the
engine completing each transaction and each operation complete before the next (the run keeps HOST_IN_ORDER,
R81), returns the value written. The echo PHY is the spec's test oracle (D35); what starts and what ends a
transaction are its decisions D9, D10 and D11 (log 19). -/
def Obligations.MdioRoundTrip : Prop :=
  ∀ (s : State) (r : Nat) (v a : Half), s.cfg.valid = true → s.mdioPhase ≠ .busy → r < 32 →
    let y0 := alone s (mdioWriteThen s.cfg r v (mdioRead s.cfg r))
    let first : List Choice := [.host 0, .host 0, .env (.mdioEngine a)]
    let second : List Choice := [.host 0, .host 0, .host 0, .host 0, .env (.mdioEngine v), .host 0, .host 0]
    HostInOrder (first ++ second) y0 ∧ ∃ y z : System,
      sysRun first y0 = .next y
      ∧ y.block.history = s.history ++ [.mdioWriteTxn s.cfg.fixedPhyAddr (BitVec.ofNat 5 r) s.cfg.turnaround v]
      ∧ echoPhy y.block.history s.cfg.fixedPhyAddr (BitVec.ofNat 5 r) = some v
      ∧ sysRun second y = .next z
      ∧ z.procs = [.done (.value v)]
      ∧ z.block.history = y.block.history
          ++ [.mdioReadTxn s.cfg.fixedPhyAddr (BitVec.ofNat 5 r) s.cfg.turnaround v]
      ∧ z.block.mdioPhase = .idle

/-- R190, R192, R194, R195: the bring-up sequence, run alone with the engine completing each write and each
operation complete before the next (the run keeps HOST_IN_ORDER, R81), makes exactly the seven writes, in
order, with two reads of MDIO_STAT around each and no other operation, then acknowledges: a stale frame is
released; with none staged the acknowledge follows ACK_EMPTY (D18, log 16). The guard around each write is
the model's reading (log 21), and so is the place of the line's fall before FrameReleased (log 8); that the
command write starts the transaction is the spec's decision D9 (log 19). -/
def Obligations.BringUpSequence : Prop :=
  ∀ (s : State) (a : Half), s.cfg.valid = true → s.mdioPhase ≠ .busy →
    let y0 := alone s (bringUp s.cfg)
    let sched : List Choice :=
      (List.replicate 7 [Choice.host 0, .host 0, .host 0, .env (.mdioEngine a), .host 0, .host 0]).flatten
        ++ [.host 0, .host 0, .host 0]
    HostInOrder sched y0
    ∧ (s.cfg.ackEmpty = .fault → s.rxPhase = .empty → sysRun sched y0 = .fault .ackWhileEmpty)
    ∧ (s.cfg.ackEmpty = .ignore ∨ s.rxPhase = .full → ∃ y : System, sysRun sched y0 = .next y
      ∧ y.procs = [.done .success]
      ∧ y.trace = issued ((s.cfg.bringup.map fun p =>
            [readOf s.cfg (.reg .mdioStat), writeOf s.cfg (.reg .mdioCmd) (writeCommandWord s.cfg p.reg p.val),
              readOf s.cfg (.reg .mdioStat)]).flatten
          ++ [writeOf s.cfg (.reg .rxAck) 1])
      ∧ y.block.history = s.history
          ++ (s.cfg.bringup.map fun p =>
              Event.mdioWriteTxn s.cfg.fixedPhyAddr (BitVec.ofNat 5 p.reg) s.cfg.turnaround p.val)
          ++ (if s.rxPhase = .full then [.irqRx false, .frameReleased] else [])
      ∧ y.block.mdioPhase = .idle ∧ y.block.rxPhase = .empty ∧ y.block.txPhase = s.txPhase)

/-- R230, R233: a frame is staged and the handler runs alone under HOST_IN_ORDER (R81): it delivers the frame
without its last four octets, reads what the rule says in the order it says, and acknowledges exactly once,
after the copy; such a run exists, and every HOST_IN_ORDER run of the handler alone that finishes ends so.
The guard is the model's reading (log 21), and so are the places of the line's rise before FrameStaged and of
its fall before FrameReleased (log 8). The bounds of a frame are the spec's decision D17, the byte order D13
(log 18); how the agent's operations reach the block is log 22. -/
def Obligations.HandlerDeliversFrame : Prop :=
  ∀ (s t : State) (f : List Byte), s.cfg.valid = true → s.rxPhase = .empty →
    4 ≤ f.length → f.length ≤ s.cfg.rxBuf.bytes → act (.wireFrame f) s = .next t →
    ∃ y : System,
      sysRun (.env (.wireFrame f) :: List.replicate (wordsFor (f.length - 4) + 7) (.host 0))
        (alone s (rxHandler true)) = .next y
      ∧ EndsAt (alone t (rxHandler true)) y
      ∧ y.procs = [.done (.handled (some (f.take (f.length - 4))))]
      ∧ y.trace = issued ([readOf s.cfg (.reg .rxAvail), readOf s.cfg (.reg .rxLen)]
          ++ (List.range (wordsFor (f.length - 4))).map (fun k => readOf s.cfg (.rxWord k))
          ++ [writeOf s.cfg (.reg .rxAck) 1])
      ∧ y.block.rxPhase = .empty
      ∧ y.block.history = s.history ++ [.irqRx true, .frameStaged f, .irqRx false, .frameReleased]

/-- R231: on a spurious interrupt the handler makes one bus operation, the read of RX_AVAIL, and reports
not handled; such a run exists, and every HOST_IN_ORDER run (R81) of the handler alone that finishes ends so.
The guard is the model's reading (log 21); how the agent's operations reach the block is log 22. -/
def Obligations.SpuriousInterrupt : Prop :=
  ∀ (s : State) (allocated : Bool), s.cfg.valid = true → s.rxPhase = .empty →
    ∃ y : System,
      sysRun (List.replicate 3 (.host 0)) (alone s (rxHandler allocated)) = .next y
      ∧ EndsAt (alone s (rxHandler allocated)) y
      ∧ y.procs = [.done .notHandled] ∧ y.trace = issued [readOf s.cfg (.reg .rxAvail)]
      ∧ y.block = { s with returned := some 0 } ∧ y.guard = none

/-- R232: where the buffer cannot be allocated the handler copies nothing and acknowledges; such a run
exists, and every HOST_IN_ORDER run (R81) of the handler alone that finishes ends so. The acknowledge on this
path is the spec's decision D34; the place of the line's fall before FrameReleased is the model's reading (log
8), and so is the guard (log 21); how the agent's operations reach the block is log 22. -/
def Obligations.AllocationFailureAcknowledges : Prop :=
  ∀ s : State, s.cfg.valid = true → s.rxPhase = .full →
    ∃ y : System,
      sysRun (List.replicate 7 (.host 0)) (alone s (rxHandler false)) = .next y
      ∧ EndsAt (alone s (rxHandler false)) y
      ∧ y.procs = [.done (.handled none)]
      ∧ y.trace = issued [readOf s.cfg (.reg .rxAvail), readOf s.cfg (.reg .rxLen), writeOf s.cfg (.reg .rxAck) 1]
      ∧ y.block.rxPhase = .empty ∧ y.block.history = s.history ++ [.irqRx false, .frameReleased]

/-- R81, R82, R253, R270, R272, R361: `transmit` run alone under HOST_IN_ORDER writes the frame's words, then its
exact length, then the strobe, and the engine then sends exactly the frame: such a run exists, and every
HOST_IN_ORDER run of it alone that finishes ends so. Without HOST_IN_ORDER it does not: a strobe that
overtakes the length hands over the length of before, and the length that follows faults; where the length of
before is no legal one, the strobe faults (R253). The frames are those whose length fits TX_LEN (log 32). An operation that
is issued and reaches the block later is the model's form of this (log 22); the places of the line's fall at
the strobe and of its rise after FrameSent are the model's reading (log 8), and so is the guard (log 21). The
legal lengths are the spec's decision D23, the byte order D13 (log 18). -/
def Obligations.TransmitSendsFrame : Prop :=
  ∀ (s : State) (f : List Byte) (pad : Nat → Byte), s.cfg.valid = true → s.txPhase = .idle →
    1 ≤ f.length → f.length ≤ s.cfg.txBuf.bytes → f.length < 2 ^ 32 →
    (∃ y : System,
      sysRun (List.replicate (wordsFor f.length + 6) (.host 0)) (alone s (transmit f pad)) = .next y
      ∧ EndsAt (alone s (transmit f pad)) y
      ∧ y.procs = [.done .accepted]
      ∧ y.trace = issued ([readOf s.cfg (.reg .txBusy), readOf s.cfg (.reg .txBusy)]
          ++ (List.range (wordsFor f.length)).map (fun k => writeOf s.cfg (.txWord k) (frameWord f pad k))
          ++ [writeOf s.cfg (.reg .txLen) (BitVec.ofNat 32 f.length), writeOf s.cfg (.reg .txSend) 1])
      ∧ y.block.txPhase = .sending
      ∧ ∃ t, act .txEngine y.block = .next t
        ∧ t.history = s.history ++ (if s.txDone = true then [.irqTx false] else []) ++ [.frameSent f, .irqTx true])
    ∧ (1 ≤ s.txLen.toNat → s.txLen.toNat ≤ s.cfg.txBuf.bytes →
      ∃ y : System,
        sysRun (List.replicate (wordsFor f.length + 3) (.host 0) ++ [.post 0 0, .host 0]) (alone s (transmit f pad))
          = .next y
        ∧ y.block.txPhase = .sending ∧ y.block.txLen = s.txLen
        ∧ sysRun [.reach 0] y = .fault (.txWriteWhileBusy none))
    ∧ (s.txLen.toNat = 0 ∨ s.cfg.txBuf.bytes < s.txLen.toNat →
      sysRun (List.replicate (wordsFor f.length + 3) (.host 0) ++ [.post 0 0, .host 0]) (alone s (transmit f pad))
        = .fault (.txBadLength s.txLen))

/-- R271: where the slot is found busy at the re-check, `transmit` writes nothing and reports busy; each
operation completes before the next (the run keeps HOST_IN_ORDER, R81). That another host can send in between
rests on the guard being software (log 21); the legal lengths are the spec's decision D23. -/
def Obligations.TransmitRefusesWhenBusy : Prop :=
  ∀ (s : State) (f : List Byte) (pad : Nat → Byte), s.cfg.valid = true → s.txPhase = .idle →
    1 ≤ s.txLen.toNat → s.txLen.toNat ≤ s.cfg.txBuf.bytes →
    let sched : List Choice := [.host 0, .host 0, .env (.host (writeOf s.cfg (.reg .txSend) 1)), .host 0, .host 0]
    HostInOrder sched (alone s (transmit f pad)) ∧ ∃ y : System,
      sysRun sched (alone s (transmit f pad)) = .next y
      ∧ y.procs = [.done .busy]
      ∧ y.trace = issued [readOf s.cfg (.reg .txBusy), readOf s.cfg (.reg .txBusy)]
      ∧ y.block.txPhase = .sending ∧ y.block.txBuf = s.txBuf ∧ y.block.txLen = s.txLen

/-- R90, R94: under any schedule in which one agent keeps the guard, another that waits for it still waits
at the end and has issued no bus operation, and none of its has reached the block if none was outstanding.
The guard is software; its form is the model's (log 21), and so is that the holder itself waits where it locks
again (log 29). -/
def Obligations.GuardExcludes : Prop :=
  ∀ (l : List Choice) (y z : System) (i j : Nat) (k : Proc),
    y.guard = some j → y.procs[i]? = some (.lock k) →
    (∀ (l' rest : List Choice) (w : System), l' ++ rest = l → sysRun l' y = .next w → w.guard = some j) →
    sysRun l y = .next z →
    z.procs[i]? = some (.lock k) ∧ z.issued.filter (fun e => e.1 = i) = y.issued.filter (fun e => e.1 = i)
      ∧ (y.waits i = false → z.trace.filter (fun e => e.1 = i) = y.trace.filter (fun e => e.1 = i))
end

