-- ==== Sys2Proof/Laws/State.lean ====
section
/-! SUPPORT. One lemma per field per named update of the state, so that no proof unfolds a record update. -/

namespace Sys2Proof.Machine

variable (s : State)

@[simp] theorem State.drawn_mdioPhase : s.drawn.mdioPhase = s.mdioPhase := rfl
@[simp] theorem State.drawn_mdioCmd : s.drawn.mdioCmd = s.mdioCmd := rfl
@[simp] theorem State.drawn_mdioTxn : s.drawn.mdioTxn = s.mdioTxn := rfl
@[simp] theorem State.drawn_mdioRdata : s.drawn.mdioRdata = s.mdioRdata := rfl
@[simp] theorem State.drawn_mdioRvalid : s.drawn.mdioRvalid = s.mdioRvalid := rfl
@[simp] theorem State.drawn_rxPhase : s.drawn.rxPhase = s.rxPhase := rfl
@[simp] theorem State.drawn_rxLen : s.drawn.rxLen = s.rxLen := rfl
@[simp] theorem State.drawn_rxBuf : s.drawn.rxBuf = s.rxBuf := rfl
@[simp] theorem State.drawn_txPhase : s.drawn.txPhase = s.txPhase := rfl
@[simp] theorem State.drawn_txLen : s.drawn.txLen = s.txLen := rfl
@[simp] theorem State.drawn_txBuf : s.drawn.txBuf = s.txBuf := rfl
@[simp] theorem State.drawn_txDone : s.drawn.txDone = s.txDone := rfl
@[simp] theorem State.drawn_macHi : s.drawn.macHi = s.macHi := rfl
@[simp] theorem State.drawn_macLo : s.drawn.macLo = s.macLo := rfl
@[simp] theorem State.drawn_rxErrCnt : s.drawn.rxErrCnt = s.rxErrCnt := rfl
@[simp] theorem State.drawn_returned : s.drawn.returned = s.returned := rfl
@[simp] theorem State.drawn_history : s.drawn.history = s.history := rfl
@[simp] theorem State.drawn_cfg : s.drawn.cfg = s.cfg := rfl
@[simp] theorem State.drawn_agenda : s.drawn.agenda = s.agenda := rfl
@[simp] theorem State.drawn_draws : s.drawn.draws = s.draws + 1 := rfl

@[simp] theorem State.returning_mdioPhase (v : Word) : (s.returning v).mdioPhase = s.mdioPhase := rfl
@[simp] theorem State.returning_mdioCmd (v : Word) : (s.returning v).mdioCmd = s.mdioCmd := rfl
@[simp] theorem State.returning_mdioTxn (v : Word) : (s.returning v).mdioTxn = s.mdioTxn := rfl
@[simp] theorem State.returning_mdioRdata (v : Word) : (s.returning v).mdioRdata = s.mdioRdata := rfl
@[simp] theorem State.returning_mdioRvalid (v : Word) : (s.returning v).mdioRvalid = s.mdioRvalid := rfl
@[simp] theorem State.returning_rxPhase (v : Word) : (s.returning v).rxPhase = s.rxPhase := rfl
@[simp] theorem State.returning_rxLen (v : Word) : (s.returning v).rxLen = s.rxLen := rfl
@[simp] theorem State.returning_rxBuf (v : Word) : (s.returning v).rxBuf = s.rxBuf := rfl
@[simp] theorem State.returning_txPhase (v : Word) : (s.returning v).txPhase = s.txPhase := rfl
@[simp] theorem State.returning_txLen (v : Word) : (s.returning v).txLen = s.txLen := rfl
@[simp] theorem State.returning_txBuf (v : Word) : (s.returning v).txBuf = s.txBuf := rfl
@[simp] theorem State.returning_txDone (v : Word) : (s.returning v).txDone = s.txDone := rfl
@[simp] theorem State.returning_macHi (v : Word) : (s.returning v).macHi = s.macHi := rfl
@[simp] theorem State.returning_macLo (v : Word) : (s.returning v).macLo = s.macLo := rfl
@[simp] theorem State.returning_rxErrCnt (v : Word) : (s.returning v).rxErrCnt = s.rxErrCnt := rfl
@[simp] theorem State.returning_returned (v : Word) : (s.returning v).returned = some v := rfl
@[simp] theorem State.returning_history (v : Word) : (s.returning v).history = s.history := rfl
@[simp] theorem State.returning_cfg (v : Word) : (s.returning v).cfg = s.cfg := rfl
@[simp] theorem State.returning_agenda (v : Word) : (s.returning v).agenda = s.agenda := rfl
@[simp] theorem State.returning_draws (v : Word) : (s.returning v).draws = s.draws := rfl

@[simp] theorem State.record_mdioPhase (e : Event) : (s.record e).mdioPhase = s.mdioPhase := rfl
@[simp] theorem State.record_mdioCmd (e : Event) : (s.record e).mdioCmd = s.mdioCmd := rfl
@[simp] theorem State.record_mdioTxn (e : Event) : (s.record e).mdioTxn = s.mdioTxn := rfl
@[simp] theorem State.record_mdioRdata (e : Event) : (s.record e).mdioRdata = s.mdioRdata := rfl
@[simp] theorem State.record_mdioRvalid (e : Event) : (s.record e).mdioRvalid = s.mdioRvalid := rfl
@[simp] theorem State.record_rxPhase (e : Event) : (s.record e).rxPhase = s.rxPhase := rfl
@[simp] theorem State.record_rxLen (e : Event) : (s.record e).rxLen = s.rxLen := rfl
@[simp] theorem State.record_rxBuf (e : Event) : (s.record e).rxBuf = s.rxBuf := rfl
@[simp] theorem State.record_txPhase (e : Event) : (s.record e).txPhase = s.txPhase := rfl
@[simp] theorem State.record_txLen (e : Event) : (s.record e).txLen = s.txLen := rfl
@[simp] theorem State.record_txBuf (e : Event) : (s.record e).txBuf = s.txBuf := rfl
@[simp] theorem State.record_txDone (e : Event) : (s.record e).txDone = s.txDone := rfl
@[simp] theorem State.record_macHi (e : Event) : (s.record e).macHi = s.macHi := rfl
@[simp] theorem State.record_macLo (e : Event) : (s.record e).macLo = s.macLo := rfl
@[simp] theorem State.record_rxErrCnt (e : Event) : (s.record e).rxErrCnt = s.rxErrCnt := rfl
@[simp] theorem State.record_returned (e : Event) : (s.record e).returned = s.returned := rfl
@[simp] theorem State.record_history (e : Event) : (s.record e).history = s.history ++ [e] := rfl
@[simp] theorem State.record_cfg (e : Event) : (s.record e).cfg = s.cfg := rfl
@[simp] theorem State.record_agenda (e : Event) : (s.record e).agenda = s.agenda := rfl
@[simp] theorem State.record_draws (e : Event) : (s.record e).draws = s.draws := rfl

@[simp] theorem State.startTxn_mdioPhase (t : Txn) : (s.startTxn t).mdioPhase = .busy := rfl
@[simp] theorem State.startTxn_mdioCmd (t : Txn) : (s.startTxn t).mdioCmd = s.mdioCmd := rfl
@[simp] theorem State.startTxn_mdioTxn (t : Txn) : (s.startTxn t).mdioTxn = some t := rfl
@[simp] theorem State.startTxn_mdioRdata (t : Txn) : (s.startTxn t).mdioRdata = s.mdioRdata := rfl
@[simp] theorem State.startTxn_mdioRvalid (t : Txn) : (s.startTxn t).mdioRvalid = false := rfl
@[simp] theorem State.startTxn_rxPhase (t : Txn) : (s.startTxn t).rxPhase = s.rxPhase := rfl
@[simp] theorem State.startTxn_rxLen (t : Txn) : (s.startTxn t).rxLen = s.rxLen := rfl
@[simp] theorem State.startTxn_rxBuf (t : Txn) : (s.startTxn t).rxBuf = s.rxBuf := rfl
@[simp] theorem State.startTxn_txPhase (t : Txn) : (s.startTxn t).txPhase = s.txPhase := rfl
@[simp] theorem State.startTxn_txLen (t : Txn) : (s.startTxn t).txLen = s.txLen := rfl
@[simp] theorem State.startTxn_txBuf (t : Txn) : (s.startTxn t).txBuf = s.txBuf := rfl
@[simp] theorem State.startTxn_txDone (t : Txn) : (s.startTxn t).txDone = s.txDone := rfl
@[simp] theorem State.startTxn_macHi (t : Txn) : (s.startTxn t).macHi = s.macHi := rfl
@[simp] theorem State.startTxn_macLo (t : Txn) : (s.startTxn t).macLo = s.macLo := rfl
@[simp] theorem State.startTxn_rxErrCnt (t : Txn) : (s.startTxn t).rxErrCnt = s.rxErrCnt := rfl
@[simp] theorem State.startTxn_returned (t : Txn) : (s.startTxn t).returned = s.returned := rfl
@[simp] theorem State.startTxn_history (t : Txn) : (s.startTxn t).history = s.history := rfl
@[simp] theorem State.startTxn_cfg (t : Txn) : (s.startTxn t).cfg = s.cfg := rfl
@[simp] theorem State.startTxn_agenda (t : Txn) : (s.startTxn t).agenda = s.agenda := rfl
@[simp] theorem State.startTxn_draws (t : Txn) : (s.startTxn t).draws = s.draws := rfl

@[simp] theorem State.endTxn_mdioPhase : s.endTxn.mdioPhase = .idle := rfl
@[simp] theorem State.endTxn_mdioCmd : s.endTxn.mdioCmd = s.mdioCmd := rfl
@[simp] theorem State.endTxn_mdioTxn : s.endTxn.mdioTxn = none := rfl
@[simp] theorem State.endTxn_mdioRdata : s.endTxn.mdioRdata = s.mdioRdata := rfl
@[simp] theorem State.endTxn_mdioRvalid : s.endTxn.mdioRvalid = s.mdioRvalid := rfl
@[simp] theorem State.endTxn_rxPhase : s.endTxn.rxPhase = s.rxPhase := rfl
@[simp] theorem State.endTxn_rxLen : s.endTxn.rxLen = s.rxLen := rfl
@[simp] theorem State.endTxn_rxBuf : s.endTxn.rxBuf = s.rxBuf := rfl
@[simp] theorem State.endTxn_txPhase : s.endTxn.txPhase = s.txPhase := rfl
@[simp] theorem State.endTxn_txLen : s.endTxn.txLen = s.txLen := rfl
@[simp] theorem State.endTxn_txBuf : s.endTxn.txBuf = s.txBuf := rfl
@[simp] theorem State.endTxn_txDone : s.endTxn.txDone = s.txDone := rfl
@[simp] theorem State.endTxn_macHi : s.endTxn.macHi = s.macHi := rfl
@[simp] theorem State.endTxn_macLo : s.endTxn.macLo = s.macLo := rfl
@[simp] theorem State.endTxn_rxErrCnt : s.endTxn.rxErrCnt = s.rxErrCnt := rfl
@[simp] theorem State.endTxn_returned : s.endTxn.returned = s.returned := rfl
@[simp] theorem State.endTxn_history : s.endTxn.history = s.history := rfl
@[simp] theorem State.endTxn_cfg : s.endTxn.cfg = s.cfg := rfl
@[simp] theorem State.endTxn_agenda : s.endTxn.agenda = s.agenda := rfl
@[simp] theorem State.endTxn_draws : s.endTxn.draws = s.draws := rfl

@[simp] theorem State.setRdata_mdioPhase (r : Half) : (s.setRdata r).mdioPhase = s.mdioPhase := rfl
@[simp] theorem State.setRdata_mdioCmd (r : Half) : (s.setRdata r).mdioCmd = s.mdioCmd := rfl
@[simp] theorem State.setRdata_mdioTxn (r : Half) : (s.setRdata r).mdioTxn = s.mdioTxn := rfl
@[simp] theorem State.setRdata_mdioRdata (r : Half) : (s.setRdata r).mdioRdata = r := rfl
@[simp] theorem State.setRdata_mdioRvalid (r : Half) : (s.setRdata r).mdioRvalid = true := rfl
@[simp] theorem State.setRdata_rxPhase (r : Half) : (s.setRdata r).rxPhase = s.rxPhase := rfl
@[simp] theorem State.setRdata_rxLen (r : Half) : (s.setRdata r).rxLen = s.rxLen := rfl
@[simp] theorem State.setRdata_rxBuf (r : Half) : (s.setRdata r).rxBuf = s.rxBuf := rfl
@[simp] theorem State.setRdata_txPhase (r : Half) : (s.setRdata r).txPhase = s.txPhase := rfl
@[simp] theorem State.setRdata_txLen (r : Half) : (s.setRdata r).txLen = s.txLen := rfl
@[simp] theorem State.setRdata_txBuf (r : Half) : (s.setRdata r).txBuf = s.txBuf := rfl
@[simp] theorem State.setRdata_txDone (r : Half) : (s.setRdata r).txDone = s.txDone := rfl
@[simp] theorem State.setRdata_macHi (r : Half) : (s.setRdata r).macHi = s.macHi := rfl
@[simp] theorem State.setRdata_macLo (r : Half) : (s.setRdata r).macLo = s.macLo := rfl
@[simp] theorem State.setRdata_rxErrCnt (r : Half) : (s.setRdata r).rxErrCnt = s.rxErrCnt := rfl
@[simp] theorem State.setRdata_returned (r : Half) : (s.setRdata r).returned = s.returned := rfl
@[simp] theorem State.setRdata_history (r : Half) : (s.setRdata r).history = s.history := rfl
@[simp] theorem State.setRdata_cfg (r : Half) : (s.setRdata r).cfg = s.cfg := rfl
@[simp] theorem State.setRdata_agenda (r : Half) : (s.setRdata r).agenda = s.agenda := rfl
@[simp] theorem State.setRdata_draws (r : Half) : (s.setRdata r).draws = s.draws := rfl

@[simp] theorem State.arm_mdioPhase : s.arm.mdioPhase = .armed := rfl
@[simp] theorem State.arm_mdioCmd : s.arm.mdioCmd = s.mdioCmd := rfl
@[simp] theorem State.arm_mdioTxn : s.arm.mdioTxn = s.mdioTxn := rfl
@[simp] theorem State.arm_mdioRdata : s.arm.mdioRdata = s.mdioRdata := rfl
@[simp] theorem State.arm_mdioRvalid : s.arm.mdioRvalid = s.mdioRvalid := rfl
@[simp] theorem State.arm_rxPhase : s.arm.rxPhase = s.rxPhase := rfl
@[simp] theorem State.arm_rxLen : s.arm.rxLen = s.rxLen := rfl
@[simp] theorem State.arm_rxBuf : s.arm.rxBuf = s.rxBuf := rfl
@[simp] theorem State.arm_txPhase : s.arm.txPhase = s.txPhase := rfl
@[simp] theorem State.arm_txLen : s.arm.txLen = s.txLen := rfl
@[simp] theorem State.arm_txBuf : s.arm.txBuf = s.txBuf := rfl
@[simp] theorem State.arm_txDone : s.arm.txDone = s.txDone := rfl
@[simp] theorem State.arm_macHi : s.arm.macHi = s.macHi := rfl
@[simp] theorem State.arm_macLo : s.arm.macLo = s.macLo := rfl
@[simp] theorem State.arm_rxErrCnt : s.arm.rxErrCnt = s.rxErrCnt := rfl
@[simp] theorem State.arm_returned : s.arm.returned = s.returned := rfl
@[simp] theorem State.arm_history : s.arm.history = s.history := rfl
@[simp] theorem State.arm_cfg : s.arm.cfg = s.cfg := rfl
@[simp] theorem State.arm_agenda : s.arm.agenda = s.agenda := rfl
@[simp] theorem State.arm_draws : s.arm.draws = s.draws := rfl

@[simp] theorem State.setMdioCmd_mdioPhase (w : Word) : (s.setMdioCmd w).mdioPhase = s.mdioPhase := rfl
@[simp] theorem State.setMdioCmd_mdioCmd (w : Word) : (s.setMdioCmd w).mdioCmd = w := rfl
@[simp] theorem State.setMdioCmd_mdioTxn (w : Word) : (s.setMdioCmd w).mdioTxn = s.mdioTxn := rfl
@[simp] theorem State.setMdioCmd_mdioRdata (w : Word) : (s.setMdioCmd w).mdioRdata = s.mdioRdata := rfl
@[simp] theorem State.setMdioCmd_mdioRvalid (w : Word) : (s.setMdioCmd w).mdioRvalid = s.mdioRvalid := rfl
@[simp] theorem State.setMdioCmd_rxPhase (w : Word) : (s.setMdioCmd w).rxPhase = s.rxPhase := rfl
@[simp] theorem State.setMdioCmd_rxLen (w : Word) : (s.setMdioCmd w).rxLen = s.rxLen := rfl
@[simp] theorem State.setMdioCmd_rxBuf (w : Word) : (s.setMdioCmd w).rxBuf = s.rxBuf := rfl
@[simp] theorem State.setMdioCmd_txPhase (w : Word) : (s.setMdioCmd w).txPhase = s.txPhase := rfl
@[simp] theorem State.setMdioCmd_txLen (w : Word) : (s.setMdioCmd w).txLen = s.txLen := rfl
@[simp] theorem State.setMdioCmd_txBuf (w : Word) : (s.setMdioCmd w).txBuf = s.txBuf := rfl
@[simp] theorem State.setMdioCmd_txDone (w : Word) : (s.setMdioCmd w).txDone = s.txDone := rfl
@[simp] theorem State.setMdioCmd_macHi (w : Word) : (s.setMdioCmd w).macHi = s.macHi := rfl
@[simp] theorem State.setMdioCmd_macLo (w : Word) : (s.setMdioCmd w).macLo = s.macLo := rfl
@[simp] theorem State.setMdioCmd_rxErrCnt (w : Word) : (s.setMdioCmd w).rxErrCnt = s.rxErrCnt := rfl
@[simp] theorem State.setMdioCmd_returned (w : Word) : (s.setMdioCmd w).returned = s.returned := rfl
@[simp] theorem State.setMdioCmd_history (w : Word) : (s.setMdioCmd w).history = s.history := rfl
@[simp] theorem State.setMdioCmd_cfg (w : Word) : (s.setMdioCmd w).cfg = s.cfg := rfl
@[simp] theorem State.setMdioCmd_agenda (w : Word) : (s.setMdioCmd w).agenda = s.agenda := rfl
@[simp] theorem State.setMdioCmd_draws (w : Word) : (s.setMdioCmd w).draws = s.draws := rfl

@[simp] theorem State.setRxPhase_mdioPhase (p : RxPhase) : (s.setRxPhase p).mdioPhase = s.mdioPhase := rfl
@[simp] theorem State.setRxPhase_mdioCmd (p : RxPhase) : (s.setRxPhase p).mdioCmd = s.mdioCmd := rfl
@[simp] theorem State.setRxPhase_mdioTxn (p : RxPhase) : (s.setRxPhase p).mdioTxn = s.mdioTxn := rfl
@[simp] theorem State.setRxPhase_mdioRdata (p : RxPhase) : (s.setRxPhase p).mdioRdata = s.mdioRdata := rfl
@[simp] theorem State.setRxPhase_mdioRvalid (p : RxPhase) : (s.setRxPhase p).mdioRvalid = s.mdioRvalid := rfl
@[simp] theorem State.setRxPhase_rxPhase (p : RxPhase) : (s.setRxPhase p).rxPhase = p := rfl
@[simp] theorem State.setRxPhase_rxLen (p : RxPhase) : (s.setRxPhase p).rxLen = s.rxLen := rfl
@[simp] theorem State.setRxPhase_rxBuf (p : RxPhase) : (s.setRxPhase p).rxBuf = s.rxBuf := rfl
@[simp] theorem State.setRxPhase_txPhase (p : RxPhase) : (s.setRxPhase p).txPhase = s.txPhase := rfl
@[simp] theorem State.setRxPhase_txLen (p : RxPhase) : (s.setRxPhase p).txLen = s.txLen := rfl
@[simp] theorem State.setRxPhase_txBuf (p : RxPhase) : (s.setRxPhase p).txBuf = s.txBuf := rfl
@[simp] theorem State.setRxPhase_txDone (p : RxPhase) : (s.setRxPhase p).txDone = s.txDone := rfl
@[simp] theorem State.setRxPhase_macHi (p : RxPhase) : (s.setRxPhase p).macHi = s.macHi := rfl
@[simp] theorem State.setRxPhase_macLo (p : RxPhase) : (s.setRxPhase p).macLo = s.macLo := rfl
@[simp] theorem State.setRxPhase_rxErrCnt (p : RxPhase) : (s.setRxPhase p).rxErrCnt = s.rxErrCnt := rfl
@[simp] theorem State.setRxPhase_returned (p : RxPhase) : (s.setRxPhase p).returned = s.returned := rfl
@[simp] theorem State.setRxPhase_history (p : RxPhase) : (s.setRxPhase p).history = if s.rxPhase = p then s.history else s.history ++ [.irqRx (decide (p = .full))] := rfl
@[simp] theorem State.setRxPhase_cfg (p : RxPhase) : (s.setRxPhase p).cfg = s.cfg := rfl
@[simp] theorem State.setRxPhase_agenda (p : RxPhase) : (s.setRxPhase p).agenda = s.agenda := rfl
@[simp] theorem State.setRxPhase_draws (p : RxPhase) : (s.setRxPhase p).draws = s.draws := rfl

@[simp] theorem State.setRxFrame_mdioPhase (f : List Byte) : (s.setRxFrame f).mdioPhase = s.mdioPhase := rfl
@[simp] theorem State.setRxFrame_mdioCmd (f : List Byte) : (s.setRxFrame f).mdioCmd = s.mdioCmd := rfl
@[simp] theorem State.setRxFrame_mdioTxn (f : List Byte) : (s.setRxFrame f).mdioTxn = s.mdioTxn := rfl
@[simp] theorem State.setRxFrame_mdioRdata (f : List Byte) : (s.setRxFrame f).mdioRdata = s.mdioRdata := rfl
@[simp] theorem State.setRxFrame_mdioRvalid (f : List Byte) : (s.setRxFrame f).mdioRvalid = s.mdioRvalid := rfl
@[simp] theorem State.setRxFrame_rxPhase (f : List Byte) : (s.setRxFrame f).rxPhase = s.rxPhase := rfl
@[simp] theorem State.setRxFrame_rxLen (f : List Byte) : (s.setRxFrame f).rxLen = BitVec.ofNat 32 f.length := rfl
@[simp] theorem State.setRxFrame_rxBuf (f : List Byte) : (s.setRxFrame f).rxBuf = Memory.ofBytes 0 f := rfl
@[simp] theorem State.setRxFrame_txPhase (f : List Byte) : (s.setRxFrame f).txPhase = s.txPhase := rfl
@[simp] theorem State.setRxFrame_txLen (f : List Byte) : (s.setRxFrame f).txLen = s.txLen := rfl
@[simp] theorem State.setRxFrame_txBuf (f : List Byte) : (s.setRxFrame f).txBuf = s.txBuf := rfl
@[simp] theorem State.setRxFrame_txDone (f : List Byte) : (s.setRxFrame f).txDone = s.txDone := rfl
@[simp] theorem State.setRxFrame_macHi (f : List Byte) : (s.setRxFrame f).macHi = s.macHi := rfl
@[simp] theorem State.setRxFrame_macLo (f : List Byte) : (s.setRxFrame f).macLo = s.macLo := rfl
@[simp] theorem State.setRxFrame_rxErrCnt (f : List Byte) : (s.setRxFrame f).rxErrCnt = s.rxErrCnt := rfl
@[simp] theorem State.setRxFrame_returned (f : List Byte) : (s.setRxFrame f).returned = s.returned := rfl
@[simp] theorem State.setRxFrame_history (f : List Byte) : (s.setRxFrame f).history = s.history := rfl
@[simp] theorem State.setRxFrame_cfg (f : List Byte) : (s.setRxFrame f).cfg = s.cfg := rfl
@[simp] theorem State.setRxFrame_agenda (f : List Byte) : (s.setRxFrame f).agenda = s.agenda := rfl
@[simp] theorem State.setRxFrame_draws (f : List Byte) : (s.setRxFrame f).draws = s.draws := rfl

@[simp] theorem State.setTxPhase_mdioPhase (p : TxPhase) : (s.setTxPhase p).mdioPhase = s.mdioPhase := rfl
@[simp] theorem State.setTxPhase_mdioCmd (p : TxPhase) : (s.setTxPhase p).mdioCmd = s.mdioCmd := rfl
@[simp] theorem State.setTxPhase_mdioTxn (p : TxPhase) : (s.setTxPhase p).mdioTxn = s.mdioTxn := rfl
@[simp] theorem State.setTxPhase_mdioRdata (p : TxPhase) : (s.setTxPhase p).mdioRdata = s.mdioRdata := rfl
@[simp] theorem State.setTxPhase_mdioRvalid (p : TxPhase) : (s.setTxPhase p).mdioRvalid = s.mdioRvalid := rfl
@[simp] theorem State.setTxPhase_rxPhase (p : TxPhase) : (s.setTxPhase p).rxPhase = s.rxPhase := rfl
@[simp] theorem State.setTxPhase_rxLen (p : TxPhase) : (s.setTxPhase p).rxLen = s.rxLen := rfl
@[simp] theorem State.setTxPhase_rxBuf (p : TxPhase) : (s.setTxPhase p).rxBuf = s.rxBuf := rfl
@[simp] theorem State.setTxPhase_txPhase (p : TxPhase) : (s.setTxPhase p).txPhase = p := rfl
@[simp] theorem State.setTxPhase_txLen (p : TxPhase) : (s.setTxPhase p).txLen = s.txLen := rfl
@[simp] theorem State.setTxPhase_txBuf (p : TxPhase) : (s.setTxPhase p).txBuf = s.txBuf := rfl
@[simp] theorem State.setTxPhase_txDone (p : TxPhase) : (s.setTxPhase p).txDone = s.txDone := rfl
@[simp] theorem State.setTxPhase_macHi (p : TxPhase) : (s.setTxPhase p).macHi = s.macHi := rfl
@[simp] theorem State.setTxPhase_macLo (p : TxPhase) : (s.setTxPhase p).macLo = s.macLo := rfl
@[simp] theorem State.setTxPhase_rxErrCnt (p : TxPhase) : (s.setTxPhase p).rxErrCnt = s.rxErrCnt := rfl
@[simp] theorem State.setTxPhase_returned (p : TxPhase) : (s.setTxPhase p).returned = s.returned := rfl
@[simp] theorem State.setTxPhase_history (p : TxPhase) : (s.setTxPhase p).history = s.history := rfl
@[simp] theorem State.setTxPhase_cfg (p : TxPhase) : (s.setTxPhase p).cfg = s.cfg := rfl
@[simp] theorem State.setTxPhase_agenda (p : TxPhase) : (s.setTxPhase p).agenda = s.agenda := rfl
@[simp] theorem State.setTxPhase_draws (p : TxPhase) : (s.setTxPhase p).draws = s.draws := rfl

@[simp] theorem State.setTxDone_mdioPhase (b : Bool) : (s.setTxDone b).mdioPhase = s.mdioPhase := rfl
@[simp] theorem State.setTxDone_mdioCmd (b : Bool) : (s.setTxDone b).mdioCmd = s.mdioCmd := rfl
@[simp] theorem State.setTxDone_mdioTxn (b : Bool) : (s.setTxDone b).mdioTxn = s.mdioTxn := rfl
@[simp] theorem State.setTxDone_mdioRdata (b : Bool) : (s.setTxDone b).mdioRdata = s.mdioRdata := rfl
@[simp] theorem State.setTxDone_mdioRvalid (b : Bool) : (s.setTxDone b).mdioRvalid = s.mdioRvalid := rfl
@[simp] theorem State.setTxDone_rxPhase (b : Bool) : (s.setTxDone b).rxPhase = s.rxPhase := rfl
@[simp] theorem State.setTxDone_rxLen (b : Bool) : (s.setTxDone b).rxLen = s.rxLen := rfl
@[simp] theorem State.setTxDone_rxBuf (b : Bool) : (s.setTxDone b).rxBuf = s.rxBuf := rfl
@[simp] theorem State.setTxDone_txPhase (b : Bool) : (s.setTxDone b).txPhase = s.txPhase := rfl
@[simp] theorem State.setTxDone_txLen (b : Bool) : (s.setTxDone b).txLen = s.txLen := rfl
@[simp] theorem State.setTxDone_txBuf (b : Bool) : (s.setTxDone b).txBuf = s.txBuf := rfl
@[simp] theorem State.setTxDone_txDone (b : Bool) : (s.setTxDone b).txDone = b := rfl
@[simp] theorem State.setTxDone_macHi (b : Bool) : (s.setTxDone b).macHi = s.macHi := rfl
@[simp] theorem State.setTxDone_macLo (b : Bool) : (s.setTxDone b).macLo = s.macLo := rfl
@[simp] theorem State.setTxDone_rxErrCnt (b : Bool) : (s.setTxDone b).rxErrCnt = s.rxErrCnt := rfl
@[simp] theorem State.setTxDone_returned (b : Bool) : (s.setTxDone b).returned = s.returned := rfl
@[simp] theorem State.setTxDone_history (b : Bool) : (s.setTxDone b).history = if s.txDone = b then s.history else s.history ++ [.irqTx b] := rfl
@[simp] theorem State.setTxDone_cfg (b : Bool) : (s.setTxDone b).cfg = s.cfg := rfl
@[simp] theorem State.setTxDone_agenda (b : Bool) : (s.setTxDone b).agenda = s.agenda := rfl
@[simp] theorem State.setTxDone_draws (b : Bool) : (s.setTxDone b).draws = s.draws := rfl

@[simp] theorem State.setTxLen_mdioPhase (n : Word) : (s.setTxLen n).mdioPhase = s.mdioPhase := rfl
@[simp] theorem State.setTxLen_mdioCmd (n : Word) : (s.setTxLen n).mdioCmd = s.mdioCmd := rfl
@[simp] theorem State.setTxLen_mdioTxn (n : Word) : (s.setTxLen n).mdioTxn = s.mdioTxn := rfl
@[simp] theorem State.setTxLen_mdioRdata (n : Word) : (s.setTxLen n).mdioRdata = s.mdioRdata := rfl
@[simp] theorem State.setTxLen_mdioRvalid (n : Word) : (s.setTxLen n).mdioRvalid = s.mdioRvalid := rfl
@[simp] theorem State.setTxLen_rxPhase (n : Word) : (s.setTxLen n).rxPhase = s.rxPhase := rfl
@[simp] theorem State.setTxLen_rxLen (n : Word) : (s.setTxLen n).rxLen = s.rxLen := rfl
@[simp] theorem State.setTxLen_rxBuf (n : Word) : (s.setTxLen n).rxBuf = s.rxBuf := rfl
@[simp] theorem State.setTxLen_txPhase (n : Word) : (s.setTxLen n).txPhase = s.txPhase := rfl
@[simp] theorem State.setTxLen_txLen (n : Word) : (s.setTxLen n).txLen = n := rfl
@[simp] theorem State.setTxLen_txBuf (n : Word) : (s.setTxLen n).txBuf = s.txBuf := rfl
@[simp] theorem State.setTxLen_txDone (n : Word) : (s.setTxLen n).txDone = s.txDone := rfl
@[simp] theorem State.setTxLen_macHi (n : Word) : (s.setTxLen n).macHi = s.macHi := rfl
@[simp] theorem State.setTxLen_macLo (n : Word) : (s.setTxLen n).macLo = s.macLo := rfl
@[simp] theorem State.setTxLen_rxErrCnt (n : Word) : (s.setTxLen n).rxErrCnt = s.rxErrCnt := rfl
@[simp] theorem State.setTxLen_returned (n : Word) : (s.setTxLen n).returned = s.returned := rfl
@[simp] theorem State.setTxLen_history (n : Word) : (s.setTxLen n).history = s.history := rfl
@[simp] theorem State.setTxLen_cfg (n : Word) : (s.setTxLen n).cfg = s.cfg := rfl
@[simp] theorem State.setTxLen_agenda (n : Word) : (s.setTxLen n).agenda = s.agenda := rfl
@[simp] theorem State.setTxLen_draws (n : Word) : (s.setTxLen n).draws = s.draws := rfl

@[simp] theorem State.setTxWord_mdioPhase (k : Nat) (v : Word) : (s.setTxWord k v).mdioPhase = s.mdioPhase := rfl
@[simp] theorem State.setTxWord_mdioCmd (k : Nat) (v : Word) : (s.setTxWord k v).mdioCmd = s.mdioCmd := rfl
@[simp] theorem State.setTxWord_mdioTxn (k : Nat) (v : Word) : (s.setTxWord k v).mdioTxn = s.mdioTxn := rfl
@[simp] theorem State.setTxWord_mdioRdata (k : Nat) (v : Word) : (s.setTxWord k v).mdioRdata = s.mdioRdata := rfl
@[simp] theorem State.setTxWord_mdioRvalid (k : Nat) (v : Word) : (s.setTxWord k v).mdioRvalid = s.mdioRvalid := rfl
@[simp] theorem State.setTxWord_rxPhase (k : Nat) (v : Word) : (s.setTxWord k v).rxPhase = s.rxPhase := rfl
@[simp] theorem State.setTxWord_rxLen (k : Nat) (v : Word) : (s.setTxWord k v).rxLen = s.rxLen := rfl
@[simp] theorem State.setTxWord_rxBuf (k : Nat) (v : Word) : (s.setTxWord k v).rxBuf = s.rxBuf := rfl
@[simp] theorem State.setTxWord_txPhase (k : Nat) (v : Word) : (s.setTxWord k v).txPhase = s.txPhase := rfl
@[simp] theorem State.setTxWord_txLen (k : Nat) (v : Word) : (s.setTxWord k v).txLen = s.txLen := rfl
@[simp] theorem State.setTxWord_txBuf (k : Nat) (v : Word) : (s.setTxWord k v).txBuf = s.txBuf.setWord (4 * k) v := rfl
@[simp] theorem State.setTxWord_txDone (k : Nat) (v : Word) : (s.setTxWord k v).txDone = s.txDone := rfl
@[simp] theorem State.setTxWord_macHi (k : Nat) (v : Word) : (s.setTxWord k v).macHi = s.macHi := rfl
@[simp] theorem State.setTxWord_macLo (k : Nat) (v : Word) : (s.setTxWord k v).macLo = s.macLo := rfl
@[simp] theorem State.setTxWord_rxErrCnt (k : Nat) (v : Word) : (s.setTxWord k v).rxErrCnt = s.rxErrCnt := rfl
@[simp] theorem State.setTxWord_returned (k : Nat) (v : Word) : (s.setTxWord k v).returned = s.returned := rfl
@[simp] theorem State.setTxWord_history (k : Nat) (v : Word) : (s.setTxWord k v).history = s.history := rfl
@[simp] theorem State.setTxWord_cfg (k : Nat) (v : Word) : (s.setTxWord k v).cfg = s.cfg := rfl
@[simp] theorem State.setTxWord_agenda (k : Nat) (v : Word) : (s.setTxWord k v).agenda = s.agenda := rfl
@[simp] theorem State.setTxWord_draws (k : Nat) (v : Word) : (s.setTxWord k v).draws = s.draws := rfl

@[simp] theorem State.setMacHi_mdioPhase (v : Word) : (s.setMacHi v).mdioPhase = s.mdioPhase := rfl
@[simp] theorem State.setMacHi_mdioCmd (v : Word) : (s.setMacHi v).mdioCmd = s.mdioCmd := rfl
@[simp] theorem State.setMacHi_mdioTxn (v : Word) : (s.setMacHi v).mdioTxn = s.mdioTxn := rfl
@[simp] theorem State.setMacHi_mdioRdata (v : Word) : (s.setMacHi v).mdioRdata = s.mdioRdata := rfl
@[simp] theorem State.setMacHi_mdioRvalid (v : Word) : (s.setMacHi v).mdioRvalid = s.mdioRvalid := rfl
@[simp] theorem State.setMacHi_rxPhase (v : Word) : (s.setMacHi v).rxPhase = s.rxPhase := rfl
@[simp] theorem State.setMacHi_rxLen (v : Word) : (s.setMacHi v).rxLen = s.rxLen := rfl
@[simp] theorem State.setMacHi_rxBuf (v : Word) : (s.setMacHi v).rxBuf = s.rxBuf := rfl
@[simp] theorem State.setMacHi_txPhase (v : Word) : (s.setMacHi v).txPhase = s.txPhase := rfl
@[simp] theorem State.setMacHi_txLen (v : Word) : (s.setMacHi v).txLen = s.txLen := rfl
@[simp] theorem State.setMacHi_txBuf (v : Word) : (s.setMacHi v).txBuf = s.txBuf := rfl
@[simp] theorem State.setMacHi_txDone (v : Word) : (s.setMacHi v).txDone = s.txDone := rfl
@[simp] theorem State.setMacHi_macHi (v : Word) : (s.setMacHi v).macHi = v := rfl
@[simp] theorem State.setMacHi_macLo (v : Word) : (s.setMacHi v).macLo = s.macLo := rfl
@[simp] theorem State.setMacHi_rxErrCnt (v : Word) : (s.setMacHi v).rxErrCnt = s.rxErrCnt := rfl
@[simp] theorem State.setMacHi_returned (v : Word) : (s.setMacHi v).returned = s.returned := rfl
@[simp] theorem State.setMacHi_history (v : Word) : (s.setMacHi v).history = s.history := rfl
@[simp] theorem State.setMacHi_cfg (v : Word) : (s.setMacHi v).cfg = s.cfg := rfl
@[simp] theorem State.setMacHi_agenda (v : Word) : (s.setMacHi v).agenda = s.agenda := rfl
@[simp] theorem State.setMacHi_draws (v : Word) : (s.setMacHi v).draws = s.draws := rfl

@[simp] theorem State.setMacLo_mdioPhase (v : Word) : (s.setMacLo v).mdioPhase = s.mdioPhase := rfl
@[simp] theorem State.setMacLo_mdioCmd (v : Word) : (s.setMacLo v).mdioCmd = s.mdioCmd := rfl
@[simp] theorem State.setMacLo_mdioTxn (v : Word) : (s.setMacLo v).mdioTxn = s.mdioTxn := rfl
@[simp] theorem State.setMacLo_mdioRdata (v : Word) : (s.setMacLo v).mdioRdata = s.mdioRdata := rfl
@[simp] theorem State.setMacLo_mdioRvalid (v : Word) : (s.setMacLo v).mdioRvalid = s.mdioRvalid := rfl
@[simp] theorem State.setMacLo_rxPhase (v : Word) : (s.setMacLo v).rxPhase = s.rxPhase := rfl
@[simp] theorem State.setMacLo_rxLen (v : Word) : (s.setMacLo v).rxLen = s.rxLen := rfl
@[simp] theorem State.setMacLo_rxBuf (v : Word) : (s.setMacLo v).rxBuf = s.rxBuf := rfl
@[simp] theorem State.setMacLo_txPhase (v : Word) : (s.setMacLo v).txPhase = s.txPhase := rfl
@[simp] theorem State.setMacLo_txLen (v : Word) : (s.setMacLo v).txLen = s.txLen := rfl
@[simp] theorem State.setMacLo_txBuf (v : Word) : (s.setMacLo v).txBuf = s.txBuf := rfl
@[simp] theorem State.setMacLo_txDone (v : Word) : (s.setMacLo v).txDone = s.txDone := rfl
@[simp] theorem State.setMacLo_macHi (v : Word) : (s.setMacLo v).macHi = s.macHi := rfl
@[simp] theorem State.setMacLo_macLo (v : Word) : (s.setMacLo v).macLo = v := rfl
@[simp] theorem State.setMacLo_rxErrCnt (v : Word) : (s.setMacLo v).rxErrCnt = s.rxErrCnt := rfl
@[simp] theorem State.setMacLo_returned (v : Word) : (s.setMacLo v).returned = s.returned := rfl
@[simp] theorem State.setMacLo_history (v : Word) : (s.setMacLo v).history = s.history := rfl
@[simp] theorem State.setMacLo_cfg (v : Word) : (s.setMacLo v).cfg = s.cfg := rfl
@[simp] theorem State.setMacLo_agenda (v : Word) : (s.setMacLo v).agenda = s.agenda := rfl
@[simp] theorem State.setMacLo_draws (v : Word) : (s.setMacLo v).draws = s.draws := rfl

@[simp] theorem State.countBad_mdioPhase : s.countBad.mdioPhase = s.mdioPhase := rfl
@[simp] theorem State.countBad_mdioCmd : s.countBad.mdioCmd = s.mdioCmd := rfl
@[simp] theorem State.countBad_mdioTxn : s.countBad.mdioTxn = s.mdioTxn := rfl
@[simp] theorem State.countBad_mdioRdata : s.countBad.mdioRdata = s.mdioRdata := rfl
@[simp] theorem State.countBad_mdioRvalid : s.countBad.mdioRvalid = s.mdioRvalid := rfl
@[simp] theorem State.countBad_rxPhase : s.countBad.rxPhase = s.rxPhase := rfl
@[simp] theorem State.countBad_rxLen : s.countBad.rxLen = s.rxLen := rfl
@[simp] theorem State.countBad_rxBuf : s.countBad.rxBuf = s.rxBuf := rfl
@[simp] theorem State.countBad_txPhase : s.countBad.txPhase = s.txPhase := rfl
@[simp] theorem State.countBad_txLen : s.countBad.txLen = s.txLen := rfl
@[simp] theorem State.countBad_txBuf : s.countBad.txBuf = s.txBuf := rfl
@[simp] theorem State.countBad_txDone : s.countBad.txDone = s.txDone := rfl
@[simp] theorem State.countBad_macHi : s.countBad.macHi = s.macHi := rfl
@[simp] theorem State.countBad_macLo : s.countBad.macLo = s.macLo := rfl
@[simp] theorem State.countBad_rxErrCnt : s.countBad.rxErrCnt = s.rxErrCnt + 1 := rfl
@[simp] theorem State.countBad_returned : s.countBad.returned = s.returned := rfl
@[simp] theorem State.countBad_history : s.countBad.history = s.history := rfl
@[simp] theorem State.countBad_cfg : s.countBad.cfg = s.cfg := rfl
@[simp] theorem State.countBad_agenda : s.countBad.agenda = s.agenda := rfl
@[simp] theorem State.countBad_draws : s.countBad.draws = s.draws := rfl

@[simp] theorem State.issue_mdioPhase (op : BusOp) : (s.issue op).mdioPhase = s.mdioPhase := rfl
@[simp] theorem State.issue_mdioCmd (op : BusOp) : (s.issue op).mdioCmd = s.mdioCmd := rfl
@[simp] theorem State.issue_mdioTxn (op : BusOp) : (s.issue op).mdioTxn = s.mdioTxn := rfl
@[simp] theorem State.issue_mdioRdata (op : BusOp) : (s.issue op).mdioRdata = s.mdioRdata := rfl
@[simp] theorem State.issue_mdioRvalid (op : BusOp) : (s.issue op).mdioRvalid = s.mdioRvalid := rfl
@[simp] theorem State.issue_rxPhase (op : BusOp) : (s.issue op).rxPhase = s.rxPhase := rfl
@[simp] theorem State.issue_rxLen (op : BusOp) : (s.issue op).rxLen = s.rxLen := rfl
@[simp] theorem State.issue_rxBuf (op : BusOp) : (s.issue op).rxBuf = s.rxBuf := rfl
@[simp] theorem State.issue_txPhase (op : BusOp) : (s.issue op).txPhase = s.txPhase := rfl
@[simp] theorem State.issue_txLen (op : BusOp) : (s.issue op).txLen = s.txLen := rfl
@[simp] theorem State.issue_txBuf (op : BusOp) : (s.issue op).txBuf = s.txBuf := rfl
@[simp] theorem State.issue_txDone (op : BusOp) : (s.issue op).txDone = s.txDone := rfl
@[simp] theorem State.issue_macHi (op : BusOp) : (s.issue op).macHi = s.macHi := rfl
@[simp] theorem State.issue_macLo (op : BusOp) : (s.issue op).macLo = s.macLo := rfl
@[simp] theorem State.issue_rxErrCnt (op : BusOp) : (s.issue op).rxErrCnt = s.rxErrCnt := rfl
@[simp] theorem State.issue_returned (op : BusOp) : (s.issue op).returned = s.returned := rfl
@[simp] theorem State.issue_history (op : BusOp) : (s.issue op).history = s.history := rfl
@[simp] theorem State.issue_cfg (op : BusOp) : (s.issue op).cfg = s.cfg := rfl
@[simp] theorem State.issue_agenda (op : BusOp) : (s.issue op).agenda = .host op :: s.agenda := rfl
@[simp] theorem State.issue_draws (op : BusOp) : (s.issue op).draws = s.draws := rfl

end Sys2Proof.Machine
end

