-- ==== Sys2Proof/Laws/Memory.lean ====
section
/-! SUPPORT. What the buffer operations do: read after write, and that each keeps the canonical form. -/

namespace Sys2Proof.Machine

@[simp] theorem Memory.get?_nil (a : Nat) : Memory.get? [] a = none := rfl

theorem Memory.get?_cons (b : Nat) (w : Byte) (m : Memory) (a : Nat) :
    Memory.get? ((b, w) :: m) a = if b = a then some w else Memory.get? m a := rfl

theorem Memory.get?_set (m : Memory) (a : Nat) (v : Byte) (i : Nat) :
    (m.set a v).get? i = if a = i then some v else m.get? i := by
  induction m with
  | nil => rfl
  | cons p m ih =>
    obtain ⟨b, w⟩ := p
    simp only [Memory.set]
    split
    · simp only [Memory.get?_cons]
    · split
      · subst a
        simp only [Memory.get?_cons]
        split <;> rfl
      · simp only [Memory.get?_cons, ih]
        split
        · rw [if_neg (by omega)]
        · rfl

theorem Memory.get?_of_lt {m : Memory} {b : Nat} (h : ∀ p ∈ m, b < p.1) {a : Nat} (ha : a ≤ b) : m.get? a = none := by
  induction m with
  | nil => rfl
  | cons p m ih =>
    have hp := h p (by simp)
    obtain ⟨x, w⟩ := p
    rw [Memory.get?_cons, if_neg (by simp only at hp; omega)]
    exact ih fun q hq => h q (by simp [hq])

/-- Equal contents in canonical form are equal data. -/
theorem Memory.ext_of_wf : ∀ {m n : Memory}, m.wf → n.wf → (∀ a, m.get? a = n.get? a) → m = n
  | [], [], _, _, _ => rfl
  | [], (b, w) :: n, _, _, h => by simpa [Memory.get?_cons] using h b
  | (b, w) :: m, [], _, _, h => by simpa [Memory.get?_cons] using h b
  | (b, w) :: m, (b', w') :: n, hm, hn, h => by
    rw [Memory.wf, List.pairwise_cons] at hm hn
    obtain rfl : b = b' := by
      rcases Nat.lt_trichotomy b b' with hlt | rfl | hlt
      · have := h b
        rw [Memory.get?_cons, if_pos rfl, Memory.get?_cons, if_neg (by omega), Memory.get?_of_lt hn.1 (by omega)] at this
        cases this
      · rfl
      · have := h b'
        rw [Memory.get?_cons, if_neg (by omega), Memory.get?_cons, if_pos rfl, Memory.get?_of_lt hm.1 (by omega)] at this
        cases this
    obtain rfl : w = w' := by simpa [Memory.get?_cons] using h b
    congr 1
    refine Memory.ext_of_wf hm.2 hn.2 fun a => ?_
    have := h a
    rw [Memory.get?_cons, Memory.get?_cons] at this
    by_cases hab : b = a
    · subst hab
      rw [Memory.get?_of_lt hm.1 (by omega), Memory.get?_of_lt hn.1 (by omega)]
    · simpa [hab] using this

theorem Memory.mem_set {m : Memory} {a : Nat} {v : Byte} {p : Nat × Byte} (h : p ∈ m.set a v) :
    p = (a, v) ∨ p ∈ m := by
  induction m with
  | nil => exact .inl (by simpa [Memory.set] using h)
  | cons q m ih =>
    obtain ⟨b, w⟩ := q
    simp only [Memory.set] at h
    split at h
    · simpa using h
    · split at h
      · rcases List.mem_cons.mp h with h | h
        · exact .inl h
        · exact .inr (List.mem_cons_of_mem _ h)
      · rcases List.mem_cons.mp h with h | h
        · exact .inr (by simp [h])
        · exact (ih h).imp id (List.mem_cons_of_mem _)

theorem Memory.set_wf {m : Memory} (hm : m.wf) (a : Nat) (v : Byte) : (m.set a v).wf := by
  induction m with
  | nil => simp [Memory.set, Memory.wf]
  | cons q m ih =>
    obtain ⟨b, w⟩ := q
    obtain ⟨hb, hm'⟩ := List.pairwise_cons.mp hm
    simp only [Memory.set]
    split
    · refine List.pairwise_cons.mpr ⟨fun p hp => ?_, hm⟩
      rcases List.mem_cons.mp hp with rfl | hp
      · assumption
      · have := hb p hp
        simp only at this ⊢
        omega
    · split
      · subst a
        exact List.pairwise_cons.mpr ⟨hb, hm'⟩
      · refine List.pairwise_cons.mpr ⟨fun p hp => ?_, ih hm'⟩
        rcases Memory.mem_set hp with rfl | hp
        · simp only
          omega
        · exact hb p hp

theorem Memory.set_below {m : Memory} {n : Nat} (hm : m.below n) {a : Nat} (ha : a < n) (v : Byte) :
    (m.set a v).below n := by
  intro p hp
  rcases Memory.mem_set hp with rfl | hp
  · exact ha
  · exact hm p hp

theorem Memory.setWord_wf {m : Memory} (hm : m.wf) (a : Nat) (v : Word) : (m.setWord a v).wf :=
  Memory.set_wf (Memory.set_wf (Memory.set_wf (Memory.set_wf hm _ _) _ _) _ _) _ _

theorem Memory.setWord_below {m : Memory} {n : Nat} (hm : m.below n) {a : Nat} (ha : a + 4 ≤ n) (v : Word) :
    (m.setWord a v).below n :=
  Memory.set_below (Memory.set_below (Memory.set_below (Memory.set_below hm (by omega) _) (by omega) _)
    (by omega) _) (by omega) _

/-- A stored word reads back octet by octet, and no other octet changes (R251). -/
theorem Memory.get?_setWord (m : Memory) (a : Nat) (v : Word) (i : Nat) :
    (m.setWord a v).get? i =
      if a ≤ i ∧ i < a + 4 then some (lane v (i - a)) else m.get? i := by
  simp only [Memory.setWord, Memory.get?_set]
  by_cases h3 : a + 3 = i
  · subst i; simp [lane]
  · by_cases h2 : a + 2 = i
    · subst i; simp [lane]
    · by_cases h1 : a + 1 = i
      · subst i; simp [lane]
      · by_cases h0 : a = i
        · subst i; simp [lane]
        · rw [if_neg h3, if_neg h2, if_neg h1, if_neg h0, if_neg (by omega)]

theorem Memory.get?_ofBytes (a : Nat) (f : List Byte) (i : Nat) :
    (Memory.ofBytes a f).get? i = if a ≤ i then f[i - a]? else none := by
  induction f generalizing a with
  | nil => simp [Memory.ofBytes]
  | cons b f ih =>
    simp only [Memory.ofBytes, Memory.get?_cons, ih]
    by_cases h : a = i
    · subst i; simp
    · rw [if_neg h]
      by_cases h' : a ≤ i
      · rw [if_pos h', if_pos (by omega), show i - a = (i - (a + 1)) + 1 by omega]
        simp
      · rw [if_neg h', if_neg (by omega)]

theorem Memory.mem_ofBytes {a : Nat} {f : List Byte} {p : Nat × Byte} (h : p ∈ Memory.ofBytes a f) :
    a ≤ p.1 ∧ p.1 < a + f.length := by
  induction f generalizing a with
  | nil => simp [Memory.ofBytes] at h
  | cons b f ih =>
    rcases List.mem_cons.mp h with rfl | h
    · simp
    · have := ih h
      simp only [List.length_cons]
      omega

theorem Memory.ofBytes_wf (a : Nat) (f : List Byte) : (Memory.ofBytes a f).wf := by
  induction f generalizing a with
  | nil => exact List.Pairwise.nil
  | cons b f ih =>
    refine List.pairwise_cons.mpr ⟨fun p hp => ?_, ih (a + 1)⟩
    have := Memory.mem_ofBytes hp
    simp only
    omega

theorem Memory.ofBytes_below {n : Nat} (f : List Byte) (h : f.length ≤ n) : (Memory.ofBytes 0 f).below n := by
  intro p hp
  have := Memory.mem_ofBytes hp
  omega

/-- The buffers list nothing at reset, so they have the canonical form. -/
theorem reset_buffers_wf (c : Config) : (State.resetWith c).rxBuf.wf ∧ (State.resetWith c).txBuf.wf :=
  ⟨List.Pairwise.nil, List.Pairwise.nil⟩

/-- What a TXBUF write does to the octets that would be sent (R251). -/
theorem State.txByte_setTxWord (s : State) (k : Nat) (v : Word) (i : Nat) :
    (s.setTxWord k v).txByte i = if 4 * k ≤ i ∧ i < 4 * k + 4 then lane v (i - 4 * k) else s.txByte i := by
  simp only [State.txByte, State.setTxWord_txBuf, Memory.get?_setWord]
  split <;> rfl

end Sys2Proof.Machine
end

