-- ==== Sys2Proof/Laws/Decode.lean ====
section
/-! SUPPORT. The fields of the MDIO command words, the window of an address, and the target a location selects. -/

namespace Sys2Proof

section Fields

variable (c : Config) (phy reg : BitVec 5) (data : Half)

theorem getLsbD_writeWord (i : Nat) : (c.writeWord phy reg data).getLsbD i =
    if i < 16 then data.getLsbD i else if i < 18 then c.turnaround.getLsbD (i - 16)
    else if i < 23 then reg.getLsbD (i - 18) else if i < 28 then phy.getLsbD (i - 23)
    else c.writeOpcode.getLsbD (i - 28) := by
  change BitVec.getLsbD (w := 4 + 5 + 5 + 2 + 16) (c.writeOpcode ++ phy ++ reg ++ c.turnaround ++ data) i = _
  simp only [BitVec.getLsbD_append]
  repeat' split
  all_goals first | rfl | (exfalso; omega)

theorem getLsbD_readWord (i : Nat) : (c.readWord phy reg).getLsbD i =
    if i < 4 then c.readOpcode.getLsbD i else if i < 9 then phy.getLsbD (i - 4)
    else if i < 14 then reg.getLsbD (i - 9) else if i < 16 then c.turnaround.getLsbD (i - 14)
    else false := by
  change BitVec.getLsbD (w := 16 + 2 + 5 + 5 + 4) (0#16 ++ c.turnaround ++ reg ++ phy ++ c.readOpcode) i = _
  simp only [BitVec.getLsbD_append]
  repeat' split
  all_goals first | rfl | (exfalso; omega) | simp

theorem extract_eq {n m : Nat} {w : BitVec n} {start : Nat} {x : BitVec m}
    (h : ∀ i, i < m → w.getLsbD (start + i) = x.getLsbD i) : w.extractLsb' start m = x := by
  ext i hi
  rw [BitVec.getElem_extractLsb', h i hi, BitVec.getLsbD_eq_getElem hi]

theorem getLsbD_of_extract {n m : Nat} {w : BitVec n} {start : Nat} {x : BitVec m}
    (h : w.extractLsb' start m = x) {i : Nat} (hs : start ≤ i) (hi : i < start + m) :
    w.getLsbD i = x.getLsbD (i - start) := by
  subst h
  rw [BitVec.getLsbD_extractLsb', show start + (i - start) = i by omega]
  simp [show i - start < m by omega]

@[simp] theorem writePhy_writeWord : writePhy (c.writeWord phy reg data) = phy :=
  extract_eq fun i hi => by
    rw [getLsbD_writeWord, if_neg (by omega), if_neg (by omega), if_neg (by omega), if_pos (by omega),
      Nat.add_sub_cancel_left]

@[simp] theorem writeReg_writeWord : writeReg (c.writeWord phy reg data) = reg :=
  extract_eq fun i hi => by
    rw [getLsbD_writeWord, if_neg (by omega), if_neg (by omega), if_pos (by omega), Nat.add_sub_cancel_left]

@[simp] theorem writeTa_writeWord : writeTa (c.writeWord phy reg data) = c.turnaround :=
  extract_eq fun i hi => by
    rw [getLsbD_writeWord, if_neg (by omega), if_pos (by omega), Nat.add_sub_cancel_left]

@[simp] theorem writeData_writeWord : writeData (c.writeWord phy reg data) = data :=
  extract_eq fun i hi => by rw [getLsbD_writeWord, if_pos (by omega), Nat.zero_add]

@[simp] theorem readTa_readWord : readTa (c.readWord phy reg) = c.turnaround :=
  extract_eq fun i hi => by
    rw [getLsbD_readWord, if_neg (by omega), if_neg (by omega), if_neg (by omega), if_pos (by omega),
      Nat.add_sub_cancel_left]

@[simp] theorem readReg_readWord : readReg (c.readWord phy reg) = reg :=
  extract_eq fun i hi => by
    rw [getLsbD_readWord, if_neg (by omega), if_neg (by omega), if_pos (by omega), Nat.add_sub_cancel_left]

@[simp] theorem readPhy_readWord : readPhy (c.readWord phy reg) = phy :=
  extract_eq fun i hi => by
    rw [getLsbD_readWord, if_neg (by omega), if_pos (by omega), Nat.add_sub_cancel_left]

@[simp] theorem writeForm_writeWord : c.writeForm (c.writeWord phy reg data) = true := by
  have h : (c.writeWord phy reg data).extractLsb' 28 4 = c.writeOpcode :=
    extract_eq fun i hi => by
      rw [getLsbD_writeWord, if_neg (by omega), if_neg (by omega), if_neg (by omega), if_neg (by omega),
        Nat.add_sub_cancel_left]
  have h' : (c.writeWord phy reg data).extractLsb' 16 2 = c.turnaround := writeTa_writeWord c phy reg data
  simp [Config.writeForm, h, h']

@[simp] theorem readForm_readWord : c.readForm (c.readWord phy reg) = true := by
  have h : (c.readWord phy reg).extractLsb' 16 16 = 0#16 :=
    extract_eq fun i hi => by
      rw [getLsbD_readWord, if_neg (by omega), if_neg (by omega), if_neg (by omega), if_neg (by omega)]
      simp
  have h' : (c.readWord phy reg).extractLsb' 0 4 = c.readOpcode :=
    extract_eq fun i hi => by rw [getLsbD_readWord, if_pos (by omega), Nat.zero_add]
  have h'' : (c.readWord phy reg).extractLsb' 14 2 = c.turnaround := readTa_readWord c phy reg
  simp [Config.readForm, h, h', h'']

/-- A write-form word is put together from its fields (R112, R117). -/
theorem writeWord_fields {w : Word} (h : c.writeForm w = true) :
    c.writeWord (writePhy w) (writeReg w) (writeData w) = w := by
  simp only [Config.writeForm, Bool.and_eq_true, beq_iff_eq] at h
  refine BitVec.eq_of_getLsbD_eq fun i hi => ?_
  rw [getLsbD_writeWord]
  split
  · rename_i hlt
    simp [writeData, hlt]
  · split
    · rw [getLsbD_of_extract h.2 (by omega) (by omega)]
    · split
      · rw [writeReg, ← getLsbD_of_extract rfl (by omega) (by omega)]
      · split
        · rw [writePhy, ← getLsbD_of_extract rfl (by omega) (by omega)]
        · rw [getLsbD_of_extract h.1 (by omega) (by omega)]

/-- A read-form word is put together from its fields (R113, R117). -/
theorem readWord_fields {w : Word} (h : c.readForm w = true) :
    c.readWord (readPhy w) (readReg w) = w := by
  simp only [Config.readForm, Bool.and_eq_true, beq_iff_eq] at h
  obtain ⟨⟨hz, ho⟩, ht⟩ := h
  refine BitVec.eq_of_getLsbD_eq fun i hi => ?_
  rw [getLsbD_readWord]
  split
  · rw [getLsbD_of_extract ho (by omega) (by omega)]
    rfl
  · split
    · rw [readPhy, ← getLsbD_of_extract rfl (by omega) (by omega)]
    · split
      · rw [readReg, ← getLsbD_of_extract rfl (by omega) (by omega)]
      · split
        · rw [getLsbD_of_extract ht (by omega) (by omega)]
        · rw [getLsbD_of_extract hz (by omega) (by omega)]
          simp

end Fields

/-! The constraints of a valid instantiation, taken apart. -/

section Valid

variable {c : Config}

theorem Config.valid_parts (h : c.valid = true) :
    c.windowsOk = true ∧ (∀ r, c.regOk r = true) ∧ c.bufOk c.rxBuf = true ∧ c.bufOk c.txBuf = true
      ∧ c.bufSizesOk = true ∧ c.regsApart = true ∧ c.bufsApart = true ∧ c.codesOk = true
      ∧ c.bringupOk = true := by
  simp only [Config.valid, Bool.and_eq_true] at h
  obtain ⟨⟨⟨⟨⟨⟨⟨⟨h1, h2⟩, h3⟩, h4⟩, h5⟩, h6⟩, h7⟩, h8⟩, h9⟩ := h
  refine ⟨h1, fun r => ?_, h3, h4, h5, h6, h7, h8, h9⟩
  exact List.all_eq_true.mp h2 r (by cases r <;> decide)

theorem Reg.mem_all (r : Reg) : r ∈ Reg.all := by cases r <;> decide

/-- Two registers at one place may share it (R25). -/
theorem Config.mayShare_of_loc (h : c.valid = true) {r r' : Reg} (hl : c.loc r = c.loc r') (hne : r ≠ r') :
    c.mayShare r r' = true := by
  have h6 := (Config.valid_parts h).2.2.2.2.2.1
  simp only [Config.regsApart, List.all_eq_true] at h6
  simpa [hne, hl] using h6 r (Reg.mem_all r) r' (Reg.mem_all r')

/-- Two registers that both admit a direction lie apart, but for the shared read word (R25). -/
theorem Config.reg_unique (h : c.valid = true) {r r' : Reg} {d : Dir} (hr : r.admits d = true)
    (hr' : r'.admits d = true) (hl : c.loc r = c.loc r') :
    r = r' ∨ (r = .mdioStat ∧ r' = .mdioData) ∨ (r = .mdioData ∧ r' = .mdioStat) := by
  by_cases hne : r = r'
  · exact .inl hne
  · have := Config.mayShare_of_loc h hl hne
    cases d <;> simp [Config.mayShare, hr, hr'] at this <;> tauto

theorem Config.reg_not_in_buf (h : c.valid = true) (r : Reg) :
    c.rxBuf.holds (c.loc r).win (c.loc r).off = false ∧ c.txBuf.holds (c.loc r).win (c.loc r).off = false := by
  have h7 := (Config.valid_parts h).2.2.2.2.2.2.1
  simp only [Config.bufsApart, Bool.and_eq_true, List.all_eq_true] at h7
  simpa using h7.1 r (Reg.mem_all r)

/-- The bounds R6 and log 13 put on a register's place. -/
theorem Config.loc_bounds (h : c.valid = true) (r : Reg) :
    (c.loc r).off % 4 = 0 ∧ (c.loc r).off + 4 ≤ c.size (c.loc r).win := by
  simpa [Config.regOk] using (Config.valid_parts h).2.1 r

theorem Config.rxBuf_bounds (h : c.valid = true) :
    c.rxBuf.off % 4 = 0 ∧ c.rxBuf.bytes % 4 = 0 ∧ c.rxBuf.off + c.rxBuf.bytes ≤ c.size c.rxBuf.win := by
  simpa [Config.bufOk] using (Config.valid_parts h).2.2.1

theorem Config.txBuf_bounds (h : c.valid = true) :
    c.txBuf.off % 4 = 0 ∧ c.txBuf.bytes % 4 = 0 ∧ c.txBuf.off + c.txBuf.bytes ≤ c.size c.txBuf.win := by
  simpa [Config.bufOk] using (Config.valid_parts h).2.2.2.1

theorem Config.buf_sizes (h : c.valid = true) :
    crcBytes < c.rxBuf.bytes ∧ c.rxBuf.bytes < 2 ^ 32 ∧ 4 ≤ c.txBuf.bytes := by
  simpa [Config.bufSizesOk] using (Config.valid_parts h).2.2.2.2.1

theorem Config.base_aligned (h : c.valid = true) (w : Window) : c.base w % 4 = 0 := by
  have h1 := (Config.valid_parts h).1
  simp only [Config.windowsOk, decide_eq_true_eq] at h1
  cases w <;> simp [Config.base, h1.1, h1.2.1]

/-- An offset inside a window is found again from its address (R75). -/
theorem Config.window?_base (h : c.valid = true) {w : Window} {off : Nat} (ho : off < c.size w) :
    c.window? (c.base w + off) = some (w, off) := by
  have h1 := (Config.valid_parts h).1
  simp only [Config.windowsOk, decide_eq_true_eq] at h1
  cases w with
  | mdio =>
    change c.window? (c.baseMdio + off) = _
    change off < c.sizeMdio at ho
    rw [Config.window?, if_pos (by omega), Nat.add_sub_cancel_left]
  | pkt =>
    change c.window? (c.basePkt + off) = _
    change off < c.sizePkt at ho
    rw [Config.window?, if_neg (by omega), if_pos (by omega), Nat.add_sub_cancel_left]

/-- The address of an offset of a window is where the window says (R75). -/
theorem Config.base_of_window? {a off : Nat} {w : Window} (h : c.window? a = some (w, off)) :
    a = c.base w + off ∧ off < c.size w := by
  simp only [Config.window?] at h
  split at h
  · obtain ⟨rfl, rfl⟩ := by simpa using h
    simp only [Config.base, Config.size]
    omega
  · split at h
    · obtain ⟨rfl, rfl⟩ := by simpa using h
      simp only [Config.base, Config.size]
      omega
    · exact absurd h (by simp)

/-- What lies at an offset (R75). -/
theorem Config.mem_targetsAt {w : Window} {off : Nat} {t : Target} :
    t ∈ c.targetsAt w off ↔
      (∃ r, t = .reg r ∧ c.loc r = ⟨w, off⟩)
        ∨ (c.rxBuf.holds w off = true ∧ t = .rxWord ((off - c.rxBuf.off) / 4))
        ∨ (c.txBuf.holds w off = true ∧ t = .txWord ((off - c.txBuf.off) / 4)) := by
  simp only [Config.targetsAt, List.mem_append, List.mem_map, List.mem_filter, beq_iff_eq]
  constructor
  · rintro ((⟨r, ⟨-, h⟩, rfl⟩ | h) | h)
    · exact .inl ⟨r, rfl, h⟩
    · split at h <;> simp_all
    · split at h <;> simp_all
  · rintro (⟨r, rfl, h⟩ | ⟨h, rfl⟩ | ⟨h, rfl⟩)
    · exact .inl (.inl ⟨r, ⟨Reg.mem_all r, h⟩, rfl⟩)
    · exact .inl (.inr (by simp [h]))
    · exact .inr (by simp [h])

/-- Whatever is selected lies at the offset and admits the direction (R75). -/
theorem Config.select_ok {w : Window} {off : Nat} {d : Dir} {t : Target} (h : c.select w off d = .ok t) :
    t ∈ c.targetsAt w off ∧ t.admits d = true := by
  simp only [Config.select] at h
  split at h
  · exact absurd h (by simp)
  · rename_i t0 ts heq
    split at h
    · rename_i x hx
      obtain rfl : x = t := by simpa using h
      exact ⟨heq ▸ List.mem_of_find?_eq_some hx, by simpa using List.find?_some hx⟩
    · exact absurd h (by simp)

/-- Something is selected where something of the direction lies (R75). -/
theorem Config.select_of_mem {w : Window} {off : Nat} {d : Dir} {t : Target} (ht : t ∈ c.targetsAt w off)
    (hd : t.admits d = true) : ∃ x, c.select w off d = .ok x := by
  simp only [Config.select]
  split
  · rename_i heq
    simp [heq] at ht
  · rename_i t0 ts heq
    rw [heq] at ht
    cases hf : (t0 :: ts).find? (fun x => x.admits d) with
    | some x => exact ⟨x, rfl⟩
    | none => exact absurd hd (by simpa using List.find?_eq_none.mp hf t ht)

end Valid

end Sys2Proof
end

