-- ==== Sys2Proof/Laws/Ops.lean ====
section
/-! SUPPORT. Once for each shared operation, meaning and step: everything it can do when it answers a next state. -/

namespace Sys2Proof.Machine

/-! The data words. -/

theorem getLsbD_putBit (v : Word) (i : Fin 32) (b : Bool) (j : Nat) :
    (putBit v i b).getLsbD j = if j = i.val then b else v.getLsbD j := by
  have hi := i.isLt
  by_cases hj : j < 32
  · by_cases h : j = i.val
    · subst h
      cases b <;> simp [putBit]
    · rw [if_neg h]
      cases b <;> simp only [putBit, Bool.false_eq_true, ↓reduceIte]
      · simp [hj]
        omega
      · simp [hj]
        omega
  · rw [BitVec.getLsbD_of_ge _ _ (by omega), BitVec.getLsbD_of_ge _ _ (by omega), if_neg (by omega)]

theorem getLsbD_putLow_some (v : Word) (d : Half) (j : Nat) :
    (putLow v (some d)).getLsbD j = if j < 16 then d.getLsbD j else v.getLsbD j := by
  change BitVec.getLsbD (w := 16 + 16) (v.extractLsb' 16 16 ++ d) j = _
  simp only [BitVec.getLsbD_append]
  by_cases h : j < 16
  · rw [if_pos h, if_pos h]
  · rw [if_neg h, if_neg h, BitVec.getLsbD_extractLsb']
    by_cases h' : j < 32
    · simp [show j - 16 < 16 by omega, show 16 + (j - 16) = j by omega]
    · rw [BitVec.getLsbD_of_ge v j (by omega)]
      simp
      omega

@[simp] theorem putLow_none (v : Word) : putLow v none = v := rfl

theorem getLsbD_ofLanes (b0 b1 b2 b3 : Byte) (i : Nat) : (ofLanes b0 b1 b2 b3).getLsbD i =
    if i < 8 then b0.getLsbD i else if i < 16 then b1.getLsbD (i - 8)
    else if i < 24 then b2.getLsbD (i - 16) else b3.getLsbD (i - 24) := by
  change BitVec.getLsbD (w := 8 + 8 + 8 + 8) (b3 ++ b2 ++ b1 ++ b0) i = _
  simp only [BitVec.getLsbD_append]
  repeat' split
  all_goals first | rfl | (exfalso; omega)

@[simp] theorem lane_ofLanes_zero (b0 b1 b2 b3 : Byte) : lane (ofLanes b0 b1 b2 b3) 0 = b0 :=
  extract_eq fun i hi => by rw [getLsbD_ofLanes, if_pos (by omega)]; congr 1; omega

@[simp] theorem lane_ofLanes_one (b0 b1 b2 b3 : Byte) : lane (ofLanes b0 b1 b2 b3) 1 = b1 :=
  extract_eq fun i hi => by rw [getLsbD_ofLanes, if_neg (by omega), if_pos (by omega)]; congr 1; omega

@[simp] theorem lane_ofLanes_two (b0 b1 b2 b3 : Byte) : lane (ofLanes b0 b1 b2 b3) 2 = b2 :=
  extract_eq fun i hi => by
    rw [getLsbD_ofLanes, if_neg (by omega), if_neg (by omega), if_pos (by omega)]; congr 1; omega

@[simp] theorem lane_ofLanes_three (b0 b1 b2 b3 : Byte) : lane (ofLanes b0 b1 b2 b3) 3 = b3 :=
  extract_eq fun i hi => by
    rw [getLsbD_ofLanes, if_neg (by omega), if_neg (by omega), if_neg (by omega)]; congr 1; omega

/-! The meanings. -/

variable {s t : State}

theorem readValue_next {v : Word} : readValue v s = .next t ↔ t = s.returning v := by
  simp [readValue, eq_comm]

theorem readDrawn_next {f : Word → Word} :
    readDrawn f s = .next t ↔ t = s.drawn.returning (f s.nextDraw) := by
  simp [readDrawn, eq_comm]

theorem execWrMdioCmdW_next {phy reg : BitVec 5} {data : Half} :
    execWrMdioCmdW phy reg data s = .next t ↔ s.mdioPhase ≠ .busy ∧
      t = (s.setMdioCmd (s.cfg.writeWord phy reg data)).startTxn (.write phy reg s.cfg.turnaround data) := by
  unfold execWrMdioCmdW
  split <;> simp_all [eq_comm]

theorem execWrMdioCmdR_next {phy reg : BitVec 5} :
    execWrMdioCmdR phy reg s = .next t ↔ s.mdioPhase ≠ .busy ∧
      t = (s.setMdioCmd (s.cfg.readWord phy reg)).arm := by
  unfold execWrMdioCmdR
  split <;> simp_all [eq_comm]

theorem execWrMdioCtrlStart_next :
    execWrMdioCtrlStart s = .next t ↔ s.mdioPhase = .armed ∧
      t = s.startTxn (.read (readPhy s.mdioCmd) (readReg s.mdioCmd) (readTa s.mdioCmd)) := by
  unfold execWrMdioCtrlStart
  cases h : s.mdioPhase <;> simp [eq_comm (a := t)]

theorem execRdRxbuf_next {k : Nat} :
    execRdRxbuf k s = .next t ↔ k < s.cfg.rxBuf.bytes / 4 ∧
      t = s.drawn.returning (s.rxBufWord k s.nextDraw) := by
  unfold execRdRxbuf
  split <;> simp_all [readDrawn_next]

theorem execWrRxAck1_next :
    execWrRxAck1 s = .next t ↔
      (s.rxPhase = .full ∧ t = (s.setRxPhase .empty).record .frameReleased)
        ∨ (s.rxPhase = .empty ∧ s.cfg.ackEmpty = .ignore ∧ t = s) := by
  unfold execWrRxAck1
  cases h : s.rxPhase <;> cases h' : s.cfg.ackEmpty <;> simp [eq_comm (a := t)]

theorem execWrTxbuf_next {k : Nat} {v : Word} :
    execWrTxbuf k v s = .next t ↔ k < s.cfg.txBuf.bytes / 4 ∧ s.txPhase ≠ .sending ∧ t = s.setTxWord k v := by
  unfold execWrTxbuf
  split
  · split <;> simp_all [eq_comm]
  · simp_all

theorem execWrTxLen_next {n : Word} :
    execWrTxLen n s = .next t ↔ s.txPhase ≠ .sending ∧ t = s.setTxLen n := by
  unfold execWrTxLen
  split <;> simp_all [eq_comm]

theorem execWrTxSend1_next :
    execWrTxSend1 s = .next t ↔ s.txPhase ≠ .sending ∧ s.txLen ≠ 0#32 ∧ s.txLen.toNat ≤ s.cfg.txBuf.bytes ∧
      t = (s.setTxDone false).setTxPhase .sending := by
  unfold execWrTxSend1
  split
  · rename_i h
    simp [h]
  · rename_i h
    split
    · rename_i h'
      simp only [reduceCtorEq, false_iff]
      rintro ⟨-, h1, h2, -⟩
      rcases h' with h' | h'
      · exact h1 h'
      · omega
    · rename_i h'
      simp only [not_or, not_lt] at h'
      simp only [Host.Outcome.next.injEq, h'.1, h'.2, h, ne_eq, not_false_eq_true, true_and, eq_comm (a := t)]

/-! The engine steps. -/

theorem mdioComplete_cases (answer : Half) (s : State) :
    (∃ phy reg ta data, s.mdioPhase = .busy ∧ s.mdioTxn = some (.write phy reg ta data) ∧
        mdioComplete answer s = s.endTxn.record (.mdioWriteTxn phy reg ta data))
      ∨ (∃ phy reg ta, s.mdioPhase = .busy ∧ s.mdioTxn = some (.read phy reg ta) ∧
        mdioComplete answer s = (s.endTxn.setRdata answer).record (.mdioReadTxn phy reg ta answer))
      ∨ ((s.mdioPhase ≠ .busy ∨ s.mdioTxn = none) ∧ mdioComplete answer s = s) := by
  unfold mdioComplete
  split
  · exact .inl ⟨_, _, _, _, by assumption, by assumption, rfl⟩
  · exact .inr (.inl ⟨_, _, _, by assumption, by assumption, rfl⟩)
  · rename_i h1 h2
    refine .inr (.inr ⟨?_, rfl⟩)
    by_cases hb : s.mdioPhase = .busy
    · right
      cases ht : s.mdioTxn with
      | none => rfl
      | some x =>
        cases x with
        | write phy reg ta data => exact absurd ht (h1 phy reg ta data hb)
        | read phy reg ta => exact absurd ht (h2 phy reg ta hb)
    · exact .inl hb

theorem dropFrame_cases (s : State) :
    dropFrame s = s.drawn.record .frameDropped ∨ dropFrame s = countBadFrame (s.drawn.record .frameDropped) := by
  unfold dropFrame
  split
  · exact .inr rfl
  · exact .inl rfl

theorem receiveFrame_next {f : List Byte} :
    receiveFrame f s = .next t ↔ crcBytes ≤ f.length ∧ f.length ≤ s.cfg.rxBuf.bytes ∧
      ((s.rxPhase = .empty ∧ t = stageFrame f s) ∨ (s.rxPhase = .full ∧ t = dropFrame s)) := by
  unfold receiveFrame
  split
  · rename_i hb
    cases h : s.rxPhase <;> simp [hb, eq_comm (a := t)]
  · rename_i hb
    simp only [reduceCtorEq, false_iff]
    rintro ⟨h1, h2, -⟩
    exact hb ⟨h1, h2⟩

theorem txComplete_cases (s : State) :
    (s.txPhase = .sending ∧
        txComplete s = ((s.record (.frameSent s.txFrame)).setTxDone true).setTxPhase .idle)
      ∨ (s.txPhase = .idle ∧ txComplete s = s) := by
  unfold txComplete
  split
  · exact .inl ⟨by assumption, rfl⟩
  · exact .inr ⟨by assumption, rfl⟩

/-! The port and the step. -/

theorem hostOp_of_decode {op : BusOp} {i : Instr} (h : decode s.cfg op = .ok i) : hostOp op s = exec i s := by
  simp [hostOp, h]

theorem hostOp_next {op : BusOp} :
    hostOp op s = .next t ↔ ∃ i, decode s.cfg op = .ok i ∧ exec i s = .next t := by
  unfold hostOp
  split <;> simp_all

/-- What one step can do: nothing is on the agenda, or the first agent on it acts. -/
theorem step_next : step s = .next t ↔
    (s.agenda = [] ∧ t = s) ∨ ∃ a rest, s.agenda = a :: rest ∧ act a { s with agenda := rest } = .next t := by
  unfold step runNext
  split <;> simp_all [eq_comm]

end Sys2Proof.Machine
end

