-- ==== Sys2Proof/Laws/Select.lean ====
section
/-! SUPPORT. Which target each register and buffer word is selected as, and so what a read or write of it decodes to. -/

namespace Sys2Proof

variable {c : Config}

theorem Config.loc_mem_targetsAt (r : Reg) : Target.reg r ∈ c.targetsAt (c.loc r).win (c.loc r).off :=
  Config.mem_targetsAt.mpr (.inl ⟨r, rfl, rfl⟩)

/-- MDIO_STAT comes before MDIO_DATA where they are one read word (R25). -/
theorem Config.select_stat (c : Config) : c.select c.mdioStat.win c.mdioStat.off .read = .ok (.reg .mdioStat) := by
  have hst : (c.loc .mdioStat == (⟨c.mdioStat.win, c.mdioStat.off⟩ : Loc)) = true := by simp [Config.loc]
  cases hc : (c.loc .mdioCtrl == (⟨c.mdioStat.win, c.mdioStat.off⟩ : Loc)) <;>
    simp [Config.select, Config.targetsAt, Reg.all, List.filter_cons, hc, hst, Target.admits, Reg.admits]

/-- Under a valid instantiation a register is selected at its own place, but MDIO_DATA in a shared word. -/
theorem Config.select_reg (h : c.valid = true) {r : Reg} {d : Dir} (ha : r.admits d = true)
    (hne : r = .mdioData → c.mdioStat ≠ c.mdioData) :
    c.select (c.loc r).win (c.loc r).off d = .ok (.reg r) := by
  obtain ⟨x, hx⟩ := Config.select_of_mem (c := c) (Config.loc_mem_targetsAt r) (d := d) ha
  obtain ⟨hm, hd⟩ := Config.select_ok hx
  rcases Config.mem_targetsAt.mp hm with ⟨r', rfl, hl⟩ | ⟨hb, -⟩ | ⟨hb, -⟩
  · rcases Config.reg_unique h ha hd hl.symm with rfl | ⟨rfl, rfl⟩ | ⟨rfl, rfl⟩
    · exact hx
    · cases d with
      | read => exact c.select_stat
      | write => simp [Reg.admits] at ha
    · exact absurd hl (hne rfl)
  · simp [(Config.reg_not_in_buf h r).1] at hb
  · simp [(Config.reg_not_in_buf h r).2] at hb

theorem Config.bufs_disjoint (h : c.valid = true) : c.rxBuf.win ≠ c.txBuf.win
    ∨ c.rxBuf.off + c.rxBuf.bytes ≤ c.txBuf.off ∨ c.txBuf.off + c.txBuf.bytes ≤ c.rxBuf.off := by
  have h7 := (Config.valid_parts h).2.2.2.2.2.2.1
  simp only [Config.bufsApart, Bool.and_eq_true, decide_eq_true_eq] at h7
  exact h7.2

theorem BufLoc.holds_iff {b : BufLoc} {w : Window} {off : Nat} :
    b.holds w off = true ↔ b.win = w ∧ b.off ≤ off ∧ off < b.off + b.bytes := by
  simp [BufLoc.holds, and_assoc]

/-- What lies at word `k` of the receive buffer: that word and nothing else. -/
theorem Config.targetsAt_rxWord (h : c.valid = true) {k : Nat} (hk : k < c.rxBuf.bytes / 4) {t : Target}
    (ht : t ∈ c.targetsAt c.rxBuf.win (c.rxBuf.off + 4 * k)) : t = .rxWord k := by
  have hh : c.rxBuf.holds c.rxBuf.win (c.rxBuf.off + 4 * k) = true := BufLoc.holds_iff.mpr ⟨rfl, by omega, by omega⟩
  rcases Config.mem_targetsAt.mp ht with ⟨r, rfl, hl⟩ | ⟨-, rfl⟩ | ⟨hb, -⟩
  · have := (Config.reg_not_in_buf h r).1
    rw [hl] at this
    simp only at this
    rw [hh] at this
    cases this
  · congr 1
    omega
  · have := BufLoc.holds_iff.mp hb
    rcases Config.bufs_disjoint h with hd | hd | hd
    · exact absurd this.1.symm hd
    · omega
    · omega

/-- What lies at word `k` of the transmit buffer: that word and nothing else. -/
theorem Config.targetsAt_txWord (h : c.valid = true) {k : Nat} (hk : k < c.txBuf.bytes / 4) {t : Target}
    (ht : t ∈ c.targetsAt c.txBuf.win (c.txBuf.off + 4 * k)) : t = .txWord k := by
  have hh : c.txBuf.holds c.txBuf.win (c.txBuf.off + 4 * k) = true := BufLoc.holds_iff.mpr ⟨rfl, by omega, by omega⟩
  rcases Config.mem_targetsAt.mp ht with ⟨r, rfl, hl⟩ | ⟨hb, -⟩ | ⟨-, rfl⟩
  · have := (Config.reg_not_in_buf h r).2
    rw [hl] at this
    simp only at this
    rw [hh] at this
    cases this
  · have := BufLoc.holds_iff.mp hb
    rcases Config.bufs_disjoint h with hd | hd | hd
    · exact absurd this.1 hd
    · omega
    · omega
  · congr 1
    omega

/-- Selection where one target lies: that target, or X2. -/
theorem Config.select_only {w : Window} {off : Nat} {d : Dir} {t : Target}
    (hne : t ∈ c.targetsAt w off) (h : ∀ x ∈ c.targetsAt w off, x = t) :
    c.select w off d = if t.admits d = true then .ok t else .error (.wrongDirection t d) := by
  split
  · rename_i ha
    obtain ⟨x, hx⟩ := Config.select_of_mem hne ha
    rw [hx, h x (Config.select_ok hx).1]
  · rename_i ha
    simp only [Config.select]
    cases htl : c.targetsAt w off with
    | nil => simp [htl] at hne
    | cons y ys =>
      have hy : y = t := h y (by simp [htl])
      have hnone : (y :: ys).find? (fun x => x.admits d) = none :=
        List.find?_eq_none.mpr fun x hx => by rw [h x (htl ▸ hx)]; exact ha
      subst hy
      simp only [hnone]

theorem Config.select_rxWord (h : c.valid = true) {k : Nat} (hk : k < c.rxBuf.bytes / 4) (d : Dir) :
    c.select c.rxBuf.win (c.rxBuf.off + 4 * k) d =
      if d = .read then .ok (.rxWord k) else .error (.wrongDirection (.rxWord k) d) := by
  have hm : Target.rxWord k ∈ c.targetsAt c.rxBuf.win (c.rxBuf.off + 4 * k) :=
    Config.mem_targetsAt.mpr (.inr (.inl
      ⟨BufLoc.holds_iff.mpr ⟨rfl, by omega, by omega⟩, by congr 1; omega⟩))
  rw [Config.select_only hm fun x hx => Config.targetsAt_rxWord h hk hx]
  cases d <;> simp [Target.admits]

theorem Config.select_txWord (h : c.valid = true) {k : Nat} (hk : k < c.txBuf.bytes / 4) (d : Dir) :
    c.select c.txBuf.win (c.txBuf.off + 4 * k) d =
      if d = .write then .ok (.txWord k) else .error (.wrongDirection (.txWord k) d) := by
  have hm : Target.txWord k ∈ c.targetsAt c.txBuf.win (c.txBuf.off + 4 * k) :=
    Config.mem_targetsAt.mpr (.inr (.inr
      ⟨BufLoc.holds_iff.mpr ⟨rfl, by omega, by omega⟩, by congr 1; omega⟩))
  rw [Config.select_only hm fun x hx => Config.targetsAt_txWord h hk hx]
  cases d <;> simp [Target.admits]

/-- An aligned 32-bit access inside a window goes to selection and then to the second stage. -/
theorem decode_inside {op : BusOp} {w : Window} {off : Nat} (hw : c.window? op.addr = some (w, off))
    (h4 : op.width = 4) (ha : op.addr % 4 = 0) :
    decode c op = match c.select w off op.dir with
      | .ok t => decodeAt c op t
      | .error e => .error e := by
  unfold decode
  rw [hw]
  exact if_pos ⟨h4, ha⟩

/-- Any other access inside a window stops before selection (X3). -/
theorem decode_unaligned {op : BusOp} {p : Window × Nat} (hw : c.window? op.addr = some p)
    (h : op.width ≠ 4 ∨ op.addr % 4 ≠ 0) : decode c op = .error (.badWidthOrAlignment op.addr op.width) := by
  unfold decode
  rw [hw]
  exact if_neg fun hc => h.elim (fun h => h hc.1) fun h => h hc.2

/-- The same for an address written as base and offset. -/
theorem decode_aligned (h : c.valid = true) {op : BusOp} {w : Window} {off : Nat} (ha : op.addr = c.base w + off)
    (hw : op.width = 4) (h4 : off % 4 = 0) (ho : off < c.size w) :
    decode c op = match c.select w off op.dir with
      | .ok t => decodeAt c op t
      | .error e => .error e := by
  have hb := Config.base_aligned h w
  exact decode_inside (by rw [ha, Config.window?_base h ho]) hw (by omega)

/-- A read of a register that admits reads decodes to that register's operation. -/
theorem decode_readOf_reg (h : c.valid = true) {r : Reg} (ha : r.admits .read = true)
    (hne : r = .mdioData → c.mdioStat ≠ c.mdioData) :
    decode c (readOf c (.reg r)) = decodeRead (.reg r) := by
  have hl := Config.loc_bounds h r
  rw [decode_aligned h (w := (c.loc r).win) (off := (c.loc r).off) rfl rfl hl.1 (by omega)]
  simp only [readOf, BusOp.dir, Config.select_reg h ha hne, decodeAt]

/-- A write of a register that admits writes decodes to that register's operation. -/
theorem decode_writeOf_reg (h : c.valid = true) {r : Reg} (ha : r.admits .write = true) (v : Word) :
    decode c (writeOf c (.reg r) v) = decodeWrite c (.reg r) v := by
  have hl := Config.loc_bounds h r
  rw [decode_aligned h (w := (c.loc r).win) (off := (c.loc r).off) rfl rfl hl.1 (by omega)]
  have hne : r = .mdioData → c.mdioStat ≠ c.mdioData := by
    rintro rfl
    simp [Reg.admits] at ha
  simp only [writeOf, BusOp.dir, Config.select_reg h ha hne, decodeAt]

theorem decode_rxWord (h : c.valid = true) {k : Nat} (hk : k < c.rxBuf.bytes / 4) :
    decode c (readOf c (.rxWord k)) = .ok (.rdRxbuf k) := by
  have hl := Config.rxBuf_bounds h
  rw [decode_aligned h (w := c.rxBuf.win) (off := c.rxBuf.off + 4 * k) rfl rfl (by omega) (by omega)]
  simp only [readOf, BusOp.dir, Config.select_rxWord h hk, ↓reduceIte, decodeAt, decodeRead]

theorem decode_txWord (h : c.valid = true) {k : Nat} (hk : k < c.txBuf.bytes / 4) (v : Word) :
    decode c (writeOf c (.txWord k) v) = .ok (.wrTxbuf k v) := by
  have hl := Config.txBuf_bounds h
  rw [decode_aligned h (w := c.txBuf.win) (off := c.txBuf.off + 4 * k) rfl rfl (by omega) (by omega)]
  simp only [writeOf, BusOp.dir, Config.select_txWord h hk, ↓reduceIte, decodeAt, decodeWrite]

end Sys2Proof
end

