-- ==== Sys2Proof/Laws/Step.lean ====
section
/-! SUPPORT. What one operation and one agent's step can do, said once: the case analysis every statement about all steps goes through. -/

namespace Sys2Proof.Machine

variable {s t : State}

/-- The effect an operation of the table has where it answers a next state. -/
inductive Effect (s : State) : Instr → State → Prop where
  | read {i : Instr} (v : Word) (n : Nat) (h : (encode s.cfg i).dir = .read) :
      Effect s i { s with returned := some v, draws := n }
  | startWrite (phy reg : BitVec 5) (data : Half) (h : s.mdioPhase ≠ .busy) :
      Effect s (.wrMdioCmdW phy reg data)
        ((s.setMdioCmd (s.cfg.writeWord phy reg data)).startTxn (.write phy reg s.cfg.turnaround data))
  | armRead (phy reg : BitVec 5) (h : s.mdioPhase ≠ .busy) :
      Effect s (.wrMdioCmdR phy reg) (s.setMdioCmd (s.cfg.readWord phy reg)).arm
  | startRead (h : s.mdioPhase = .armed) :
      Effect s .wrMdioCtrlStart
        (s.startTxn (.read (readPhy s.mdioCmd) (readReg s.mdioCmd) (readTa s.mdioCmd)))
  | release (h : s.rxPhase = .full) :
      Effect s .wrRxAck1 ((s.setRxPhase .empty).record .frameReleased)
  | ignoredAck (h : s.rxPhase = .empty) (h' : s.cfg.ackEmpty = .ignore) : Effect s .wrRxAck1 s
  | storeWord (k : Nat) (v : Word) (h : k < s.cfg.txBuf.bytes / 4) (h' : s.txPhase ≠ .sending) :
      Effect s (.wrTxbuf k v) (s.setTxWord k v)
  | storeLength (n : Word) (h : s.txPhase ≠ .sending) : Effect s (.wrTxLen n) (s.setTxLen n)
  | send (h : s.txPhase ≠ .sending) (h0 : s.txLen ≠ 0#32) (hl : s.txLen.toNat ≤ s.cfg.txBuf.bytes) :
      Effect s .wrTxSend1 ((s.setTxDone false).setTxPhase .sending)
  | storeMacHi (v : Word) : Effect s (.wrMacAddrHi v) (s.setMacHi v)
  | storeMacLo (v : Word) : Effect s (.wrMacAddrLo v) (s.setMacLo v)

/-- Whatever operation answers a next state, it has one of the eleven effects. -/
theorem exec_effect {i : Instr} (h : exec i s = .next t) : Effect s i t := by
  cases i <;> simp only [exec] at h
  case wrMdioCmdW phy reg data =>
    obtain ⟨hb, rfl⟩ := execWrMdioCmdW_next.mp h
    exact .startWrite phy reg data hb
  case wrMdioCmdR phy reg =>
    obtain ⟨hb, rfl⟩ := execWrMdioCmdR_next.mp h
    exact .armRead phy reg hb
  case wrMdioCtrlStart =>
    obtain ⟨ha, rfl⟩ := execWrMdioCtrlStart_next.mp h
    exact .startRead ha
  case wrRxAck1 =>
    obtain ⟨hf, rfl⟩ | ⟨he, hi, rfl⟩ := execWrRxAck1_next.mp h
    · exact .release hf
    · exact .ignoredAck he hi
  case wrTxbuf k v =>
    obtain ⟨hk, hs, rfl⟩ := execWrTxbuf_next.mp h
    exact .storeWord k v hk hs
  case wrTxLen n =>
    obtain ⟨hs, rfl⟩ := execWrTxLen_next.mp h
    exact .storeLength n hs
  case wrTxSend1 =>
    obtain ⟨hs, h0, hl, rfl⟩ := execWrTxSend1_next.mp h
    exact .send hs h0 hl
  case wrMacAddrHi v =>
    cases h
    exact .storeMacHi v
  case wrMacAddrLo v =>
    cases h
    exact .storeMacLo v
  case rdRxbuf k =>
    obtain ⟨-, rfl⟩ := execRdRxbuf_next.mp h
    exact .read _ _ rfl
  all_goals
    cases h
    exact .read _ _ rfl

/-- The effect of a step of each agent where it answers a next state. -/
inductive ActEffect (s : State) : Action → State → Prop where
  | host (op : BusOp) (i : Instr) {t : State} (hd : decode s.cfg op = .ok i) (h : Effect s i t) :
      ActEffect s (.host op) t
  | wroteTxn (a : Half) (phy reg : BitVec 5) (ta : BitVec 2) (data : Half) (hb : s.mdioPhase = .busy)
      (ht : s.mdioTxn = some (.write phy reg ta data)) :
      ActEffect s (.mdioEngine a) (s.endTxn.record (.mdioWriteTxn phy reg ta data))
  | readTxn (a : Half) (phy reg : BitVec 5) (ta : BitVec 2) (hb : s.mdioPhase = .busy)
      (ht : s.mdioTxn = some (.read phy reg ta)) :
      ActEffect s (.mdioEngine a) ((s.endTxn.setRdata a).record (.mdioReadTxn phy reg ta a))
  | mdioRest (a : Half) (h : s.mdioPhase ≠ .busy ∨ s.mdioTxn = none) : ActEffect s (.mdioEngine a) s
  | staged (f : List Byte) (h : s.rxPhase = .empty) (hl : crcBytes ≤ f.length)
      (hu : f.length ≤ s.cfg.rxBuf.bytes) : ActEffect s (.wireFrame f) (stageFrame f s)
  | dropped (f : List Byte) (h : s.rxPhase = .full) :
      ActEffect s (.wireFrame f) (s.drawn.record .frameDropped)
  | droppedCounted (f : List Byte) (h : s.rxPhase = .full) :
      ActEffect s (.wireFrame f) (countBadFrame (s.drawn.record .frameDropped))
  | counted : ActEffect s .badFrame (countBadFrame s)
  | sent (h : s.txPhase = .sending) :
      ActEffect s .txEngine (((s.record (.frameSent s.txFrame)).setTxDone true).setTxPhase .idle)
  | txRest (h : s.txPhase = .idle) : ActEffect s .txEngine s

theorem act_effect {a : Action} (h : act a s = .next t) : ActEffect s a t := by
  cases a with
  | host op =>
    obtain ⟨i, hd, he⟩ := hostOp_next.mp h
    exact .host op i hd (exec_effect he)
  | mdioEngine a =>
    cases h
    obtain ⟨phy, reg, ta, data, hb, ht, he⟩ | ⟨phy, reg, ta, hb, ht, he⟩ | ⟨hr, he⟩ := mdioComplete_cases a s <;>
      rw [he]
    · exact .wroteTxn a phy reg ta data hb ht
    · exact .readTxn a phy reg ta hb ht
    · exact .mdioRest a hr
  | wireFrame f =>
    obtain ⟨hl, hu, ⟨hp, rfl⟩ | ⟨hp, rfl⟩⟩ := receiveFrame_next.mp h
    · exact .staged f hp hl hu
    · obtain he | he := dropFrame_cases s <;> rw [he]
      · exact .dropped f hp
      · exact .droppedCounted f hp
  | badFrame =>
    cases h
    exact .counted
  | txEngine =>
    cases h
    obtain ⟨hp, he⟩ | ⟨hp, he⟩ := txComplete_cases s <;> rw [he]
    · exact .sent hp
    · exact .txRest hp

end Sys2Proof.Machine
end

