-- ==== Sys2Proof/Laws/Driver.lean ====
section
/-! SUPPORT. Runs of the block with its hosts: how schedules compose, what HOST_IN_ORDER gives, and that such a run is a run of the machine. -/

namespace Sys2Proof.Driver

open Sys2Proof.Machine

variable {y z w : System} {i n : Nat} {c : Config} {s t : State}

/-! The liveness assumptions: what is in flight has its completion among the steps to come. -/

theorem mdioLive_pending (h : MdioLive s) (hb : s.mdioPhase = .busy) : ∃ a, Action.mdioEngine a ∈ s.agenda :=
  h 0 s rfl hb

theorem txLive_pending (h : TxLive s) (hs : s.txPhase = .sending) : Action.txEngine ∈ s.agenda :=
  h 0 s rfl hs

/-! Schedules. -/

theorem sysRun_cons {ch : Choice} {l : List Choice} :
    sysRun (ch :: l) y = .next z ↔ ∃ w, sysStep ch y = .next w ∧ sysRun l w = .next z := by
  simp only [sysRun]
  split <;> simp_all

theorem sysRun_append {l l' : List Choice} :
    sysRun (l ++ l') y = .next z ↔ ∃ w, sysRun l y = .next w ∧ sysRun l' w = .next z := by
  induction l generalizing y with
  | nil => simp [sysRun]
  | cons ch l ih =>
    simp only [List.cons_append, sysRun_cons, ih]
    constructor
    · rintro ⟨w, h, w', h', h''⟩
      exact ⟨w', ⟨w, h, h'⟩, h''⟩
    · rintro ⟨w', ⟨w, h, h'⟩, h''⟩
      exact ⟨w, h, w', h', h''⟩

/-! One agent's line. -/

/-- Going on from a write does not depend on what is returned. -/
theorem Proc.operation_write {p : Proc} {op : BusOp} {k : Word → Proc} (h : p.operation c = some (op, k))
    (hd : op.dir = .write) (u v : Word) : k u = k v := by
  cases p <;> simp only [Proc.operation, Option.some.injEq, Prod.mk.injEq, reduceCtorEq] at h
  case wr => obtain ⟨rfl, rfl⟩ := h; rfl
  all_goals
    obtain ⟨rfl, rfl⟩ := h
    simp [readOf, BusOp.dir] at hd

theorem issueAs_next {op : BusOp} {k : Word → Proc} :
    issueAs i op k y = .next z ↔ ∃ s, hostOp op y.block = .next s ∧
      z = { y with
        block := s, procs := y.procs.set i (k (s.returned.getD 0#32))
        issued := y.issued ++ [(i, op)], trace := y.trace ++ [(i, op)] } := by
  unfold issueAs
  cases hostOp op y.block <;> simp [eq_comm]

/-- What a line of the guard can do: nothing, or take or release the guard. -/
theorem guardLine_cases (i : Nat) (p : Proc) (y : System) :
    guardLine i p y = y
      ∨ (y.waits i = false ∧ ∃ g k, (p = .lock k ∨ p = .unlock k) ∧ (g = some i ∧ y.guard = none ∨ g = none)
          ∧ guardLine i p y = { y with guard := g, procs := y.procs.set i k }) := by
  cases p with
  | lock k =>
    by_cases h : y.guard = none ∧ y.waits i = false
    · exact .inr ⟨h.2, some i, k, .inl rfl, .inl ⟨rfl, h.1⟩, if_pos h⟩
    · exact .inl (if_neg h)
  | unlock k =>
    by_cases h : y.waits i = false
    · exact .inr ⟨h, none, k, .inr rfl, .inr rfl, if_pos h⟩
    · exact .inl (if_neg h)
  | _ => exact .inl rfl

/-- What a line without a bus operation can do: what `guardLine` does, or enable the interrupt. -/
theorem quietLine_cases (i : Nat) (p : Proc) (y : System) :
    quietLine i p y = y
      ∨ (y.waits i = false ∧ ∃ g k, (p = .lock k ∨ p = .unlock k) ∧ (g = some i ∧ y.guard = none ∨ g = none)
          ∧ quietLine i p y = { y with guard := g, procs := y.procs.set i k })
      ∨ (y.waits i = false ∧ ∃ k, p = .arm k
          ∧ quietLine i p y = { y with interrupt := .enabled, procs := y.procs.set i k }) := by
  by_cases hp : ∃ k, p = .arm k
  · obtain ⟨k, rfl⟩ := hp
    by_cases h : y.waits i = false
    · exact .inr (.inr ⟨h, k, rfl, if_pos h⟩)
    · exact .inl (if_neg h)
  · have hq : quietLine i p y = guardLine i p y := by cases p <;> first | rfl | exact absurd ⟨_, rfl⟩ hp
    rw [hq]
    rcases guardLine_cases i p y with h | h
    · exact .inl h
    · exact .inr (.inl h)

/-- An agent with an operation outstanding does nothing in such a line. -/
theorem quietLine_waits {p : Proc} (h : y.waits i = true) : quietLine i p y = y := by
  rcases quietLine_cases i p y with h' | ⟨h', -⟩ | ⟨h', -⟩
  · exact h'
  all_goals simp [h] at h'

theorem reachStep_next : reachStep n y = .next z ↔
    (y.outstanding[n]? = none ∧ z = y)
      ∨ ∃ o s, y.outstanding[n]? = some o ∧ hostOp o.op y.block = .next s ∧
          ((o.op.dir = .read ∧ s.returned ≠ some o.value ∧ z = y)
            ∨ ((o.op.dir = .read → s.returned = some o.value) ∧ z = { y with
                block := s, outstanding := y.outstanding.eraseIdx n, trace := y.trace ++ [(o.agent, o.op)] })) := by
  unfold reachStep
  cases ho : y.outstanding[n]? with
  | none => simp [eq_comm]
  | some o =>
    cases hs : hostOp o.op y.block with
    | fault f => simp [hs]
    | refused r => simp [hs]
    | next s =>
      by_cases hd : o.op.dir = .read ∧ s.returned ≠ some o.value
      · simp [hs, hd, eq_comm]
      · simp only [hs, if_neg hd, Host.Outcome.next.injEq, reduceCtorEq, false_and, Option.some.injEq, false_or,
          existsAndEq, true_and]
        rw [not_and, not_not] at hd
        constructor
        · rintro rfl
          exact .inr ⟨hd, rfl⟩
        · rintro (⟨h1, h2, -⟩ | ⟨-, rfl⟩)
          · exact absurd (hd h1) h2
          · rfl

/-! One step of the system. -/

/-- Everything a step of the system can do. -/
inductive SysEffect (y : System) : Choice → System → Prop where
  | rest (ch : Choice) : SysEffect y ch y
  | issue (i : Nat) (p : Proc) (op : BusOp) (k : Word → Proc) (s : State) (hp : y.procs[i]? = some p)
      (ho : p.operation y.block.cfg = some (op, k)) (hs : hostOp op y.block = .next s) :
      SysEffect y (.host i) { y with
        block := s, procs := y.procs.set i (k (s.returned.getD 0#32))
        issued := y.issued ++ [(i, op)], trace := y.trace ++ [(i, op)] }
  | guard (i : Nat) (p k : Proc) (g : Option Nat) (hw : y.waits i = false) (hp : y.procs[i]? = some p)
      (hk : p = .lock k ∨ p = .unlock k) (hg : g = some i ∧ y.guard = none ∨ g = none) :
      SysEffect y (.host i) { y with guard := g, procs := y.procs.set i k }
  | arm (i : Nat) (k : Proc) (hw : y.waits i = false) (hp : y.procs[i]? = some (.arm k)) :
      SysEffect y (.host i) { y with interrupt := .enabled, procs := y.procs.set i k }
  | post (i : Nat) (v : Word) (p : Proc) (op : BusOp) (k : Word → Proc) (hp : y.procs[i]? = some p)
      (ho : p.operation y.block.cfg = some (op, k)) :
      SysEffect y (.post i v) { y with
        procs := y.procs.set i (k v)
        outstanding := y.outstanding ++ [⟨i, op, v⟩], issued := y.issued ++ [(i, op)] }
  | reach (n : Nat) (o : Outstanding) (s : State) (ho : y.outstanding[n]? = some o)
      (hs : hostOp o.op y.block = .next s) (hv : o.op.dir = .read → s.returned = some o.value) :
      SysEffect y (.reach n) { y with
        block := s, outstanding := y.outstanding.eraseIdx n, trace := y.trace ++ [(o.agent, o.op)] }
  | start (p : Proc) : SysEffect y (.start p) { y with procs := y.procs ++ [p] }
  | invoke (a : Bool) (h : y.interrupt = .enabled) :
      SysEffect y (.invoke a) { y with procs := y.procs ++ [rxHandler a] }
  | enable (b : Bool) : SysEffect y (.enable b) { y with interrupt := y.interrupt.unmask b }
  | env (a : Action) (s : State) (hs : act a y.block = .next s) : SysEffect y (.env a) { y with block := s }

theorem sysStep_effect {ch : Choice} (h : sysStep ch y = .next z) : SysEffect y ch z := by
  cases ch with
  | host i =>
    simp only [sysStep] at h
    split at h
    · rename_i p hp
      unfold agentStep at h
      split at h
      · rename_i op k ho
        obtain ⟨s, hs, rfl⟩ := issueAs_next.mp h
        exact .issue i p op k s hp ho hs
      · cases h
        rcases quietLine_cases i p y with hq | ⟨hw, g, k, hk, hg, hq⟩ | ⟨hw, k, rfl, hq⟩ <;> rw [hq]
        · exact .rest _
        · exact .guard i p k g hw hp hk hg
        · exact .arm i k hw hp
    · cases h
      exact .rest _
  | post i v =>
    simp only [sysStep] at h
    split at h
    · rename_i p hp
      cases h
      unfold postStep
      split
      · rename_i op k ho
        exact .post i v p op k hp ho
      · exact .rest _
    · cases h
      exact .rest _
  | reach n =>
    rcases reachStep_next.mp h with ⟨-, rfl⟩ | ⟨o, s, ho, hs, ⟨-, -, rfl⟩ | ⟨hv, rfl⟩⟩
    · exact .rest _
    · exact .rest _
    · exact .reach n o s ho hs hv
  | start p =>
    cases h
    exact .start p
  | invoke a =>
    simp only [sysStep] at h
    split at h <;> cases h
    · exact .invoke a (by assumption)
    · exact .rest _
  | enable b =>
    cases h
    exact .enable b
  | env a =>
    simp only [sysStep] at h
    split at h <;> cases h
    exact .env a _ (by assumption)

/-! HOST_IN_ORDER. -/

/-- A schedule that posts nothing keeps HOST_IN_ORDER: each operation completes before the next. -/
theorem hostInOrder_of_no_post {l : List Choice} (h : ∀ ch ∈ l, ∀ i v, ch ≠ .post i v) (hy : y.outstanding = []) :
    HostInOrder l y := by
  induction l generalizing y with
  | nil => trivial
  | cons ch l ih =>
    refine ⟨fun i _ => by simp [System.waits, hy], fun w hw => ih (fun c hc => h c (by simp [hc])) ?_⟩
    cases sysStep_effect hw with
    | post i v => exact absurd rfl (h _ (by simp) i v)
    | reach n o s ho => simp [hy] at ho
    | _ => exact hy

/-- Agent 0 has been run `m` times from `y0`, each operation completing at once, and its next operation may
be outstanding: what every HOST_IN_ORDER run of agent 0 alone looks like. -/
inductive InStep (y0 : System) : System → Prop where
  | synced (m : Nat) (x : System) (h : sysRun (List.replicate m (.host 0)) y0 = .next x) (ho : x.outstanding = [])
      (p : Proc) (hp : x.procs = [p]) : InStep y0 x
  | pending (m : Nat) (x : System) (h : sysRun (List.replicate m (.host 0)) y0 = .next x) (ho : x.outstanding = [])
      (p : Proc) (hp : x.procs = [p]) (op : BusOp) (k : Word → Proc) (v : Word)
      (hop : p.operation x.block.cfg = some (op, k)) :
      InStep y0 { x with
        procs := [k v], outstanding := [⟨0, op, v⟩], issued := x.issued ++ [(0, op)] }

theorem sysRun_replicate_succ {m : Nat} {ch : Choice} {x : System} (h : sysRun (List.replicate m ch) y = .next x)
    (h' : sysStep ch x = .next z) : sysRun (List.replicate (m + 1) ch) y = .next z := by
  rw [List.replicate_succ', sysRun_append]
  exact ⟨x, h, sysRun_cons.mpr ⟨z, h', rfl⟩⟩

/-- Agent 0 runs a line at once. -/
theorem InStep.host {y0 : System} (h : InStep y0 y) (hi : ∀ i, IssuesBy (.host 0) y i → y.waits i = false)
    (hw : sysStep (.host 0) y = .next w) : InStep y0 w := by
  cases h with
  | synced m x h ho p hp =>
    have h' := sysRun_replicate_succ h hw
    simp only [sysStep, hp, List.getElem?_cons_zero, agentStep] at hw
    split at hw
    · obtain ⟨s, -, rfl⟩ := issueAs_next.mp hw
      exact .synced (m + 1) _ h' ho _ (by rw [hp]; rfl)
    · cases hw
      rcases quietLine_cases 0 p y with hg | ⟨-, g, k, -, -, hg⟩ | ⟨-, k, -, hg⟩ <;> rw [hg] at h' ⊢
      · exact .synced (m + 1) _ h' ho p hp
      · exact .synced (m + 1) _ h' ho k (by simp [hp])
      · exact .synced (m + 1) _ h' ho k (by simp [hp])
  | pending m x h ho p hp op k v hop =>
    have hwait : ∀ q : System, q.outstanding = [⟨0, op, v⟩] → q.waits 0 = true := fun q hq => by
      simp [System.waits, hq]
    cases hk : (k v).operation x.block.cfg with
    | some o =>
      have := hi 0 ⟨.inl rfl, k v, rfl, by rw [hk]; simp⟩
      rw [hwait _ rfl] at this
      cases this
    | none =>
      simp only [sysStep, List.getElem?_cons_zero, agentStep, hk] at hw
      rw [quietLine_waits (hwait _ rfl)] at hw
      cases hw
      exact .pending m x h ho p hp op k v hop

/-- Agent 0 issues an operation and goes on. -/
theorem InStep.post {y0 : System} {v : Word} (h : InStep y0 y)
    (hi : ∀ i, IssuesBy (.post 0 v) y i → y.waits i = false) (hw : sysStep (.post 0 v) y = .next w) : InStep y0 w := by
  cases h with
  | synced m x h ho p hp =>
    simp only [sysStep, hp, List.getElem?_cons_zero, postStep] at hw
    split at hw
    · rename_i op k hop
      cases hw
      simp only [ho, List.set_cons_zero, List.nil_append]
      exact .pending m _ h ho p hp op k v hop
    · cases hw
      exact .synced m _ h ho p hp
  | pending m x h ho p hp op k u hop =>
    cases hk : (k u).operation x.block.cfg with
    | some o =>
      have := hi 0 ⟨.inr ⟨v, rfl⟩, k u, rfl, by rw [hk]; simp⟩
      simp [System.waits] at this
    | none =>
      simp only [sysStep, List.getElem?_cons_zero, postStep, hk] at hw
      cases hw
      exact .pending m x h ho p hp op k u hop

/-- The outstanding operation of agent 0 reaches the block. -/
theorem InStep.reach {y0 : System} (h : InStep y0 y) (hw : sysStep (.reach n) y = .next w) : InStep y0 w := by
  cases h with
  | synced m x h ho p hp =>
    rcases reachStep_next.mp hw with ⟨-, rfl⟩ | ⟨o, s, hn, -⟩
    · exact .synced m _ h ho p hp
    · simp [ho] at hn
  | pending m x h ho p hp op k v hop =>
    rcases reachStep_next.mp hw with ⟨-, rfl⟩ | ⟨o, s, hn, hs, hr⟩
    · exact .pending m x h ho p hp op k v hop
    · cases n with
      | succ n => simp at hn
      | zero =>
        obtain rfl : (⟨0, op, v⟩ : Outstanding) = o := by simpa using hn
        rcases hr with ⟨-, -, rfl⟩ | ⟨hv, rfl⟩
        · exact .pending m x h ho p hp op k v hop
        · have hk : k v = k (s.returned.getD 0#32) := by
            cases hd : op.dir with
            | read => rw [hv hd, Option.getD_some]
            | write => exact Proc.operation_write hop hd _ _
          refine .synced (m + 1) _ (sysRun_replicate_succ h ?_) rfl (k v) rfl
          simp only [sysStep, hp, List.getElem?_cons_zero, agentStep, hop]
          refine issueAs_next.mpr ⟨s, hs, ?_⟩
          simp [hp, ho, hk]

/-- A HOST_IN_ORDER run of agent 0 alone stays in step with agent 0 run at once. -/
theorem InStep.run {y0 : System} {l : List Choice} (h : InStep y0 y) (hl : ∀ ch ∈ l, OwnChoice ch)
    (hi : HostInOrder l y) (hw : sysRun l y = .next w) : InStep y0 w := by
  induction l generalizing y with
  | nil =>
    cases hw
    exact h
  | cons ch l ih =>
    obtain ⟨x, hx, hr⟩ := sysRun_cons.mp hw
    refine ih ?_ (fun c hc => hl c (by simp [hc])) (hi.2 x hx) hr
    rcases hl ch (by simp) with rfl | ⟨v, rfl⟩ | ⟨n, rfl⟩
    · exact h.host hi.1 hx
    · exact h.post hi.1 hx
    · exact h.reach hx

theorem sysRun_replicate_done {r : Result} (hp : y.procs = [.done r]) (m : Nat) :
    sysRun (List.replicate m (.host 0)) y = .next y := by
  induction m with
  | zero => rfl
  | succ m ih =>
    rw [List.replicate_succ, sysRun_cons]
    exact ⟨y, by simp [sysStep, hp, agentStep, Proc.operation, quietLine, guardLine], ih⟩

/-- Two runs of a lone agent that are both finished are at the same system. -/
theorem replicate_done_unique {y0 : System} {m k : Nat} {r r' : Result} (hk : m ≤ k)
    (h : sysRun (List.replicate m (.host 0)) y0 = .next y) (hp : y.procs = [.done r])
    (h' : sysRun (List.replicate k (.host 0)) y0 = .next z) (_hz : z.procs = [.done r']) : z = y := by
  obtain ⟨d, rfl⟩ := Nat.exists_eq_add_of_le hk
  rw [List.replicate_add, sysRun_append] at h'
  obtain ⟨w, hw, hd⟩ := h'
  obtain rfl : y = w := by simpa [h] using hw
  rw [sysRun_replicate_done hp] at hd
  exact (Host.Outcome.next.inj hd).symm

/-- A lone agent that ends at `y` with each operation completing at once ends there in every HOST_IN_ORDER run. -/
theorem endsAt_of_run {y0 : System} {m : Nat} {p : Proc} {r : Result}
    (h : sysRun (List.replicate m (.host 0)) y0 = .next y) (h0 : y0.outstanding = []) (hp0 : y0.procs = [p])
    (hp : y.procs = [.done r]) : EndsAt y0 y := by
  rintro l z hl hi hz ⟨r', hr⟩ ho
  cases (InStep.synced 0 y0 rfl h0 p hp0).run hl hi hz with
  | synced k x hk _ q hq =>
    rcases Nat.le_total m k with hmk | hmk
    · exact replicate_done_unique hmk h hp hk hr
    · exact (replicate_done_unique hmk hk hr h hp).symm
  | pending => simp at ho

/-! A run of the system is a run of the machine. -/

/-- No agent's step depends on the rest of the agenda. -/
theorem act_agenda {a : Action} (h : act a s = .next t) (l : List Action) :
    act a { s with agenda := l } = .next { t with agenda := l } := by
  cases a with
  | host op =>
    obtain ⟨i, hd, he⟩ := hostOp_next.mp h
    refine hostOp_next.mpr ⟨i, hd, ?_⟩
    clear h hd
    cases i <;> simp only [exec] at he ⊢
    case wrMdioCmdW =>
      obtain ⟨hb, rfl⟩ := execWrMdioCmdW_next.mp he
      exact execWrMdioCmdW_next.mpr ⟨hb, rfl⟩
    case wrMdioCmdR =>
      obtain ⟨hb, rfl⟩ := execWrMdioCmdR_next.mp he
      exact execWrMdioCmdR_next.mpr ⟨hb, rfl⟩
    case wrMdioCtrlStart =>
      obtain ⟨hb, rfl⟩ := execWrMdioCtrlStart_next.mp he
      exact execWrMdioCtrlStart_next.mpr ⟨hb, rfl⟩
    case wrRxAck1 =>
      obtain ⟨hf, rfl⟩ | ⟨hf, hc, rfl⟩ := execWrRxAck1_next.mp he
      · exact execWrRxAck1_next.mpr (.inl ⟨hf, rfl⟩)
      · exact execWrRxAck1_next.mpr (.inr ⟨hf, hc, rfl⟩)
    case wrTxbuf =>
      obtain ⟨hk, hs, rfl⟩ := execWrTxbuf_next.mp he
      exact execWrTxbuf_next.mpr ⟨hk, hs, rfl⟩
    case wrTxLen =>
      obtain ⟨hs, rfl⟩ := execWrTxLen_next.mp he
      exact execWrTxLen_next.mpr ⟨hs, rfl⟩
    case wrTxSend1 =>
      obtain ⟨hs, h0, hl, rfl⟩ := execWrTxSend1_next.mp he
      exact execWrTxSend1_next.mpr ⟨hs, h0, hl, rfl⟩
    case rdRxbuf =>
      obtain ⟨hk, rfl⟩ := execRdRxbuf_next.mp he
      exact execRdRxbuf_next.mpr ⟨hk, rfl⟩
    all_goals
      cases he
      rfl
  | mdioEngine a =>
    cases h
    simp only [act, mdioComplete]
    split <;> rfl
  | wireFrame f =>
    obtain ⟨hl, hu, h | h⟩ := receiveFrame_next.mp h
    · obtain ⟨hp, rfl⟩ := h
      exact receiveFrame_next.mpr ⟨hl, hu, .inl ⟨hp, rfl⟩⟩
    · obtain ⟨hp, rfl⟩ := h
      refine receiveFrame_next.mpr ⟨hl, hu, .inr ⟨hp, ?_⟩⟩
      simp only [dropFrame]
      split <;> rfl
  | badFrame =>
    cases h
    rfl
  | txEngine =>
    cases h
    simp only [act, txComplete]
    split <;> rfl

/-- What one step of the system does to the block is nothing, or one agent's step. -/
theorem sysStep_block {ch : Choice} (h : sysStep ch y = .next z) :
    z.block = y.block ∨ ∃ a, act a y.block = .next z.block := by
  cases sysStep_effect h with
  | issue i p op k s hp ho hs => exact .inr ⟨.host op, hs⟩
  | reach n o s ho hs => exact .inr ⟨.host o.op, hs⟩
  | env a s hs => exact .inr ⟨a, hs⟩
  | _ => exact .inl rfl

/-- Whatever a run of the system does to the block, the machine does in a run on some agenda: the schedule
of the system stands in the place of the agenda. -/
theorem sysRun_machine {l : List Choice} (h : sysRun l y = .next z) :
    ∃ as : List Action, ∀ rest, Host.Core.run core as.length { y.block with agenda := as ++ rest }
      = .next { z.block with agenda := rest } := by
  induction l generalizing y with
  | nil =>
    cases h
    exact ⟨[], fun _ => rfl⟩
  | cons ch l ih =>
    obtain ⟨w, hw, hz⟩ := sysRun_cons.mp h
    obtain ⟨as, ha⟩ := ih hz
    rcases sysStep_block hw with hb | ⟨a, hb⟩
    · exact ⟨as, hb ▸ ha⟩
    · refine ⟨a :: as, fun rest => ?_⟩
      have hs : core.step { y.block with agenda := a :: as ++ rest } = .next { w.block with agenda := as ++ rest } :=
        (step_next (s := { y.block with agenda := a :: as ++ rest })).mpr (.inr ⟨a, as ++ rest, rfl, act_agenda hb _⟩)
      simp only [List.length_cons, Host.Core.run, hs, ha]

end Sys2Proof.Driver
end

