-- ==== Sys2Proof/Laws/PerInstr.lean ====
section
/-! SUPPORT. One statement for every operation of the table: the bus operation that carries it is an aligned 32-bit access (R72, R110, R145). -/

namespace Sys2Proof.Laws.BusForm

/-- Under a valid instantiation the operation's bus operation is four bytes wide at a multiple of four. -/
def Statement (i : Instr) : Prop :=
  ∀ c : Config, c.valid = true → (encode c i).width = 4 ∧ (encode c i).addr % 4 = 0

theorem addr_reg_aligned {c : Config} (h : c.valid = true) (r : Reg) : c.addr (.reg r) % 4 = 0 := by
  have h1 := Config.base_aligned h (c.loc r).win
  have h2 := (Config.loc_bounds h r).1
  simp only [Config.addr, Config.targetLoc]
  omega

theorem addr_rxWord_aligned {c : Config} (h : c.valid = true) (k : Nat) : c.addr (.rxWord k) % 4 = 0 := by
  have h1 := Config.base_aligned h c.rxBuf.win
  have h2 := (Config.rxBuf_bounds h).1
  simp only [Config.addr, Config.targetLoc]
  omega

theorem addr_txWord_aligned {c : Config} (h : c.valid = true) (k : Nat) : c.addr (.txWord k) % 4 = 0 := by
  have h1 := Config.base_aligned h c.txBuf.win
  have h2 := (Config.txBuf_bounds h).1
  simp only [Config.addr, Config.targetLoc]
  omega

theorem rdMdioStat : Statement .rdMdioStat := fun _ h => ⟨rfl, addr_reg_aligned h _⟩
theorem wrMdioCmdW (phy reg : BitVec 5) (data : Half) : Statement (.wrMdioCmdW phy reg data) := fun _ h => ⟨rfl, addr_reg_aligned h _⟩
theorem wrMdioCmdR (phy reg : BitVec 5) : Statement (.wrMdioCmdR phy reg) := fun _ h => ⟨rfl, addr_reg_aligned h _⟩
theorem wrMdioCtrlStart : Statement .wrMdioCtrlStart := fun _ h => ⟨rfl, addr_reg_aligned h _⟩
theorem rdMdioData : Statement .rdMdioData := fun _ h => ⟨rfl, addr_reg_aligned h _⟩
theorem rdRxAvail : Statement .rdRxAvail := fun _ h => ⟨rfl, addr_reg_aligned h _⟩
theorem rdRxLen : Statement .rdRxLen := fun _ h => ⟨rfl, addr_reg_aligned h _⟩
theorem rdRxbuf (k : Nat) : Statement (.rdRxbuf k) := fun _ h => ⟨rfl, addr_rxWord_aligned h k⟩
theorem wrRxAck1 : Statement .wrRxAck1 := fun _ h => ⟨rfl, addr_reg_aligned h _⟩
theorem rdTxBusy : Statement .rdTxBusy := fun _ h => ⟨rfl, addr_reg_aligned h _⟩
theorem wrTxbuf (k : Nat) (v : Word) : Statement (.wrTxbuf k v) := fun _ h => ⟨rfl, addr_txWord_aligned h k⟩
theorem wrTxLen (n : Word) : Statement (.wrTxLen n) := fun _ h => ⟨rfl, addr_reg_aligned h _⟩
theorem wrTxSend1 : Statement .wrTxSend1 := fun _ h => ⟨rfl, addr_reg_aligned h _⟩
theorem rdTxDone : Statement .rdTxDone := fun _ h => ⟨rfl, addr_reg_aligned h _⟩
theorem rdMacAddrHi : Statement .rdMacAddrHi := fun _ h => ⟨rfl, addr_reg_aligned h _⟩
theorem wrMacAddrHi (v : Word) : Statement (.wrMacAddrHi v) := fun _ h => ⟨rfl, addr_reg_aligned h _⟩
theorem rdMacAddrLo : Statement .rdMacAddrLo := fun _ h => ⟨rfl, addr_reg_aligned h _⟩
theorem wrMacAddrLo (v : Word) : Statement (.wrMacAddrLo v) := fun _ h => ⟨rfl, addr_reg_aligned h _⟩
theorem rdRxErrCnt : Statement .rdRxErrCnt := fun _ h => ⟨rfl, addr_reg_aligned h _⟩

end Sys2Proof.Laws.BusForm
end

