-- ==== Sys2Proof/Laws/StartUp.lean ====
section
/-! SUPPORT. The order of device start-up (R193): in every HOST_IN_ORDER run the interrupt is enabled only after the whole bring-up, no handler is invoked before, and a failed start-up makes no bus operation and leaves the interrupt not enabled (R312). -/

namespace Sys2Proof.Driver

open Sys2Proof.Machine

variable {y z w : System} {i : Nat} {c : Config} {l : List Choice}

/-- The writes of a bring-up, in order: the seven commands and the acknowledge (R190). -/
def bringUpWrites (c : Config) : List BusOp :=
  (c.bringup.map fun p => writeOf c (.reg .mdioCmd) (writeCommandWord c p.reg p.val)) ++ [writeOf c (.reg .rxAck) 1#32]

/-- No line of the program enables the interrupt. -/
def Proc.neverArms : Proc → Prop
  | .done _ => True
  | .lock k => k.neverArms
  | .unlock k => k.neverArms
  | .rd _ k => ∀ v, (k v).neverArms
  | .wr _ _ k => k.neverArms
  | .poll0 _ _ k => k.neverArms
  | .arm _ => False

/-- The program writes `todo`, in order and nothing else, before it enables the interrupt. -/
def Proc.armsAfter (c : Config) : Proc → List BusOp → Prop
  | .done _, _ => True
  | .lock k, todo => k.armsAfter c todo
  | .unlock k, todo => k.armsAfter c todo
  | .rd _ k, todo => ∀ v, (k v).armsAfter c todo
  | .wr t v k, todo => ∃ rest, todo = writeOf c t v :: rest ∧ k.armsAfter c rest
  | .poll0 _ _ k, todo => k.armsAfter c todo
  | .arm k, todo => todo = [] ∧ k.armsAfter c []

theorem copyIn_neverArms {f : List Byte → Proc} (hf : ∀ got, (f got).neverArms) (n : Nat) :
    ∀ k got, (copyIn k n got f).neverArms := by
  induction n with
  | zero => exact fun _ got => hf got
  | succ n ih => exact fun k got v => ih _ _

theorem rxHandler_neverArms (allocated : Bool) : (rxHandler allocated).neverArms := by
  intro a
  dsimp only
  split
  · trivial
  · intro n
    cases allocated
    · trivial
    · exact copyIn_neverArms (fun _ => trivial : ∀ got, (acknowledge (.handled (some (got.take _)))).neverArms) _ 0 []

theorem bringUpThen_neverArms {k : Proc} (hk : k.neverArms) : (bringUpThen c k).neverArms := by
  unfold bringUpThen
  induction c.bringup with
  | nil => exact hk
  | cons p l ih => exact ih

theorem bringUpThen_armsAfter {k : Proc} (hk : k.armsAfter c []) :
    (bringUpThen c k).armsAfter c (bringUpWrites c) := by
  unfold bringUpThen bringUpWrites
  induction c.bringup with
  | nil => exact ⟨[], rfl, hk⟩
  | cons p l ih => exact ⟨_, rfl, ih⟩

/-- Going on from a bus operation, a program that never enables the interrupt still does not. -/
theorem Proc.neverArms_operation {p : Proc} {op : BusOp} {k : Word → Proc} (h : p.neverArms)
    (ho : p.operation c = some (op, k)) (v : Word) : (k v).neverArms := by
  cases p <;> simp only [Proc.operation, Option.some.injEq, Prod.mk.injEq, reduceCtorEq] at ho
  case rd => obtain ⟨-, rfl⟩ := ho; exact h v
  case wr => obtain ⟨-, rfl⟩ := ho; exact h
  case poll0 =>
    obtain ⟨-, rfl⟩ := ho
    dsimp only
    split
    · exact h
    · exact h

/-- Going on from a bus operation, what is still to be written is less that operation, if it is of it. -/
theorem Proc.armsAfter_operation {p : Proc} {op : BusOp} {k : Word → Proc} {todo : List BusOp}
    (h : p.armsAfter c todo) (ho : p.operation c = some (op, k)) (v : Word) :
    (k v).armsAfter c todo ∨ ∃ rest, todo = op :: rest ∧ (k v).armsAfter c rest := by
  cases p <;> simp only [Proc.operation, Option.some.injEq, Prod.mk.injEq, reduceCtorEq] at ho
  case rd => obtain ⟨-, rfl⟩ := ho; exact .inl (h v)
  case wr =>
    obtain ⟨rfl, rfl⟩ := ho
    exact .inr h
  case poll0 =>
    obtain ⟨-, rfl⟩ := ho
    dsimp only
    split
    · exact .inl h
    · exact .inl h

/-- An entry of a list with one more at its end is an entry of the list, or the one more. -/
theorem getElem?_append_cases {α : Type} {l : List α} {a b : α} {n : Nat} (h : (l ++ [a])[n]? = some b) :
    l[n]? = some b ∨ b = a := by
  rcases Nat.lt_trichotomy n l.length with hn | hn | hn
  · rw [List.getElem?_append_left hn] at h
    exact .inl h
  · simp [hn] at h
    exact .inr h.symm
  · rw [List.getElem?_eq_none (by simp; omega)] at h
    cases h

/-! No handler before the interrupt is enabled. -/

/-- Until a start-up has enabled the interrupt, no handler is invoked and no unmasking enables it (R193, R322). -/
theorem unarmed_stays (h : y.interrupt = .unarmed) (a b : Bool) :
    sysStep (.invoke a) y = .next y ∧ sysStep (.enable b) y = .next y := by
  constructor
  · simp [sysStep, h]
  · cases y
    simp_all [sysStep, Interrupt.unmask]

/-- Where no program enables the interrupt, it stays not enabled. -/
theorem unarmed_of_neverArms (hl : ∀ p, Choice.start p ∈ l → p.neverArms)
    (hp : ∀ (j : Nat) p, y.procs[j]? = some p → p.neverArms) (hu : y.interrupt = .unarmed)
    (h : sysRun l y = .next z) : z.interrupt = .unarmed := by
  induction l generalizing y with
  | nil =>
    cases h
    exact hu
  | cons ch l ih =>
    obtain ⟨w, hw, hz⟩ := sysRun_cons.mp h
    have hset : ∀ {j : Nat} {q : Proc}, q.neverArms → ∀ (n : Nat) r, (y.procs.set j q)[n]? = some r → r.neverArms := by
      intro j q hq n r hr
      rw [List.getElem?_set] at hr
      split at hr
      · split at hr
        · exact Option.some.inj hr ▸ hq
        · cases hr
      · exact hp n r hr
    suffices hstep : (∀ (j : Nat) p, w.procs[j]? = some p → p.neverArms) ∧ w.interrupt = .unarmed from
      ih (fun p hm => hl p (by simp [hm])) hstep.1 hstep.2 hz
    cases sysStep_effect hw with
    | issue i p op k s hi ho => exact ⟨hset (Proc.neverArms_operation (hp i p hi) ho _), hu⟩
    | guard i p k g _ hi hk =>
      refine ⟨hset ?_, hu⟩
      rcases hk with rfl | rfl <;> have := hp i _ hi <;> exact this
    | arm i k _ hi => exact (hp i _ hi).elim
    | post i v p op k hi ho => exact ⟨hset (Proc.neverArms_operation (hp i p hi) ho _), hu⟩
    | start p =>
      refine ⟨fun j q hq => ?_, hu⟩
      rcases getElem?_append_cases hq with hq | rfl
      · exact hp j q hq
      · exact hl q (by simp)
    | invoke a he => rw [hu] at he; cases he
    | enable b => exact ⟨hp, by rw [hu]; rfl⟩
    | _ => exact ⟨hp, hu⟩

/-! Under HOST_IN_ORDER an agent's operations reach the block in the order of their issue. -/

/-- The operations of agent `i` in a trace. -/
def opsOf (i : Nat) (tr : List (Nat × BusOp)) : List BusOp := (tr.filter fun e => e.1 == i).map Prod.snd

/-- The operations of agent `i` among the outstanding. -/
def pendingOf (i : Nat) (l : List Outstanding) : List BusOp := (l.filter fun o => o.agent == i).map (·.op)

@[simp] theorem opsOf_append (i : Nat) (a b : List (Nat × BusOp)) : opsOf i (a ++ b) = opsOf i a ++ opsOf i b := by
  simp [opsOf]

@[simp] theorem opsOf_single (i j : Nat) (op : BusOp) : opsOf i [(j, op)] = if j = i then [op] else [] := by
  by_cases h : j = i <;> simp [opsOf, h]

@[simp] theorem pendingOf_append (i : Nat) (a b : List Outstanding) :
    pendingOf i (a ++ b) = pendingOf i a ++ pendingOf i b := by
  simp [pendingOf]

@[simp] theorem pendingOf_nil (i : Nat) : pendingOf i [] = [] := rfl

theorem pendingOf_cons (i : Nat) (o : Outstanding) (l : List Outstanding) :
    pendingOf i (o :: l) = (if o.agent = i then [o.op] else []) ++ pendingOf i l := by
  by_cases h : o.agent = i <;> simp [pendingOf, h]

theorem pendingOf_waits (h : y.waits i = false) : pendingOf i y.outstanding = [] := by
  simp only [System.waits, List.any_eq_false] at h
  simp only [pendingOf, List.map_eq_nil_iff, List.filter_eq_nil_iff]
  exact h

/-- What an agent has issued is what has reached the block of it, then at most one operation outstanding. -/
def System.inOrder (y : System) : Prop :=
  ∀ i, opsOf i y.issued = opsOf i y.trace ++ pendingOf i y.outstanding ∧ (pendingOf i y.outstanding).length ≤ 1

/-- A step that keeps HOST_IN_ORDER keeps it so. -/
theorem inOrder_step {ch : Choice} (hy : y.inOrder) (hi : ∀ i, IssuesBy ch y i → y.waits i = false)
    (h : sysStep ch y = .next z) : z.inOrder := by
  cases sysStep_effect h with
  | issue j p op k s hp ho =>
    have hw := pendingOf_waits (hi j ⟨.inl rfl, p, hp, by simp [ho]⟩)
    intro i
    obtain ⟨h1, h2⟩ := hy i
    refine ⟨?_, h2⟩
    by_cases hij : j = i
    · subst hij
      simp [h1, hw]
    · simp [h1, hij]
  | post j v p op k hp ho =>
    have hw := pendingOf_waits (hi j ⟨.inr ⟨v, rfl⟩, p, hp, by simp [ho]⟩)
    intro i
    obtain ⟨h1, h2⟩ := hy i
    by_cases hij : j = i
    · subst hij
      simp [h1, hw, pendingOf_cons]
    · simp [h1, h2, hij, pendingOf_cons]
  | reach n o s ho =>
    obtain ⟨hn, rfl⟩ := List.getElem?_eq_some_iff.mp ho
    intro i
    obtain ⟨h1, h2⟩ := hy i
    have hp : pendingOf i y.outstanding = pendingOf i (y.outstanding.take n)
        ++ ((if y.outstanding[n].agent = i then [y.outstanding[n].op] else []) ++ pendingOf i (y.outstanding.drop (n + 1))) := by
      rw [← pendingOf_cons, ← pendingOf_append, List.getElem_cons_drop hn, List.take_append_drop]
    simp only [opsOf_append, opsOf_single, h1, List.eraseIdx_eq_take_drop_succ, pendingOf_append]
    rw [hp] at h2 ⊢
    by_cases hij : y.outstanding[n].agent = i
    · simp only [if_pos hij, List.length_append, List.length_singleton] at h2 ⊢
      rw [List.eq_nil_of_length_eq_zero (l := pendingOf i (y.outstanding.take n)) (by omega),
        List.eq_nil_of_length_eq_zero (l := pendingOf i (y.outstanding.drop (n + 1))) (by omega)]
      simp
    · simp only [if_neg hij, List.nil_append, List.append_nil] at h2 ⊢
      exact ⟨trivial, h2⟩
  | _ => exact hy

/-! A failed start-up. -/

/-- An agent whose program has ended issues nothing more. -/
theorem done_issues_nothing {r : Result} (hp : y.procs[i]? = some (.done r)) (h : sysRun l y = .next z) :
    z.procs[i]? = some (.done r) ∧ opsOf i z.issued = opsOf i y.issued := by
  induction l generalizing y with
  | nil =>
    cases h
    exact ⟨hp, rfl⟩
  | cons ch l ih =>
    obtain ⟨w, hw, hz⟩ := sysRun_cons.mp h
    suffices hstep : w.procs[i]? = some (.done r) ∧ opsOf i w.issued = opsOf i y.issued from
      (ih hstep.1 hz).imp_right (·.trans hstep.2)
    have hset : ∀ (j : Nat) (q : Proc), y.procs[j]? ≠ some (.done r) → (y.procs.set j q)[i]? = some (.done r) ∧ j ≠ i := by
      intro j q hj
      have hji : j ≠ i := fun he => hj (he ▸ hp)
      exact ⟨by rw [List.getElem?_set_ne hji, hp], hji⟩
    have happend : ∀ q : Proc, (y.procs ++ [q])[i]? = some (.done r) := fun q => by
      rw [List.getElem?_append_left (List.getElem?_eq_some_iff.mp hp).1, hp]
    cases sysStep_effect hw with
    | issue j p op k s hj ho =>
      have := hset j (k (s.returned.getD 0#32)) (by rintro he; rw [he] at hj; cases hj; cases ho)
      exact ⟨this.1, by simp [this.2]⟩
    | guard j p k g _ hj hk => exact ⟨(hset j k (by rintro he; rw [he] at hj; cases hj; simp at hk)).1, rfl⟩
    | arm j k _ hj => exact ⟨(hset j k (by rw [hj]; simp)).1, rfl⟩
    | post j v p op k hj ho =>
      have := hset j (k v) (by rintro he; rw [he] at hj; cases hj; cases ho)
      exact ⟨this.1, by simp [this.2]⟩
    | start q => exact ⟨happend q, rfl⟩
    | invoke a => exact ⟨happend _, rfl⟩
    | _ => exact ⟨hp, rfl⟩

theorem startUp_failed {resource registered : Bool} (hf : resource = false ∨ registered = false) :
    startUp c resource registered = .done .failure := by
  rcases hf with rfl | rfl <;> simp [startUp]

/-- R193, R312(e): a start-up that attach-time software has failed issues no bus operation and leaves the
interrupt not enabled, whatever else runs. -/
theorem startUp_fails {s : State} {resource registered : Bool} (hf : resource = false ∨ registered = false)
    (hl : ∀ p, Choice.start p ∈ l → p.neverArms)
    (h : sysRun l (alone s (startUp c resource registered)) = .next z) :
    z.procs[0]? = some (.done .failure) ∧ opsOf 0 z.issued = [] ∧ z.interrupt = .unarmed := by
  rw [startUp_failed hf] at h
  obtain ⟨h1, h2⟩ := done_issues_nothing (i := 0) (r := .failure) rfl h
  refine ⟨h1, h2, unarmed_of_neverArms hl (fun j p hj => ?_) rfl h⟩
  cases j with
  | zero => exact Option.some.inj hj ▸ trivial
  | succ j => cases hj

/-! The order of a start-up. -/

/-- How far the start-up of agent 0 is: what it has issued of the bring-up and what it has still to write;
once the interrupt is enabled nothing is, and the whole has reached the block. -/
structure StartingUp (c : Config) (y : System) : Prop where
  cfg : y.block.cfg = c
  order : y.inOrder
  others : ∀ (j : Nat) p, y.procs[j + 1]? = some p → p.neverArms
  progress : ∃ p past todo, y.procs[0]? = some p ∧ bringUpWrites c = past ++ todo
    ∧ past.Sublist (opsOf 0 y.issued) ∧ p.armsAfter c todo
  armed : y.interrupt ≠ .unarmed → (bringUpWrites c).Sublist (opsOf 0 y.trace)

theorem sysStep_cfg {ch : Choice} (h : sysStep ch y = .next z) : z.block.cfg = y.block.cfg := by
  rcases sysStep_block h with h | ⟨a, h⟩
  · rw [h]
  · revert h
    generalize z.block = t
    intro h
    cases act_effect h with
    | host op i _ he => cases he <;> rfl
    | _ => rfl

theorem startingUp_step {ch : Choice} (hy : StartingUp c y) (hs : ∀ p, ch = .start p → p.neverArms)
    (hi : ∀ i, IssuesBy ch y i → y.waits i = false) (h : sysStep ch y = .next z) : StartingUp c z := by
  have hcfg := (sysStep_cfg h).trans hy.cfg
  have horder := inOrder_step hy.order hi h
  obtain ⟨p0, past, todo, hp0, hw, hpast, harms⟩ := hy.progress
  have h0 : 0 < y.procs.length := (List.getElem?_eq_some_iff.mp hp0).1
  -- an agent goes on from a line with program `q`
  have hset : ∀ (i : Nat) (q : Proc), (i ≠ 0 → q.neverArms) →
      ∀ (j : Nat) r, (y.procs.set i q)[j + 1]? = some r → r.neverArms := by
    intro i q hq j r hr
    rw [List.getElem?_set] at hr
    split at hr
    · split at hr
      · exact Option.some.inj hr ▸ hq (by omega)
      · cases hr
    · exact hy.others j r hr
  have hother : ∀ (i : Nat) p, i ≠ 0 → y.procs[i]? = some p → p.neverArms := by
    intro i p hne hp
    obtain ⟨j, rfl⟩ := Nat.exists_eq_succ_of_ne_zero hne
    exact hy.others j p hp
  -- agent `i` issues `op` and goes on with `q`
  have hissue : ∀ (i : Nat) (p q : Proc) (op : BusOp) (k : Word → Proc) (v : Word), y.procs[i]? = some p →
      p.operation y.block.cfg = some (op, k) → q = k v →
      (∀ (j : Nat) r, (y.procs.set i q)[j + 1]? = some r → r.neverArms)
        ∧ ∃ p past todo, (y.procs.set i q)[0]? = some p ∧ bringUpWrites c = past ++ todo
          ∧ past.Sublist (opsOf 0 (y.issued ++ [(i, op)])) ∧ p.armsAfter c todo := by
    rintro i p q op k v hp ho rfl
    rw [hy.cfg] at ho
    refine ⟨hset i _ fun hne => Proc.neverArms_operation (hother i p hne hp) ho v, ?_⟩
    rw [opsOf_append, opsOf_single]
    by_cases hz : i = 0
    · subst hz
      obtain rfl : p0 = p := by simpa [hp0] using hp
      rcases Proc.armsAfter_operation harms ho v with ha | ⟨rest, rfl, ha⟩
      · exact ⟨_, past, todo, by simp [h0], hw, hpast.trans (List.sublist_append_left _ _), ha⟩
      · exact ⟨_, past ++ [op], rest, by simp [h0], by simp [hw], hpast.append (List.Sublist.refl [op]), ha⟩
    · exact ⟨p0, past, todo, by simp [hz, hp0], hw, hpast.trans (List.sublist_append_left _ _), harms⟩
  have hmore : ∀ a : List (Nat × BusOp), y.interrupt ≠ .unarmed → (bringUpWrites c).Sublist (opsOf 0 (y.trace ++ a)) := by
    intro a ha
    rw [opsOf_append]
    exact (hy.armed ha).trans (List.sublist_append_left _ _)
  -- a new agent begins program `q`
  have happend : ∀ q : Proc, q.neverArms →
      (∀ (j : Nat) r, (y.procs ++ [q])[j + 1]? = some r → r.neverArms) ∧ (y.procs ++ [q])[0]? = some p0 := by
    intro q hq
    refine ⟨fun j r hr => ?_, by rw [List.getElem?_append_left h0]; exact hp0⟩
    rcases getElem?_append_cases hr with hr | rfl
    · exact hy.others j r hr
    · exact hq
  cases sysStep_effect h with
  | rest => exact hy
  | issue i p op k s hp ho =>
    obtain ⟨h1, h2⟩ := hissue i p _ op k _ hp ho rfl
    exact ⟨hcfg, horder, h1, h2, hmore _⟩
  | guard i p k g _ hp hk =>
    have hn : i ≠ 0 → k.neverArms := fun hne => by
      rcases hk with rfl | rfl <;> have := hother i _ hne hp <;> exact this
    refine ⟨hcfg, horder, hset i k hn, ?_, hy.armed⟩
    by_cases hz : i = 0
    · subst hz
      obtain rfl : p0 = p := by simpa [hp0] using hp
      exact ⟨k, past, todo, by simp [h0], hw, hpast, by rcases hk with rfl | rfl <;> exact harms⟩
    · exact ⟨p0, past, todo, by simp [hz, hp0], hw, hpast, harms⟩
  | arm i k hwait hp =>
    by_cases hz : i = 0
    · subst hz
      obtain rfl : p0 = .arm k := by simpa [hp0] using hp
      obtain ⟨rfl, hk⟩ := harms
      rw [List.append_nil] at hw
      have hall := (hy.order 0).1
      rw [pendingOf_waits hwait, List.append_nil] at hall
      refine ⟨hcfg, horder, hset 0 k (absurd rfl), ⟨k, past, [], by simp [h0], by simp [hw], hpast, hk⟩, fun _ => ?_⟩
      rw [← hall, hw]
      exact hpast
    · exact (hother i _ hz hp).elim
  | post i v p op k hp ho =>
    obtain ⟨h1, h2⟩ := hissue i p _ op k _ hp ho rfl
    exact ⟨hcfg, horder, h1, h2, hy.armed⟩
  | reach n o s ho => exact ⟨hcfg, horder, hy.others, ⟨p0, past, todo, hp0, hw, hpast, harms⟩, hmore _⟩
  | start p =>
    obtain ⟨h1, h2⟩ := happend p (hs p rfl)
    exact ⟨hcfg, horder, h1, ⟨p0, past, todo, h2, hw, hpast, harms⟩, hy.armed⟩
  | invoke a =>
    obtain ⟨h1, h2⟩ := happend _ (rxHandler_neverArms a)
    exact ⟨hcfg, horder, h1, ⟨p0, past, todo, h2, hw, hpast, harms⟩, hy.armed⟩
  | enable b =>
    refine ⟨hcfg, horder, hy.others, ⟨p0, past, todo, hp0, hw, hpast, harms⟩, fun ha => hy.armed fun hu => ha ?_⟩
    simp [hu, Interrupt.unmask]
  | env => exact ⟨hcfg, horder, hy.others, ⟨p0, past, todo, hp0, hw, hpast, harms⟩, hy.armed⟩

/-- R193, R355: in every HOST_IN_ORDER run of a start-up, whatever else runs beside it, the interrupt is
enabled only once the seven command writes and then the acknowledge have reached the block, in order. -/
theorem startUp_order {s : State} {resource registered : Bool} (hl : ∀ p, Choice.start p ∈ l → p.neverArms)
    (hi : HostInOrder l (alone s (startUp s.cfg resource registered)))
    (h : sysRun l (alone s (startUp s.cfg resource registered)) = .next z) (hz : z.interrupt ≠ .unarmed) :
    resource = true ∧ registered = true ∧ (bringUpWrites s.cfg).Sublist (opsOf 0 z.trace) := by
  have hok : resource = true ∧ registered = true := by
    refine ⟨?_, ?_⟩ <;> refine Bool.eq_true_of_not_eq_false fun hf => hz (startUp_fails (c := s.cfg) ?_ hl h).2.2
    · exact .inl hf
    · exact .inr hf
  refine ⟨hok.1, hok.2, ?_⟩
  obtain ⟨rfl, rfl⟩ := hok
  have h0 : StartingUp s.cfg (alone s (startUp s.cfg true true)) := by
    refine ⟨rfl, fun i => ⟨rfl, by simp [pendingOf, alone]⟩, fun j p hp => by simp [alone] at hp,
      ⟨_, [], bringUpWrites s.cfg, rfl, rfl, List.nil_sublist _, bringUpThen_armsAfter ⟨rfl, trivial⟩⟩,
      fun hu => absurd rfl hu⟩
  suffices ∀ {l : List Choice} {y : System}, StartingUp s.cfg y → (∀ p, Choice.start p ∈ l → p.neverArms) →
      HostInOrder l y → sysRun l y = .next z → StartingUp s.cfg z from (this h0 hl hi h).armed hz
  intro l
  induction l with
  | nil =>
    intro y hy _ _ hr
    cases hr
    exact hy
  | cons ch l ih =>
    intro y hy hl hi hr
    obtain ⟨w, hw, hr⟩ := sysRun_cons.mp hr
    exact ih (startingUp_step hy (fun p hp => hl p (by simp [hp])) hi.1 hw) (fun p hp => hl p (by simp [hp])) (hi.2 w hw) hr

end Sys2Proof.Driver
end

