-- ==== Sys2Proof/Tests/Slice0.lean ====
section
/-! SUPPORT. Tests against the vectors of 95_test_vectors.md (E0) and words written out from 30_encoding.md; the smoke tests of the checks; decoding; each operation and engine step once or twice. -/

namespace Sys2Proof.Tests

open Sys2Proof.Machine

/-- What `f` reads of the next state, if there is one. -/
def nextOf {α : Type} (f : State → α) : Host.Outcome State Fault Refusal → Option α
  | .next s => some (f s)
  | _ => none

def faultOf : Host.Outcome State Fault Refusal → Option Fault
  | .fault e => some e
  | _ => none

def refusedOf : Host.Outcome State Fault Refusal → Option Refusal
  | .refused r => some r
  | _ => none

def decodes (op : BusOp) : Option Instr :=
  match decode Config.e0 op with
  | .ok i => some i
  | .error _ => none

def rejects (op : BusOp) : Option Reject :=
  match decode Config.e0 op with
  | .ok _ => none
  | .error e => some e

/-- E0 after reset, the storage registers zero. -/
def idle : State := { State.reset with mdioCmd := 0, mdioRdata := 0, rxLen := 0, txLen := 0, macHi := 0, macLo := 0 }

/-- A write in flight. -/
def busyW : State := { idle with mdioPhase := .busy, mdioTxn := some (.write 7 1 2 0xABCD) }

/-- A read in flight. -/
def busyR : State := { idle with mdioPhase := .busy, mdioTxn := some (.read 7 1 2) }

/-- A read of PHY 7 register 1 armed. -/
def armed : State := { idle with mdioPhase := .armed, mdioCmd := 0x00008276 }

/-- The frame of vector X6v staged. -/
def frame14 : List Byte := [0xAA, 0xBB, 0xCC, 0xDD, 0xEE, 0xFF, 1, 2, 3, 4, 0xC0, 0xC1, 0xC2, 0xC3]

def full : State := { idle with rxPhase := .full, rxLen := 14, rxBuf := Memory.ofBytes 0 frame14 }

/-- Four octets in the transmit slot, being sent. -/
def sending : State := { idle with txPhase := .sending, txLen := 4, txBuf := [(0, 0x00), (1, 0x11), (2, 0x22), (3, 0x33)] }

/-- A short transmit slot ready to be sent, the last transmission done. -/
def ready : State := { sending with txPhase := .idle, txDone := true }

/-! The smoke tests: each check refuses an ill-formed term. -/

theorem test_wf_rxbuf : Instr.wellFormed Config.e0 (.rdRxbuf 512) = false := by decide
theorem test_wf_txbuf : Instr.wellFormed Config.e0 (.wrTxbuf 512 0) = false := by decide
theorem test_wf_rxbuf_last : Instr.wellFormed Config.e0 (.rdRxbuf 511) = true := by decide
theorem test_valid_e0 : Config.e0.valid = true := by decide
theorem test_invalid_windows : ({ Config.e0 with basePkt := 0x40000008 } : Config).windowsOk = false := by decide
theorem test_invalid_offset : ({ Config.e0 with rxLen := ⟨.pkt, 6⟩ } : Config).regOk .rxLen = false := by decide
theorem test_invalid_buffer : ({ Config.e0 with sizePkt := 0x1000 } : Config).bufOk Config.e0.rxBuf = false := by decide
theorem test_invalid_buffer_size : ({ Config.e0 with rxBuf := ⟨.pkt, 0x1000, 4⟩ } : Config).bufSizesOk = false := by decide
theorem test_invalid_shared_offset : ({ Config.e0 with txDone := ⟨.pkt, 0x04⟩ } : Config).regsApart = false := by decide
theorem test_valid_shared_faces : ({ Config.e0 with mdioCmd := ⟨.mdio, 0x04⟩ } : Config).valid = true := by decide
theorem test_valid_shared_read_word :
    ({ Config.e0 with mdioData := ⟨.mdio, 0x04⟩, busyBit := 16 } : Config).valid = true := by decide
theorem test_invalid_shared_read_word : ({ Config.e0 with mdioData := ⟨.mdio, 0x04⟩ } : Config).regsApart = false := by decide
theorem test_invalid_buffers_overlap : ({ Config.e0 with txBuf := ⟨.pkt, 0x1400, 2048⟩ } : Config).bufsApart = false := by decide
theorem test_invalid_strobe : ({ Config.e0 with startStrobe := 7 } : Config).codesOk = false := by decide
theorem test_invalid_write_opcode : ({ Config.e0 with writeOpcode := 0 } : Config).codesOk = false := by decide
theorem test_invalid_bringup : ({ Config.e0 with softResetBit := 0x4000 } : Config).bringupOk = false := by decide

/-! Command words: section 2.2, the field values written out bit by bit from R112 and R113. -/

-- 0101 00111 00101 10 0001001000110100
theorem test_word_write : decodes (.memWrite 0x40000008 4 0b01010011100101100001001000110100) = some (.wrMdioCmdW 7 5 0x1234) := by decide
-- 0000000000000000 10 10001 00111 0110
theorem test_word_read : decodes (.memWrite 0x40000008 4 0b00000000000000001010001001110110) = some (.wrMdioCmdR 7 17) := by decide
theorem test_word_write_phy31 : decodes (.memWrite 0x40000008 4 0x5F961234) = some (.wrMdioCmdW 31 5 0x1234) := by decide
theorem test_word_read_phy0 : decodes (.memWrite 0x40000008 4 0x00008A06) = some (.wrMdioCmdR 0 5) := by decide
theorem test_word_zero : rejects (.memWrite 0x40000008 4 0) = some (.malformedMdioCommand 0) := by decide
theorem test_word_opcode6 : rejects (.memWrite 0x40000008 4 0x63820140) = some (.malformedMdioCommand 0x63820140) := by decide
theorem test_word_turnaround3 : rejects (.memWrite 0x40000008 4 0x53830140) = some (.malformedMdioCommand 0x53830140) := by decide
theorem test_word_bit16 : rejects (.memWrite 0x40000008 4 0x00018276) = some (.malformedMdioCommand 0x00018276) := by decide
theorem test_word_read_opcode5 : rejects (.memWrite 0x40000008 4 0x00008275) = some (.malformedMdioCommand 0x00008275) := by decide
theorem test_word_read_turnaround1 : rejects (.memWrite 0x40000008 4 0x00004276) = some (.malformedMdioCommand 0x00004276) := by decide
theorem test_command_write : writeCommand Config.e0 31 = 0x53FE := by decide
theorem test_command_write_alias : writeCommand Config.e0 40 = 0x53A2 := by decide
theorem test_command_write_2048 : writeCommand Config.e0 2048 = 0x7382 := by decide
theorem test_command_write_phy0 : writeCommand { Config.e0 with fixedPhyAddr := 0 } 32 = 0x5082 := by decide
theorem test_command_read : readCommand Config.e0 22 = 0xAC76 := by decide
theorem test_command_read_32 : readCommand Config.e0 32 = 0xC076 := by decide
theorem test_command_read_128 : readCommand Config.e0 128 = 0x8076 := by decide
theorem test_command_words : writeCommandWord Config.e0 27 0x000F = 0x53EE000F ∧ readCommandWord Config.e0 9 = 0x00009276 := by decide

/-! Decoding of every row, at the addresses of the table (e0_address). -/

theorem test_decode_mdio_ctrl : decodes (.memWrite 0x40000000 4 3) = some .wrMdioCtrlStart := by decide
theorem test_decode_mdio_stat : decodes (.memRead 0x40000004 4) = some .rdMdioStat := by decide
theorem test_decode_mdio_data : decodes (.memRead 0x4000000C 4) = some .rdMdioData := by decide
theorem test_decode_rx_avail : decodes (.memRead 0x40010000 4) = some .rdRxAvail := by decide
theorem test_decode_rx_len : decodes (.memRead 0x40010004 4) = some .rdRxLen := by decide
theorem test_decode_rxbuf_last : decodes (.memRead 0x400117FC 4) = some (.rdRxbuf 511) := by decide
theorem test_decode_rx_ack : decodes (.memWrite 0x40010008 4 1) = some .wrRxAck1 := by decide
theorem test_decode_tx_busy : decodes (.memRead 0x4001000C 4) = some .rdTxBusy := by decide
theorem test_decode_txbuf_last : decodes (.memWrite 0x40011FFC 4 9) = some (.wrTxbuf 511 9) := by decide
theorem test_decode_tx_len : decodes (.memWrite 0x40010010 4 60) = some (.wrTxLen 60) := by decide
theorem test_decode_tx_send : decodes (.memWrite 0x40010014 4 1) = some .wrTxSend1 := by decide
theorem test_decode_tx_done : decodes (.memRead 0x40010018 4) = some .rdTxDone := by decide
theorem test_decode_mac_hi_read : decodes (.memRead 0x4001001C 4) = some .rdMacAddrHi := by decide
theorem test_decode_mac_hi_write : decodes (.memWrite 0x4001001C 4 0x200) = some (.wrMacAddrHi 0x200) := by decide
theorem test_decode_mac_lo_read : decodes (.memRead 0x40010020 4) = some .rdMacAddrLo := by decide
theorem test_decode_mac_lo_write : decodes (.memWrite 0x40010020 4 0x5E102030) = some (.wrMacAddrLo 0x5E102030) := by decide
theorem test_decode_rx_err : decodes (.memRead 0x40010024 4) = some .rdRxErrCnt := by decide
theorem test_table_word_write : decodeTableWord 32 0x50020000 = some (.wrMdioCmdW 0 0 0) := by decide
theorem test_table_word_read : decodeTableWord 32 0x00008006 = some (.wrMdioCmdR 0 0) := by decide
theorem test_table_word_start : decodeTableWord 32 3 = some .wrMdioCtrlStart := by decide
theorem test_table_record : decodeTableWord 72 0x140010014_00000001 = some .wrTxSend1 := by decide

/-! Decoding corners: section 2.7 and the refusals of 2.3 to 2.6. -/

theorem test_outside : rejects (.memRead 0x40000010 4) = some (.notThisBlock 0x40000010) := by decide
theorem test_unmapped : rejects (.memRead 0x40010028 4) = some (.unmapped .pkt 0x28 .read) := by decide
theorem test_unmapped_gap : rejects (.memRead 0x40010FFC 4) = some (.unmapped .pkt 0xFFC .read) := by decide
theorem test_byte_read : rejects (.memRead 0x40011000 1) = some (.badWidthOrAlignment 0x40011000 1) := by decide
theorem test_unaligned_read : rejects (.memRead 0x40011002 4) = some (.badWidthOrAlignment 0x40011002 4) := by decide
theorem test_half_write : rejects (.memWrite 0x40010010 2 0) = some (.badWidthOrAlignment 0x40010010 2) := by decide
theorem test_width_before_unmapped : rejects (.memRead 0x40010029 1) = some (.badWidthOrAlignment 0x40010029 1) := by decide
theorem test_strobe_before_fault : refusedOf (hostOp (.memWrite 0x40000000 4 1) busyW) = some (.badStrobeValue 1) := by decide
theorem test_strobe_two_other_bits : rejects (.memWrite 0x40000000 4 5) = some (.badStrobeValue 5) := by decide
theorem test_read_of_ctrl : rejects (.memRead 0x40000000 4) = some (.wrongDirection (.reg .mdioCtrl) .read) := by decide
theorem test_write_of_stat : rejects (.memWrite 0x40000004 4 0) = some (.wrongDirection (.reg .mdioStat) .write) := by decide
theorem test_write_of_rxbuf : rejects (.memWrite 0x40011000 4 0) = some (.wrongDirection (.rxWord 0) .write) := by decide
theorem test_read_of_txbuf : rejects (.memRead 0x40011800 4) = some (.wrongDirection (.txWord 0) .read) := by decide
theorem test_ack_zero : rejects (.memWrite 0x40010008 4 0) = some (.badStrobeValue 0) := by decide

/-! MDIO: section 2.3. -/

theorem test_M2 : nextOf (fun s => s.returned.map fun v => v.getLsbD 0) (exec .rdMdioStat busyW) = some (some true) := by
  change some (some ((putBit (Config.freeWord 0) 0 true).getLsbD 0)) = _
  rw [getLsbD_putBit]
  rfl
theorem test_M3 : nextOf (fun s => s.returned.map fun v => v.getLsbD 0) (exec .rdMdioStat armed) = some (some false) := by
  change some (some ((putBit (Config.freeWord 0) 0 false).getLsbD 0)) = _
  rw [getLsbD_putBit]
  rfl
theorem test_M9 : nextOf (fun s => s.returned.map fun v => v.extractLsb' 0 16)
    (exec .rdMdioData { idle with mdioRdata := 0xABCD, mdioRvalid := true }) = some (some 0xABCD) := by
  change some (some ((putLow (Config.freeWord 0) (some 0xABCD)).extractLsb' 0 16)) = _
  rw [extract_eq (x := 0xABCD#16) fun i hi => by rw [getLsbD_putLow_some, if_pos (by omega), Nat.zero_add]; rfl]
  rfl
theorem test_M4 : nextOf (fun s => (s.mdioPhase, s.mdioTxn, s.mdioCmd, s.mdioRvalid))
    (exec (.wrMdioCmdW 7 1 0xABCD) { idle with mdioRvalid := true })
      = some (.busy, some (.write 7 1 2 0xABCD), 0x5386ABCD, false) := by decide
theorem test_M5 : (mdioComplete 0 busyW).history = [.mdioWriteTxn 7 1 2 0xABCD] ∧ (mdioComplete 0 busyW).mdioPhase = .idle
    ∧ (mdioComplete 0 busyW).mdioTxn = none ∧ (mdioComplete 0 busyW).mdioRvalid = false := by decide
theorem test_M7 : nextOf (fun s => (s.mdioPhase, s.mdioTxn, s.mdioRvalid)) (exec .wrMdioCtrlStart armed)
      = some (.busy, some (.read 7 1 2), false) := by decide
theorem test_M8 : (mdioComplete 0xABCD busyR).history = [.mdioReadTxn 7 1 2 0xABCD] ∧ (mdioComplete 0xABCD busyR).mdioRdata = 0xABCD
    ∧ (mdioComplete 0xABCD busyR).mdioRvalid = true ∧ (mdioComplete 0xABCD busyR).mdioPhase = .idle := by decide
theorem test_M11 : nextOf (fun s => s.returned) (exec .rdMdioData { busyR with mdioRvalid := true }) = some (some (Config.freeWord 0)) := rfl
theorem test_M12 : faultOf (exec (.wrMdioCmdW 7 0 0x140) busyW) = some (.mdioAccessWhileBusy 0x53820140) := by decide
theorem test_M13 : faultOf (exec (.wrMdioCmdR 7 1) busyW) = some (.mdioAccessWhileBusy 0x00008276) := by decide
theorem test_M14 : faultOf (exec .wrMdioCtrlStart busyR) = some (.mdioAccessWhileBusy 3) := by decide
theorem test_M15 : faultOf (exec .wrMdioCtrlStart idle) = some .mdioStrobeNotArmed := by decide
theorem test_M16 : nextOf (fun s => (s.mdioPhase, s.mdioCmd)) (exec (.wrMdioCmdR 7 5) armed) = some (.armed, 0x00008A76) := by decide

/-! Receive: section 2.4. -/

theorem test_X2v : nextOf (fun s => s.returned) (exec .rdRxAvail full) = some (some 1) := by decide
theorem test_X3v : nextOf (fun s => s.returned) (exec .rdRxLen { full with rxLen := 64 }) = some (some 0x40) := by decide
theorem test_X5v : nextOf (fun s => s.returned) (exec .rdRxLen idle) = some (some (Config.freeWord 0)) := rfl
theorem test_X6v : nextOf (fun s => s.returned) (exec (.rdRxbuf 2) full) = some (some 0xC1C00403) := by decide
theorem test_X6v_last : nextOf (fun s => s.returned.map fun v => (lane v 0, lane v 1)) (exec (.rdRxbuf 3) full)
      = some (some (0xC2, 0xC3)) := by
  change some (some (lane (ofLanes 0xC2 0xC3 (lane (Config.freeWord 0) 2) (lane (Config.freeWord 0) 3)) 0,
    lane (ofLanes 0xC2 0xC3 (lane (Config.freeWord 0) 2) (lane (Config.freeWord 0) 3)) 1)) = _
  rw [lane_ofLanes_zero, lane_ofLanes_one]
theorem test_rxbuf_no_such_word : refusedOf (exec (.rdRxbuf 512) full) = some (.noSuchBufferWord 512) := by decide
theorem test_X9v : nextOf (fun s => (s.rxPhase, s.irqRx, s.history)) (exec .wrRxAck1 full)
      = some (.empty, false, [.irqRx false, .frameReleased]) := by decide
theorem test_X10v : nextOf (fun s => (s.rxPhase, s.history)) (exec .wrRxAck1 idle) = some (.empty, []) := by decide
theorem test_X11v : faultOf (exec .wrRxAck1 { idle with cfg := { Config.e0 with ackEmpty := .fault } }) = some .ackWhileEmpty := by decide
theorem test_X13v : nextOf (fun s => (s.rxPhase, s.rxLen, s.irqRx, s.history)) (receiveFrame frame14 idle)
      = some (.full, 14, true, [.irqRx true, .frameStaged frame14]) := by decide
theorem test_X14v : ((dropFrame full).rxPhase, (dropFrame full).rxLen) = (.full, 14)
    ∧ ((dropFrame full).rxErrCnt = 0 ∨ (dropFrame full).rxErrCnt = 1) := by
  rcases dropFrame_cases full with h | h <;> rw [h] <;> decide
theorem test_X15v : refusedOf (receiveFrame [1, 2, 3] idle) = some (.frameOutsideBounds 3) := by decide

/-! Transmit: section 2.5. -/

theorem test_T2 : nextOf (fun s => s.returned) (exec .rdTxBusy sending) = some (some 1) := by decide
theorem test_T3 : nextOf (fun s => s.txBuf) (exec (.wrTxbuf 0 0x33221100) idle) = some [(0, 0x00), (1, 0x11), (2, 0x22), (3, 0x33)] := by decide
theorem test_T6 : nextOf (fun s => s.txLen) (exec (.wrTxLen 0xFFFFFFFF) idle) = some 0xFFFFFFFF := by decide
theorem test_T7 : nextOf (fun s => (s.txPhase, s.txDone, s.irqTx, s.history)) (exec .wrTxSend1 ready)
      = some (.sending, false, false, [.irqTx false]) := by decide
theorem test_T8 : ((txComplete sending).history, (txComplete sending).txPhase, (txComplete sending).txDone)
      = ([.frameSent [0x00, 0x11, 0x22, 0x33], .irqTx true], .idle, true) := by decide
theorem test_T9 : faultOf (exec .wrTxSend1 idle) = some (.txBadLength 0) := by decide
theorem test_T10 : faultOf (exec .wrTxSend1 { ready with txLen := 2049 }) = some (.txBadLength 2049) := by decide
theorem test_T11 : nextOf (fun s => s.txPhase) (exec .wrTxSend1 { ready with txLen := 2048 }) = some .sending := by decide
theorem test_T13 : faultOf (exec (.wrTxbuf 0 5) sending) = some (.txWriteWhileBusy (some 0)) := by decide
theorem test_T14 : faultOf (exec (.wrTxLen 5) sending) = some (.txWriteWhileBusy none) := by decide
theorem test_T15 : faultOf (exec .wrTxSend1 sending) = some .txSendWhileBusy := by decide
theorem test_T17 : nextOf (fun s => (s.returned, s.txDone)) (exec .rdTxDone ready) = some (some 1, true) := by decide

/-! MAC address and error counter: section 2.6. -/

theorem test_A1_hi : nextOf (fun s => s.macHi) (exec (.wrMacAddrHi 0x0200) idle) = some 0x0200 := by decide
theorem test_A1_lo : nextOf (fun s => s.macLo) (exec (.wrMacAddrLo 0x5E102030) idle) = some 0x5E102030 := by decide
theorem test_A1_address : State.macAddress { idle with macHi := 0x0200, macLo := 0x5E102030 } = [0x02, 0x00, 0x5E, 0x10, 0x20, 0x30] := by decide
theorem test_A3 : nextOf (fun s => s.returned) (exec .rdMacAddrHi { idle with macHi := 0xABCD0200 }) = some (some 0xABCD0200) := by decide
theorem test_A2_lo : nextOf (fun s => s.returned) (exec .rdMacAddrLo { idle with macLo := 0x5E102030 }) = some (some 0x5E102030) := by decide
theorem test_A5 : nextOf (fun s => (s.returned, s.rxErrCnt)) (exec .rdRxErrCnt { idle with rxErrCnt := 2 }) = some (some 2, 2) := by decide
theorem test_A6 : ((countBadFrame { idle with rxErrCnt := 0xFFFFFFFF }).rxErrCnt, (countBadFrame idle).history) = (0, [.badFrameCounted]) := by decide

/-! The step: the first operation after reset, and rest. -/

theorem test_step_first : nextOf (fun s => (s.mdioPhase, s.agenda)) (step (State.reset.withFetchWord 32 0x53820140)) = some (.busy, []) := by decide
theorem test_step_record : nextOf (fun s => s.returned) (step (State.reset.withFetchWord 72 0x40010018_00000000)) = some (some 0) := by decide
theorem test_step_rest : nextOf (fun s => s.mdioPhase) (step State.reset) = some .idle := by decide

/-! The witnesses: for each statement with hypotheses, a state and operands that meet all of them together. -/

theorem valid_idle : idle.cfg.valid = true := test_valid_e0

/-- E0 with MDIO_STAT and MDIO_DATA in one read word (R25). -/
def sharedCfg : Config := { Config.e0 with mdioData := ⟨.mdio, 0x04⟩, busyBit := 16 }

/-- E0 with the strict acknowledge. -/
def strict : State := { idle with cfg := { Config.e0 with ackEmpty := .fault } }

/-- A read in flight whose completion is the one step to come. -/
def live : State := { busyR with agenda := [.mdioEngine 0xABCD] }

theorem inv_idle : idle.Inv := by
  constructor
  case cfgValid => exact valid_idle
  all_goals simp [idle, State.reset, State.resetWith, Memory.below]

theorem inv_live : live.Inv := by
  constructor
  case cfgValid => exact valid_idle
  all_goals simp [live, busyR, idle, State.reset, State.resetWith, Memory.below, Txn.ta, Config.e0]

theorem inv_full : full.Inv := by
  constructor
  case cfgValid => exact valid_idle
  case rxLenBounds => decide
  case rxHeld => exact fun _ => by decide
  case rxWf => exact Memory.ofBytes_wf _ _
  case rxBelow => exact Memory.ofBytes_below _ (by decide)
  all_goals simp [full, idle, State.reset, State.resetWith, Memory.below]

theorem inv_sending : sending.Inv := by
  constructor
  case cfgValid => exact valid_idle
  case txLenBounds => decide
  case txWf => simp [sending]
  case txBelow => simp [Memory.below, sending, idle, State.reset, State.resetWith, Config.e0]
  all_goals simp [sending, idle, State.reset, State.resetWith, Memory.below]

theorem rest_stays (s : State) (h : s.agenda = []) (k : Nat) : ∀ t, Host.Core.run core k s = .next t → t = s := by
  have hs : core.step s = .next s := by simp [core, step, runNext, h]
  induction k with
  | zero => intro t ht; cases ht; rfl
  | succ k ih => intro t ht; simp only [Host.Core.run, hs] at ht; exact ih t ht

theorem mdioLive_live : MdioLive live := by
  intro k t ht hb
  cases k with
  | zero => cases ht; exact ⟨0xABCD, by decide⟩
  | succ k =>
    have hs : core.step live = .next (mdioComplete 0xABCD { live with agenda := [] }) := rfl
    simp only [Host.Core.run, hs] at ht
    rw [rest_stays _ (by rfl) k t ht] at hb
    cases hb

/-- A transmission in flight whose completion is the one step to come. -/
def sendingLive : State := { sending with agenda := [.txEngine] }

theorem txLive_sendingLive : TxLive sendingLive := by
  intro k t ht hb
  cases k with
  | zero => cases ht; decide
  | succ k =>
    have hs : core.step sendingLive = .next (txComplete { sendingLive with agenda := [] }) := rfl
    simp only [Host.Core.run, hs] at ht
    rw [rest_stays _ (by rfl) k t ht] at hb
    cases hb

/-- A staged frame, the receive interrupt enabled and no handler yet. -/
def interrupted : Driver.System := { Driver.alone full (.done .success) with interrupt := .enabled }

theorem test_witness_DecodeOfEncode : Config.e0.valid = true ∧ Instr.wellFormed Config.e0 (.wrTxbuf 511 0) = true
    ∧ (Config.e0.mdioStat = Config.e0.mdioData → Instr.wrTxbuf 511 0 ≠ .rdMdioData) := ⟨test_valid_e0, by decide, by decide⟩
theorem test_witness_EncodeOfDecode : Config.e0.valid = true ∧ decode Config.e0 (.memRead 0x400117FC 4) = .ok (.rdRxbuf 511) :=
  ⟨test_valid_e0, rfl⟩
theorem test_witness_SharedReadWord : sharedCfg.valid = true ∧ sharedCfg.mdioStat = sharedCfg.mdioData :=
  ⟨test_valid_shared_read_word, rfl⟩
theorem test_witness_CommandFormsExclusive : Config.e0.valid = true ∧ Config.e0.writeForm 0x53820140 = true
    ∧ Config.e0.readForm 0x00008276 = true := ⟨test_valid_e0, by decide, by decide⟩
theorem test_witness_AssembledCommandWords : (0 < 32 ∧ 31 < 32) ∧ writeCommandWord Config.e0 31 0x1234 = 0x53FE1234 := by decide
theorem test_witness_BadWidthOrAlignmentRefused : idle.cfg.window? 0x40011000 ≠ none ∧ idle.cfg.window? 0x40011002 ≠ none
    ∧ (BusOp.memRead 0x40011000 1).width ≠ 4 ∧ (BusOp.memRead 0x40011002 4).addr % 4 ≠ 0 := by decide
theorem test_witness_UnmappedRefused : idle.cfg.window? 0x40010028 = some (.pkt, 0x28)
    ∧ (Reg.all.all fun r => !(idle.cfg.loc r == ⟨.pkt, 0x28⟩)) = true ∧ idle.cfg.rxBuf.holds .pkt 0x28 = false
    ∧ idle.cfg.txBuf.holds .pkt 0x28 = false := by decide
theorem test_witness_WrongDirectionRefused : idle.cfg.valid = true ∧ Reg.admits .txLen .read = false ∧ Reg.admits .rxErrCnt .write = false
    ∧ (Reg.all.all fun r => !(idle.cfg.loc r == idle.cfg.loc .txLen) || decide (r = .txLen)) = true
    ∧ (Reg.all.all fun r => !(idle.cfg.loc r == idle.cfg.loc .rxErrCnt) || decide (r = .rxErrCnt)) = true
    ∧ 511 < idle.cfg.rxBuf.bytes / 4 ∧ 511 < idle.cfg.txBuf.bytes / 4 :=
  ⟨valid_idle, by decide, by decide, by decide, by decide, by decide, by decide⟩
theorem test_witness_BadStrobeRefused : idle.cfg.valid = true ∧ (2 : Word) ≠ 1 ∧ (1 : Word) ≠ idle.cfg.startStrobe :=
  ⟨valid_idle, by decide, by decide⟩
theorem test_witness_MalformedCommandRefused : idle.cfg.valid = true ∧ idle.cfg.writeForm 0 = false ∧ idle.cfg.readForm 0 = false :=
  ⟨valid_idle, by decide, by decide⟩
theorem test_witness_ReadMdioStat : busyW.cfg.valid = true ∧ busyW.cfg.mdioStat ≠ busyW.cfg.mdioData := ⟨valid_idle, by decide⟩
theorem test_witness_WriteCommandStartsWrite : busyW.cfg.valid = true ∧ idle.cfg.writeForm 0x53820140 = true
    ∧ busyW.mdioPhase = .busy ∧ idle.mdioPhase ≠ .busy ∧ armed.mdioPhase ≠ .busy := ⟨valid_idle, by decide, rfl, by decide, by decide⟩
theorem test_witness_WriteCommandCompletes : idle.mdioPhase ≠ .busy ∧ armed.mdioPhase ≠ .busy := by decide
theorem test_witness_ReadCommandArms : idle.cfg.valid = true ∧ idle.cfg.readForm 0x00008276 = true
    ∧ busyR.mdioPhase = .busy ∧ armed.mdioPhase ≠ .busy := ⟨valid_idle, by decide, rfl, by decide⟩
theorem test_witness_ReadCommandCompletes : idle.mdioPhase ≠ .busy ∧ armed.mdioPhase ≠ .busy := by decide
theorem test_witness_StartStrobe : idle.cfg.valid = true ∧ busyR.mdioPhase = .busy ∧ idle.mdioPhase = .idle
    ∧ armed.mdioPhase = .armed := ⟨valid_idle, rfl, rfl, rfl⟩
theorem test_witness_ReadMdioData : idle.cfg.valid = true ∧ idle.cfg.mdioStat ≠ idle.cfg.mdioData
    ∧ (mdioComplete 9 busyR).mdioRvalid = true ∧ (mdioComplete 9 busyR).mdioPhase ≠ .busy
    ∧ idle.mdioRvalid = false ∧ busyR.mdioPhase = .busy := ⟨valid_idle, by decide, by decide, by decide, rfl, rfl⟩
theorem test_witness_MdioWritesFaultWhileBusy : busyR.cfg.valid = true ∧ busyR.mdioPhase = .busy := ⟨valid_idle, rfl⟩
theorem test_witness_WriteTransactionCompletes : ({ busyW with agenda := [.mdioEngine 0] } : State).mdioPhase = .busy
    ∧ busyW.mdioTxn = some (.write 7 1 2 0xABCD) := by decide
theorem test_witness_ReadTransactionCompletes : live.agenda = .mdioEngine 0xABCD :: [] ∧ live.mdioPhase = .busy
    ∧ live.mdioTxn = some (.read 7 1 2) := by decide
theorem test_witness_ReadRxAvail : full.cfg.valid = true ∧ full.rxPhase = .full
    ∧ ∃ t, act (.host (writeOf full.cfg (.reg .rxAck) 1)) full = .next t := ⟨valid_idle, rfl, _, rfl⟩
theorem test_witness_ReadRxLen : full.cfg.valid = true ∧ idle.cfg.valid = true := ⟨valid_idle, valid_idle⟩
theorem test_witness_ReadRxBuf : full.cfg.valid = true ∧ 511 < full.cfg.rxBuf.bytes / 4 ∧ full.rxPhase = .full
    ∧ 4 * 3 + 1 < full.rxLen.toNat ∧ full.rxBuf.get? (4 * 3 + 1) = some 0xC3 ∧ full.rxLen.toNat ≤ 4 * 3 + 2
    ∧ idle.rxPhase = .empty := ⟨valid_idle, by decide, rfl, by decide, by decide, by decide, rfl⟩
theorem test_witness_Acknowledge : full.cfg.valid = true ∧ strict.cfg.valid = true ∧ full.rxPhase = .full ∧ idle.rxPhase = .empty
    ∧ idle.cfg.ackEmpty = .ignore ∧ strict.rxPhase = .empty ∧ strict.cfg.ackEmpty = .fault :=
  ⟨valid_idle, by decide, rfl, rfl, rfl, rfl, rfl⟩
theorem test_witness_FrameIsStaged : idle.cfg.valid = true ∧ idle.rxPhase = .empty ∧ 4 ≤ [1, 2, 3, (4 : Byte)].length
    ∧ (List.replicate 2048 (0 : Byte)).length ≤ idle.cfg.rxBuf.bytes :=
  ⟨valid_idle, rfl, by decide, by rw [List.length_replicate]; decide⟩
theorem test_witness_FrameIsDropped : full.rxPhase = .full ∧ 4 ≤ frame14.length ∧ frame14.length ≤ full.cfg.rxBuf.bytes := by decide
theorem test_witness_ReadTxBusy : ready.cfg.valid = true ∧ ready.txPhase = .idle
    ∧ ∃ t, act (.host (writeOf ready.cfg (.reg .txSend) 1)) ready = .next t := ⟨valid_idle, rfl, _, rfl⟩
theorem test_witness_WriteTxBuf : idle.cfg.valid = true ∧ 511 < idle.cfg.txBuf.bytes / 4 ∧ sending.txPhase = .sending
    ∧ idle.txPhase = .idle := ⟨valid_idle, by decide, rfl, rfl⟩
theorem test_witness_WriteTxLen : sending.cfg.valid = true ∧ sending.txPhase = .sending ∧ idle.txPhase = .idle := ⟨valid_idle, rfl, rfl⟩
theorem test_witness_SendStrobe : ready.cfg.valid = true ∧ sending.txPhase = .sending ∧ ready.txPhase = .idle ∧ idle.txLen.toNat = 0
    ∧ ready.cfg.txBuf.bytes < ({ ready with txLen := 2049 } : State).txLen.toNat ∧ 1 ≤ ready.txLen.toNat
    ∧ ({ ready with txLen := 2048 } : State).txLen.toNat ≤ ready.cfg.txBuf.bytes :=
  ⟨valid_idle, rfl, rfl, rfl, by decide, by decide, by decide⟩
theorem test_witness_ReadTxDone : ready.cfg.valid = true := valid_idle
theorem test_witness_TransmissionCompletes : ({ sending with agenda := [.txEngine] } : State).agenda = .txEngine :: []
    ∧ sending.txPhase = .sending ∧ 3 < sending.txLen.toNat ∧ sending.txBuf.get? 3 = some 0x33 := by decide
theorem test_witness_MacAddressRegisters : idle.cfg.valid = true := valid_idle
theorem test_witness_ReadRxErrCnt : idle.cfg.valid = true := valid_idle
theorem test_witness_StepRunsDecoded : ∃ s op i, s.agenda = Action.host op :: [] ∧ decode s.cfg op = .ok i
    ∧ step s = exec i { s with agenda := [] } :=
  ⟨idle.issue (.memWrite 0x40010010 4 60), _, .wrTxLen 60, rfl, rfl, rfl⟩
theorem test_witness_ResetMeetsInvariant : Config.e0.valid = true := test_valid_e0
theorem test_witness_StepKeepsInvariant : live.Inv ∧ full.Inv ∧ sending.Inv ∧ ∃ t, step live = .next t :=
  ⟨inv_live, inv_full, inv_sending, _, rfl⟩
theorem test_witness_StepKeepsParameters : ∃ t, step live = .next t := ⟨_, rfl⟩
theorem test_witness_MdioPhaseTransitions : (∃ t, act (.mdioEngine 0) busyW = .next t ∧ t.mdioPhase ≠ busyW.mdioPhase)
    ∧ (∃ t, act (.host (writeOf armed.cfg (.reg .mdioCtrl) 3)) armed = .next t ∧ t.mdioPhase ≠ armed.mdioPhase)
    ∧ (∃ t, act (.host (writeOf idle.cfg (.reg .mdioCmd) 0x00008276)) idle = .next t ∧ t.mdioPhase ≠ idle.mdioPhase)
    ∧ (∃ t, act (.host (writeOf idle.cfg (.reg .mdioCmd) 0x53820140)) idle = .next t ∧ t.mdioPhase ≠ idle.mdioPhase) :=
  ⟨⟨_, rfl, by decide⟩, ⟨_, rfl, by decide⟩, ⟨_, rfl, by decide⟩, ⟨_, rfl, by decide⟩⟩
theorem test_witness_RxPhaseTransitions : idle.cfg.valid = true ∧ full.cfg.valid = true
    ∧ (∃ t, act (.wireFrame frame14) idle = .next t ∧ t.rxPhase ≠ idle.rxPhase)
    ∧ (∃ t, act (.host (writeOf full.cfg (.reg .rxAck) 1)) full = .next t ∧ t.rxPhase ≠ full.rxPhase)
    ∧ idle.rxPhase = .empty ∧ 4 ≤ frame14.length ∧ frame14.length ≤ idle.cfg.rxBuf.bytes ∧ full.rxPhase = .full
    ∧ ∃ t, act (.wireFrame frame14) full = .next t :=
  ⟨valid_idle, valid_idle, ⟨_, rfl, by decide⟩, ⟨_, rfl, by decide⟩, rfl, by decide, by decide, rfl, _, rfl⟩
theorem test_witness_TxPhaseTransitions : (∃ t, act .txEngine sending = .next t ∧ t.txPhase ≠ sending.txPhase)
    ∧ (∃ t, act (.host (writeOf ready.cfg (.reg .txSend) 1)) ready = .next t ∧ t.txPhase ≠ ready.txPhase) :=
  ⟨⟨_, rfl, by decide⟩, ⟨_, rfl, by decide⟩⟩
theorem test_witness_ReceiveSlotOwnership : idle.cfg.valid = true ∧ full.cfg.valid = true ∧ idle.rxPhase = .empty
    ∧ 4 ≤ frame14.length ∧ frame14.length ≤ idle.cfg.rxBuf.bytes ∧ 511 < idle.cfg.rxBuf.bytes / 4 ∧ full.rxPhase = .full
    ∧ (∃ t, act .badFrame full = .next t) ∧ 4 * 3 + 1 < full.rxLen.toNat ∧ full.rxBuf.get? (4 * 3 + 1) = some 0xC3 :=
  ⟨valid_idle, valid_idle, rfl, by decide, by decide, by decide, rfl, ⟨_, rfl⟩, by decide, by decide⟩
theorem test_witness_TransmitSlotOwnership : idle.cfg.valid = true ∧ sending.cfg.valid = true ∧ ready.txPhase = .idle
    ∧ 511 < idle.cfg.txBuf.bytes / 4 ∧ 1 ≤ ready.txLen.toNat ∧ ready.txLen.toNat ≤ ready.cfg.txBuf.bytes
    ∧ sending.txPhase = .sending ∧ (∃ t, act .badFrame sending = .next t) ∧ ∃ t, act .txEngine ready = .next t :=
  ⟨valid_idle, valid_idle, rfl, by decide, by decide, by decide, rfl, ⟨_, rfl⟩, _, rfl⟩
theorem test_witness_ReadsAreHarmless : (encode full.cfg (.rdRxbuf 511)).dir = .read ∧ Instr.wellFormed full.cfg (.rdRxbuf 511) = true := by decide
theorem test_witness_StoringWritesAreIdempotent : idle.Inv ∧ ∃ t, exec (.wrTxbuf 3 0x33221100) idle = .next t := ⟨inv_idle, _, rfl⟩
theorem test_witness_OneRisePerFrame : sending.Inv ∧ live.Inv ∧ ∃ t, step live = .next t := ⟨inv_sending, inv_live, _, rfl⟩
theorem test_witness_LiveTransactionEnds :
    (live.Inv ∧ MdioLive live ∧ live.mdioPhase = .busy ∧ ∃ a, Action.mdioEngine a ∈ live.agenda)
    ∧ (TxLive sendingLive ∧ sendingLive.txPhase = .sending ∧ Action.txEngine ∈ sendingLive.agenda)
    ∧ DeliveryFair (fun _ => .invoke true) interrupted ∧ runFor (fun _ => .invoke true) 0 interrupted = .next interrupted
    ∧ InterruptDue interrupted :=
  ⟨⟨inv_live, mdioLive_live, rfl, Driver.mdioLive_pending mdioLive_live rfl⟩,
    ⟨txLive_sendingLive, rfl, Driver.txLive_pending txLive_sendingLive rfl⟩,
    fun n _ _ _ => ⟨n, Nat.le_refl n, .inl ⟨true, rfl⟩⟩, rfl, rfl, rfl⟩
theorem test_witness_StuckEnginesStayBusy : busyR.agenda = [] ∧ sending.agenda = [] ∧ armed.mdioPhase ≠ .busy
    ∧ idle.mdioPhase ≠ .busy ∧ ready.txPhase = .idle := ⟨rfl, rfl, by decide, by decide, rfl⟩
theorem test_witness_MdioRoundTrip : idle.cfg.valid = true ∧ idle.mdioPhase ≠ .busy ∧ armed.mdioPhase ≠ .busy ∧ 31 < 32 :=
  ⟨valid_idle, by decide, by decide, by decide⟩
theorem test_witness_BringUpSequence : (full.cfg.valid = true ∧ full.mdioPhase ≠ .busy ∧ full.cfg.ackEmpty = .ignore)
    ∧ (strict.cfg.valid = true ∧ strict.mdioPhase ≠ .busy ∧ strict.cfg.ackEmpty = .fault ∧ strict.rxPhase = .empty)
    ∧ ({ full with cfg := strict.cfg } : State).rxPhase = .full :=
  ⟨⟨valid_idle, by decide, rfl⟩, ⟨by decide, by decide, rfl, rfl⟩, rfl⟩
theorem test_witness_HandlerDeliversFrame : idle.cfg.valid = true ∧ idle.rxPhase = .empty ∧ 4 ≤ frame14.length
    ∧ frame14.length ≤ idle.cfg.rxBuf.bytes ∧ ∃ t, act (.wireFrame frame14) idle = .next t :=
  ⟨valid_idle, rfl, by decide, by decide, _, rfl⟩
theorem test_witness_SpuriousInterrupt : idle.cfg.valid = true ∧ idle.rxPhase = .empty := ⟨valid_idle, rfl⟩
theorem test_witness_AllocationFailureAcknowledges : full.cfg.valid = true ∧ full.rxPhase = .full := ⟨valid_idle, rfl⟩
theorem test_witness_TransmitSendsFrame : ready.cfg.valid = true ∧ ready.txPhase = .idle ∧ 1 ≤ [(7 : Byte)].length
    ∧ [(7 : Byte)].length ≤ ready.cfg.txBuf.bytes ∧ [(7 : Byte)].length < 2 ^ 32
    ∧ 1 ≤ ready.txLen.toNat ∧ ready.txLen.toNat ≤ ready.cfg.txBuf.bytes
    ∧ idle.txPhase = .idle ∧ idle.txLen.toNat = 0 ∧ idle.cfg.txBuf.bytes < ({ idle with txLen := 2049 } : State).txLen.toNat :=
  ⟨valid_idle, rfl, by decide, by decide, by decide, by decide, by decide, rfl, rfl, by decide⟩
/-- What overtakes is no HOST_IN_ORDER run: the strobe is issued while the length is outstanding. -/
theorem test_overtaking_is_out_of_order :
    ¬HostInOrder [.post 0 0, .host 0] (Driver.alone ready (.wr (.reg .txLen) 60 (.wr (.reg .txSend) 1 (.done .accepted)))) :=
  fun h => absurd ((h.2 _ rfl).1 0 ⟨.inl rfl, _, rfl, nofun⟩) (by decide)
theorem test_witness_TransmitRefusesWhenBusy : ready.cfg.valid = true ∧ ready.txPhase = .idle ∧ 1 ≤ ready.txLen.toNat
    ∧ ready.txLen.toNat ≤ ready.cfg.txBuf.bytes := ⟨valid_idle, rfl, by decide, by decide⟩
/-- What `f` reads of the next system, if there is one. -/
def nextSys {α : Type} (f : Driver.System → α) : Host.Outcome Driver.System Fault Refusal → Option α
  | .next y => some (f y)
  | _ => none

/-! Device start-up (R193): its last line enables the interrupt, no handler is invoked before, an attach-time failure comes before any bus operation (R312(e)). -/

theorem test_start_up_arms :
    nextSys (·.interrupt) (Driver.sysStep (.host 0) (Driver.alone idle (.arm (.done .success)))) = some .enabled := by decide
theorem test_invoke_before_start_up :
    nextSys (·.procs.length) (Driver.sysStep (.invoke true) (Driver.alone idle (.done .success))) = some 1 := by decide
theorem test_start_up_no_resource : Driver.startUp Config.e0 false true = .done .failure := rfl
theorem test_start_up_not_registered : Driver.startUp Config.e0 true false = .done .failure := rfl

/-- Agent 1 holds the guard and agent 0 waits for it. -/
def waiting : Driver.System :=
  ⟨idle, some 1, [.lock (.done .success), .wr (.reg .txLen) 60 (.unlock (.done .accepted))], [], [], [], .unarmed⟩

theorem test_witness_GuardExcludes : waiting.guard = some 1 ∧ waiting.procs[0]? = some (.lock (.done .success))
    ∧ waiting.waits 0 = false
    ∧ (∀ (l' rest : List Driver.Choice) (w : Driver.System), l' ++ rest = [Driver.Choice.host 0] →
        Driver.sysRun l' waiting = .next w → w.guard = some 1)
    ∧ ∃ z, Driver.sysRun [.host 0] waiting = .next z := by
  refine ⟨rfl, rfl, rfl, fun l' rest w h hw => ?_, _, rfl⟩
  cases l' with
  | nil => cases hw; rfl
  | cons c l' =>
    obtain ⟨rfl, hl⟩ := List.cons.inj h
    obtain ⟨rfl, -⟩ := List.append_eq_nil_iff.mp hl
    cases hw
    rfl

end Sys2Proof.Tests
end

/-! The bus operations that decode to an operation: each is an aligned 32-bit access at its target's own address. -/

namespace Sys2Proof

/-- What lies at an aligned offset of a window has that place as its own (R12, R75). -/
theorem Config.targetLoc_of_mem_targetsAt {c : Config} (hv : c.valid = true) {w : Window} {off : Nat} {t : Target}
    (ht : t ∈ c.targetsAt w off) (ha : off % 4 = 0) : c.targetLoc t = ⟨w, off⟩ := by
  have hrx := (Config.rxBuf_bounds hv).1
  have htx := (Config.txBuf_bounds hv).1
  rcases Config.mem_targetsAt.mp ht with ⟨r, rfl, hl⟩ | ⟨hb, rfl⟩ | ⟨hb, rfl⟩
  · exact hl
  all_goals
    obtain ⟨rfl, hlo, -⟩ := BufLoc.holds_iff.mp hb
    simp only [Config.targetLoc, Loc.mk.injEq, true_and]
    omega

/-- What an operation that decodes has passed (R72, R75): it is a 32-bit access at the address of some target,
and the second stage of R110 has answered for that target. -/
theorem decode_ok_target {c : Config} (hv : c.valid = true) {op : BusOp} {i : Instr} (h : decode c op = .ok i) :
    ∃ t, op.addr = c.addr t ∧ op.width = busWidth ∧ decodeAt c op t = .ok i := by
  unfold decode at h
  split at h
  · cases h
  rename_i w off hw
  split at h
  · rename_i hal
    split at h
    · rename_i t hsel
      obtain ⟨haddr, -⟩ := Config.base_of_window? hw
      have hoff : off % 4 = 0 := by
        have hbase := Config.base_aligned hv w
        have h4 : op.addr % 4 = 0 := hal.2
        omega
      have hloc := Config.targetLoc_of_mem_targetsAt hv (Config.select_ok hsel).1 hoff
      exact ⟨t, by rw [haddr, Config.addr, hloc], hal.1, h⟩
    · cases h
  · cases h

/-- Only a write of 1 to RX_ACK has the acknowledge as its second stage (R125, R142). -/
theorem decodeAt_eq_wrRxAck1 {c : Config} {op : BusOp} {t : Target} (h : decodeAt c op t = .ok .wrRxAck1) :
    t = .reg .rxAck ∧ op = .memWrite op.addr op.width 1#32 := by
  cases op with
  | memRead a n =>
    simp only [decodeAt, decodeRead] at h
    split at h <;> cases h
  | memWrite a n v =>
    simp only [decodeAt, decodeWrite] at h
    repeat' split at h
    all_goals cases h
    next hv => exact ⟨rfl, by rw [hv]; rfl⟩

/-- The acknowledge is carried by one bus operation alone. -/
theorem eq_writeOf_of_decode_wrRxAck1 {c : Config} (hv : c.valid = true) {op : BusOp}
    (h : decode c op = .ok .wrRxAck1) : op = writeOf c (.reg .rxAck) 1 := by
  obtain ⟨t, haddr, hwidth, hat⟩ := decode_ok_target hv h
  obtain ⟨rfl, hop⟩ := decodeAt_eq_wrRxAck1 hat
  rw [hop, haddr, hwidth]
  rfl

theorem decode_writeOf_rxAck {c : Config} (hv : c.valid = true) :
    decode c (writeOf c (.reg .rxAck) 1) = .ok .wrRxAck1 := by
  rw [decode_writeOf_reg hv rfl]
  rfl

end Sys2Proof

/-! The receive slot's phase and the frames staged, over every step of every agent. -/

namespace Sys2Proof.Machine

variable {s t : State}

@[simp] theorem framesStaged_append (h l : List Event) : framesStaged (h ++ l) = framesStaged h + framesStaged l :=
  List.countP_append

@[simp] theorem stageFrame_rxPhase (f : List Byte) (s : State) : (stageFrame f s).rxPhase = .full := rfl

/-- Staging in the empty slot raises `irq_rx` and records the frame (R220, R49). -/
theorem stageFrame_history (f : List Byte) (h : s.rxPhase = .empty) :
    (stageFrame f s).history = s.history ++ [.irqRx true, .frameStaged f] := by
  simp [stageFrame, h]

@[simp] theorem countBadFrame_rxPhase (s : State) : (countBadFrame s).rxPhase = s.rxPhase := rfl

@[simp] theorem countBadFrame_history (s : State) :
    (countBadFrame s).history = s.history ++ [.badFrameCounted] := rfl

/-- Of the host's operations the acknowledge of a full slot alone changes the receive phase (R42, R213). -/
theorem Effect.rxPhase_cases {i : Instr} (h : Effect s i t) :
    t.rxPhase = s.rxPhase ∨ (s.rxPhase = .full ∧ t.rxPhase = .empty ∧ i = .wrRxAck1) := by
  cases h
  case release hf => exact .inr ⟨hf, rfl, rfl⟩
  all_goals exact .inl rfl

/-- Of all steps a frame from the wire and the acknowledge alone change the receive phase (R42). -/
theorem ActEffect.rxPhase_cases {a : Action} (h : ActEffect s a t) :
    t.rxPhase = s.rxPhase ∨ (s.rxPhase = .empty ∧ t.rxPhase = .full ∧ ∃ f, a = .wireFrame f)
      ∨ (s.rxPhase = .full ∧ t.rxPhase = .empty ∧ ∃ op, a = .host op ∧ decode s.cfg op = .ok .wrRxAck1) := by
  cases h
  case host op i hd he =>
    obtain hp | ⟨hf, ht, rfl⟩ := he.rxPhase_cases
    · exact .inl hp
    · exact .inr (.inr ⟨hf, ht, op, rfl, hd⟩)
  case staged f he _ _ => exact .inr (.inl ⟨he, rfl, f, rfl⟩)
  all_goals exact .inl rfl

/-- The host stages no frame. -/
theorem Effect.framesStaged_eq {i : Instr} (h : Effect s i t) : framesStaged t.history = framesStaged s.history := by
  cases h
  case release hf => simp [hf, framesStaged]
  case send => by_cases hd : s.txDone = false <;> simp [hd, framesStaged]
  all_goals rfl

/-- While the slot is full no step of any agent stages a frame (R42, R222). -/
theorem ActEffect.framesStaged_eq_of_full {a : Action} (h : ActEffect s a t) (hf : s.rxPhase = .full) :
    framesStaged t.history = framesStaged s.history := by
  cases h
  case host he => exact he.framesStaged_eq
  case staged he _ _ => exact absurd (he.symm.trans hf) nofun
  case sent => by_cases hd : s.txDone = true <;> simp [hd, framesStaged]
  all_goals simp [framesStaged]

/-- Settles O44: every step is one of the effects `act_effect` lists, and of those only staging fills the slot,
only the acknowledge empties it, and none stages a frame in a full slot. -/
theorem rxPhaseTransitions : Obligations.RxPhaseTransitions := by
  intro s hv
  refine ⟨fun a t h hne => ?_, fun he f hlo hhi => ?_, fun hf => ?_, fun hf a t h => ?_⟩
  · obtain hp | hstaged | ⟨hf, ht, op, rfl, hd⟩ := (act_effect h).rxPhase_cases
    · exact absurd hp hne
    · exact .inl hstaged
    · exact .inr ⟨hf, ht, by rw [eq_writeOf_of_decode_wrRxAck1 hv hd]⟩
  · exact ⟨stageFrame f s, _, receiveFrame_next.mpr ⟨hlo, hhi, .inl ⟨he, rfl⟩⟩, rfl, stageFrame_history f he,
      rfl, by simp⟩
  · exact ⟨_, hostOp_next.mpr ⟨_, decode_writeOf_rxAck hv, execWrRxAck1_next.mpr (.inl ⟨hf, rfl⟩)⟩, rfl⟩
  · exact (act_effect h).framesStaged_eq_of_full hf

end Sys2Proof.Machine

/-! The transmit slot: what the host's writes of it answer in each phase, and which steps leave its contents. -/

namespace Sys2Proof.Machine

variable {s t : State}

theorem TxPhase.ne_sending_of_eq_idle {p : TxPhase} (h : p = .idle) : p ≠ .sending := by rw [h]; decide

theorem exec_wrTxbuf_of_sending (hs : s.txPhase = .sending) {k : Nat} (hk : k < s.cfg.txBuf.bytes / 4) (v : Word) :
    exec (.wrTxbuf k v) s = .fault (.txWriteWhileBusy (some k)) :=
  (if_pos hk).trans (if_pos hs)

theorem exec_wrTxLen_of_sending (hs : s.txPhase = .sending) (n : Word) :
    exec (.wrTxLen n) s = .fault (.txWriteWhileBusy none) :=
  if_pos hs

theorem exec_wrTxSend1_of_sending (hs : s.txPhase = .sending) : exec .wrTxSend1 s = .fault .txSendWhileBusy :=
  if_pos hs

theorem exec_wrTxbuf_of_idle (hi : s.txPhase = .idle) {k : Nat} (hk : k < s.cfg.txBuf.bytes / 4) (v : Word) :
    exec (.wrTxbuf k v) s = .next (s.setTxWord k v) :=
  execWrTxbuf_next.mpr ⟨hk, TxPhase.ne_sending_of_eq_idle hi, rfl⟩

theorem exec_wrTxLen_of_idle (hi : s.txPhase = .idle) (n : Word) :
    exec (.wrTxLen n) s = .next (s.setTxLen n) :=
  execWrTxLen_next.mpr ⟨TxPhase.ne_sending_of_eq_idle hi, rfl⟩

/-- A strobe of a legal length hands the idle slot to the hardware (R253, D23). -/
theorem exec_wrTxSend1_of_idle (hi : s.txPhase = .idle) (hlo : 1 ≤ s.txLen.toNat)
    (hhi : s.txLen.toNat ≤ s.cfg.txBuf.bytes) :
    exec .wrTxSend1 s = .next ((s.setTxDone false).setTxPhase .sending) := by
  have hne : s.txLen ≠ 0#32 := fun h => by simp [h] at hlo
  exact execWrTxSend1_next.mpr ⟨TxPhase.ne_sending_of_eq_idle hi, hne, hhi, rfl⟩

/-- The completion hands the slot back to the host (R261). -/
theorem txComplete_txPhase (s : State) : (txComplete s).txPhase = .idle := by
  obtain ⟨-, he⟩ | ⟨hi, he⟩ := txComplete_cases s <;> rw [he]
  · rfl
  · exact hi

/-- Of the host's operations only the two stores change the slot's contents, and those need it idle (R251, R252). -/
theorem Effect.txSlot_eq_of_sending {i : Instr} (h : Effect s i t) (hs : s.txPhase = .sending) :
    t.txBuf = s.txBuf ∧ t.txLen = s.txLen := by
  cases h
  case storeWord hne => exact absurd hs hne
  case storeLength hne => exact absurd hs hne
  all_goals exact ⟨rfl, rfl⟩

/-- No step but a host's changes the slot's contents, whoever owns it (R255). -/
theorem ActEffect.txSlot_eq_of_not_host {a : Action} (h : ActEffect s a t) (ha : ∀ op, a ≠ .host op) :
    t.txBuf = s.txBuf ∧ t.txLen = s.txLen := by
  cases h
  case host op _ _ _ => exact absurd rfl (ha op)
  all_goals exact ⟨rfl, rfl⟩

/-- While the hardware owns the slot, no step of any agent changes its contents (R255). -/
theorem ActEffect.txSlot_eq_of_sending {a : Action} (h : ActEffect s a t) (hs : s.txPhase = .sending) :
    t.txBuf = s.txBuf ∧ t.txLen = s.txLen := by
  cases h
  case host he => exact he.txSlot_eq_of_sending hs
  all_goals exact ⟨rfl, rfl⟩

/-- Settles O31: the write decodes at TX_LEN's own place, and the phase alone decides between store and fault. -/
theorem writeTxLen : Obligations.WriteTxLen := by
  intro s n hv
  exact ⟨decode_writeOf_reg hv rfl n, fun hs => exec_wrTxLen_of_sending hs n, fun hi => exec_wrTxLen_of_idle hi n⟩

/-- Settles O47: of the effects `act_effect` lists only the host's two stores change the slot's contents, and the
phase that admits them is Idle, which the send strobe leaves and the completion restores. -/
theorem transmitSlotOwnership : Obligations.TransmitSlotOwnership := by
  intro s _
  refine ⟨fun hi => ⟨fun k v hk => ?_, fun n => ?_, fun a t ha h => ?_, fun hlo hhi => ?_⟩,
    fun hs => ⟨fun a t h => ?_, fun k v hk => ?_, fun n => ?_, ?_, ?_⟩⟩
  · exact ⟨_, exec_wrTxbuf_of_idle hi hk v, hi⟩
  · exact ⟨_, exec_wrTxLen_of_idle hi n, hi⟩
  · exact (act_effect h).txSlot_eq_of_not_host ha
  · exact ⟨_, exec_wrTxSend1_of_idle hi hlo hhi, rfl⟩
  · exact (act_effect h).txSlot_eq_of_sending hs
  · exact exec_wrTxbuf_of_sending hs hk v
  · exact exec_wrTxLen_of_sending hs n
  · exact exec_wrTxSend1_of_sending hs
  · exact ⟨_, rfl, txComplete_txPhase s⟩

end Sys2Proof.Machine

/-! The encoding: the two command forms, the two directions of the round trip, and the words the driver assembles. -/

namespace Sys2Proof

open Machine

variable {c : Config}

/-! The forms of a command word. -/

theorem Config.writeOpcode_ne_zero (hv : c.valid = true) : c.writeOpcode ≠ 0#4 := by
  obtain ⟨-, -, -, -, -, -, -, hcodes, -⟩ := Config.valid_parts hv
  simp only [Config.codesOk, Bool.and_eq_true, bne_iff_ne] at hcodes
  exact hcodes.1

/-- The top four bits tell the forms apart: the write opcode, which is not zero, or zeros (R114). -/
theorem readForm_eq_false_of_writeForm (hv : c.valid = true) {w : Word} (hw : c.writeForm w = true) :
    c.readForm w = false := by
  refine Bool.eq_false_iff.mpr fun hr => Config.writeOpcode_ne_zero hv ?_
  simp only [Config.writeForm, Config.readForm, Bool.and_eq_true, beq_iff_eq] at hw hr
  refine BitVec.eq_of_getLsbD_eq fun i hi => ?_
  have hop := getLsbD_of_extract hw.1 (i := 28 + i) (by omega) (by omega)
  have hzero := getLsbD_of_extract hr.1.1 (i := 28 + i) (by omega) (by omega)
  rw [Nat.add_sub_cancel_left] at hop
  rw [← hop, hzero]
  simp

theorem writeForm_eq_false_of_readForm (hv : c.valid = true) {w : Word} (hr : c.readForm w = true) :
    c.writeForm w = false :=
  Bool.eq_false_iff.mpr fun hw => by simp [readForm_eq_false_of_writeForm hv hw] at hr

/-- Settles O5. -/
theorem commandFormsExclusive : Obligations.CommandFormsExclusive := by
  rintro c w hv ⟨hw, hr⟩
  simp [readForm_eq_false_of_writeForm hv hw] at hr

/-! Decode of encode: each operation is decoded at its own target. -/

theorem decodeWrite_of_writeForm {w : Word} (hw : c.writeForm w = true) :
    decodeWrite c (.reg .mdioCmd) w = .ok (.wrMdioCmdW (writePhy w) (writeReg w) (writeData w)) :=
  if_pos hw

theorem decodeWrite_of_readForm (hv : c.valid = true) {w : Word} (hr : c.readForm w = true) :
    decodeWrite c (.reg .mdioCmd) w = .ok (.wrMdioCmdR (readPhy w) (readReg w)) := by
  simp [decodeWrite, writeForm_eq_false_of_readForm hv hr, hr]

/-- Settles O2, operation by operation: a register is selected at its own place, and so is a buffer word. -/
theorem decodeOfEncode : Obligations.DecodeOfEncode := by
  intro c i hv hwf hshared
  cases i with
  | rdMdioData => exact decode_readOf_reg hv rfl fun _ heq => hshared heq rfl
  | rdRxbuf k => exact decode_rxWord hv (of_decide_eq_true hwf)
  | wrTxbuf k v => exact decode_txWord hv (of_decide_eq_true hwf) v
  | wrMdioCmdW phy reg data =>
    refine (decode_writeOf_reg hv rfl _).trans ?_
    rw [decodeWrite_of_writeForm (writeForm_writeWord c phy reg data)]
    simp
  | wrMdioCmdR phy reg =>
    refine (decode_writeOf_reg hv rfl _).trans ?_
    rw [decodeWrite_of_readForm hv (readForm_readWord c phy reg)]
    simp
  | wrMdioCtrlStart => exact (decode_writeOf_reg hv rfl _).trans (if_pos rfl)
  | wrRxAck1 => exact decode_writeOf_reg hv rfl _
  | wrTxSend1 => exact decode_writeOf_reg hv rfl _
  | wrTxLen n => exact decode_writeOf_reg hv rfl n
  | wrMacAddrHi v => exact decode_writeOf_reg hv rfl v
  | wrMacAddrLo v => exact decode_writeOf_reg hv rfl v
  | rdMdioStat => exact decode_readOf_reg hv rfl nofun
  | rdRxAvail => exact decode_readOf_reg hv rfl nofun
  | rdRxLen => exact decode_readOf_reg hv rfl nofun
  | rdTxBusy => exact decode_readOf_reg hv rfl nofun
  | rdTxDone => exact decode_readOf_reg hv rfl nofun
  | rdMacAddrHi => exact decode_readOf_reg hv rfl nofun
  | rdMacAddrLo => exact decode_readOf_reg hv rfl nofun
  | rdRxErrCnt => exact decode_readOf_reg hv rfl nofun

/-! Encode of decode: the second stage drops nothing of the operation, and selection finds only words of a buffer. -/

/-- A buffer word is one of its buffer's; a register always exists. -/
def Target.inBuffer (c : Config) : Target → Prop
  | .reg _ => True
  | .rxWord k => k < c.rxBuf.bytes / 4
  | .txWord k => k < c.txBuf.bytes / 4

theorem Config.inBuffer_of_mem_targetsAt (hv : c.valid = true) {w : Window} {off : Nat} {t : Target}
    (ht : t ∈ c.targetsAt w off) : t.inBuffer c := by
  obtain ⟨-, hrx, -⟩ := Config.rxBuf_bounds hv
  obtain ⟨-, htx, -⟩ := Config.txBuf_bounds hv
  rcases Config.mem_targetsAt.mp ht with ⟨r, rfl, -⟩ | ⟨hb, rfl⟩ | ⟨hb, rfl⟩
  · trivial
  all_goals
    obtain ⟨-, hlo, hhi⟩ := BufLoc.holds_iff.mp hb
    simp only [Target.inBuffer]
    omega

/-- Everything an operation that decodes has passed (R323): its window, its width and alignment, selection. -/
theorem decode_ok_stages {op : BusOp} {i : Instr} (h : decode c op = .ok i) :
    ∃ w off t, c.window? op.addr = some (w, off) ∧ op.width = busWidth ∧ op.addr % busWidth = 0
      ∧ c.select w off op.dir = .ok t ∧ decodeAt c op t = .ok i := by
  unfold decode at h
  split at h
  · cases h
  rename_i w off hw
  split at h
  · rename_i hal
    split at h
    · rename_i t hsel
      exact ⟨w, off, t, hw, hal.1, hal.2, hsel, h⟩
    · cases h
  · cases h

theorem decodeRead_wellFormed {t : Target} {i : Instr} (h : decodeRead t = .ok i) (ht : t.inBuffer c) :
    i.wellFormed c = true := by
  unfold decodeRead at h
  split at h <;> cases h
  case h_10 k => exact decide_eq_true ht
  all_goals rfl

theorem decodeWrite_wellFormed {t : Target} {v : Word} {i : Instr} (h : decodeWrite c t v = .ok i)
    (ht : t.inBuffer c) : i.wellFormed c = true := by
  unfold decodeWrite at h
  repeat' split at h
  all_goals cases h
  case h_8 k => exact decide_eq_true ht
  all_goals rfl

theorem encode_of_decodeRead {t : Target} {i : Instr} (h : decodeRead t = .ok i) : encode c i = readOf c t := by
  unfold decodeRead at h
  split at h <;> cases h <;> rfl

/-- The written word is put together again from the fields, strobes and operands decoded from it. -/
theorem encode_of_decodeWrite {t : Target} {v : Word} {i : Instr} (h : decodeWrite c t v = .ok i) :
    encode c i = writeOf c t v := by
  unfold decodeWrite at h
  repeat' split at h
  all_goals cases h
  next hw => rw [encode, writeWord_fields c hw]
  next hr => rw [encode, readWord_fields c hr]
  next hs => rw [encode, hs]
  next hs => rw [encode, hs]
  next hs => rw [encode, hs]
  all_goals rfl

theorem decodeAt_wellFormed {op : BusOp} {t : Target} {i : Instr} (h : decodeAt c op t = .ok i)
    (ht : t.inBuffer c) : i.wellFormed c = true := by
  cases op with
  | memRead a n => exact decodeRead_wellFormed h ht
  | memWrite a n v => exact decodeWrite_wellFormed h ht

theorem encode_of_decodeAt {op : BusOp} {t : Target} {i : Instr} (h : decodeAt c op t = .ok i)
    (haddr : op.addr = c.addr t) (hwidth : op.width = busWidth) : encode c i = op := by
  cases op with
  | memRead a n =>
    cases haddr
    cases hwidth
    exact encode_of_decodeRead h
  | memWrite a n v =>
    cases haddr
    cases hwidth
    exact encode_of_decodeWrite h

/-- Settles O3: the operation lies at its target's own address, so the second stage's inverse gives it back. -/
theorem encodeOfDecode : Obligations.EncodeOfDecode := by
  intro c op i hv h
  obtain ⟨w, off, t, -, -, -, hsel, hat⟩ := decode_ok_stages h
  obtain ⟨t', haddr, hwidth, hat'⟩ := decode_ok_target hv h
  exact ⟨decodeAt_wellFormed hat (Config.inBuffer_of_mem_targetsAt hv (Config.select_ok hsel).1),
    encode_of_decodeAt hat' haddr hwidth⟩

/-! The shared read word and the assembled command words. -/

/-- Settles O4: the two reads are of one address, and the two data words lay the same bits over the same draw. -/
theorem sharedReadWord : Obligations.SharedReadWord := by
  intro s hv hshared
  have haddr : readOf s.cfg (.reg .mdioData) = readOf s.cfg (.reg .mdioStat) := by
    simp [readOf, Config.addr, Config.targetLoc, Config.loc, hshared]
  have hword : s.dataWord = s.statWord := by
    funext v
    simp [State.dataWord, State.statWord, sharedWord, hshared]
  constructor
  · rw [encode, haddr]
    exact decode_readOf_reg hv rfl nofun
  · simp only [exec, execRdMdioData, execRdMdioStat, hword]

/-- The fields OR-ed at their places are the fields side by side, where none is too wide (R112, R115). -/
theorem writeCommand_eq_append (c : Config) (reg : BitVec 5) :
    writeCommand c reg.toNat = c.writeOpcode ++ c.fixedPhyAddr ++ reg ++ c.turnaround := by
  have hfields : (c.writeOpcode ++ c.fixedPhyAddr ++ reg ++ c.turnaround).toNat
      = (c.writeOpcode.toNat <<< 12) ||| (c.fixedPhyAddr.toNat <<< 7) ||| (reg.toNat <<< 2) ||| c.turnaround.toNat := by
    simp only [BitVec.toNat_append, Nat.shiftLeft_or_distrib, ← Nat.shiftLeft_add]
  rw [writeCommand, ← hfields, BitVec.ofNat_toNat, BitVec.setWidth_eq]

/-- The same for the command of a read (R113, R115). -/
theorem readCommand_eq_append (c : Config) (reg : BitVec 5) :
    readCommand c reg.toNat = c.turnaround ++ reg ++ c.fixedPhyAddr ++ c.readOpcode := by
  have hfields : (c.turnaround ++ reg ++ c.fixedPhyAddr ++ c.readOpcode).toNat
      = (c.turnaround.toNat <<< 14) ||| (reg.toNat <<< 9) ||| (c.fixedPhyAddr.toNat <<< 4) ||| c.readOpcode.toNat := by
    simp only [BitVec.toNat_append, Nat.shiftLeft_or_distrib, ← Nat.shiftLeft_add]
  rw [readCommand, ← hfields, BitVec.ofNat_toNat, BitVec.setWidth_eq]

theorem writeCommandWord_eq (c : Config) {r : Nat} (hr : r < 32) (v : Half) :
    writeCommandWord c r v = c.writeWord c.fixedPhyAddr (BitVec.ofNat 5 r) v := by
  have hreg : r = (BitVec.ofNat 5 r).toNat := (Nat.mod_eq_of_lt hr).symm
  rw [writeCommandWord, Config.writeWord, ← writeCommand_eq_append, ← hreg]

theorem readCommandWord_eq (c : Config) {r : Nat} (hr : r < 32) :
    readCommandWord c r = c.readWord c.fixedPhyAddr (BitVec.ofNat 5 r) := by
  have hreg : r = (BitVec.ofNat 5 r).toNat := (Nat.mod_eq_of_lt hr).symm
  rw [readCommandWord, hreg, readCommand_eq_append, ← hreg]
  refine BitVec.eq_of_toNat_eq ?_
  rw [BitVec.toNat_setWidth_of_le (by decide)]
  change BitVec.toNat (w := 2 + 5 + 5 + 4) _
    = BitVec.toNat (w := 16 + 2 + 5 + 5 + 4)
      (0#16 ++ c.turnaround ++ BitVec.ofNat 5 r ++ c.fixedPhyAddr ++ c.readOpcode)
  simp only [BitVec.toNat_append, BitVec.toNat_zero, Nat.zero_shiftLeft, Nat.zero_or]

/-- Settles O6. -/
theorem assembledCommandWords : Obligations.AssembledCommandWords :=
  fun c _ v hr => ⟨writeCommandWord_eq c hr v, readCommandWord_eq c hr⟩

end Sys2Proof

/-! The refusals: what an operation with no meaning is answered with, by the stage of R323 that stops it. -/

namespace Sys2Proof

variable {c : Config}

/-- Nothing is selected where nothing lies (X1). -/
theorem Config.select_of_targetsAt_nil {w : Window} {off : Nat} {d : Dir} (h : c.targetsAt w off = []) :
    c.select w off d = .error (.unmapped w off d) := by
  simp only [Config.select, h]

/-- Where something lies and nothing of the direction, selection names something that lies there (X2). -/
theorem Config.select_wrongDirection {w : Window} {off : Nat} {d : Dir} {t : Target} (ht : t ∈ c.targetsAt w off)
    (hd : ∀ x ∈ c.targetsAt w off, x.admits d = false) :
    ∃ x ∈ c.targetsAt w off, c.select w off d = .error (.wrongDirection x d) := by
  cases htl : c.targetsAt w off with
  | nil => simp [htl] at ht
  | cons x xs =>
    refine ⟨x, by simp, ?_⟩
    have hnone : (x :: xs).find? (fun x => x.admits d) = none :=
      List.find?_eq_none.mpr fun y hy => by simp [hd y (htl ▸ hy)]
    simp only [Config.select, htl, hnone]

/-- At a register's place lie registers alone (R6). -/
theorem Config.exists_reg_of_mem_targetsAt (hv : c.valid = true) {r : Reg} {t : Target}
    (ht : t ∈ c.targetsAt (c.loc r).win (c.loc r).off) : ∃ r', t = .reg r' ∧ c.loc r' = c.loc r := by
  obtain ⟨hrx, htx⟩ := Config.reg_not_in_buf hv r
  rcases Config.mem_targetsAt.mp ht with hreg | ⟨hb, -⟩ | ⟨hb, -⟩
  · exact hreg
  · simp [hrx] at hb
  · simp [htx] at hb

end Sys2Proof

namespace Sys2Proof.Machine

variable {s : State} {op : BusOp}

theorem hostOp_of_decode_error {e : Reject} (h : decode s.cfg op = .error e) :
    hostOp op s = .refused (refusalOf e) := by
  simp only [hostOp, h]

/-- Settles O7: the width and alignment are checked before anything is selected. -/
theorem badWidthOrAlignmentRefused : Obligations.BadWidthOrAlignmentRefused := by
  intro s op hin hbad
  obtain ⟨p, hp⟩ := Option.ne_none_iff_exists'.mp hin
  exact hostOp_of_decode_error (decode_unaligned hp hbad)

/-- Settles O8. -/
theorem unmappedRefused : Obligations.UnmappedRefused := by
  intro s op w off hw h4 ha hreg hrx htx
  have hnil : s.cfg.targetsAt w off = [] := by
    refine List.eq_nil_iff_forall_not_mem.mpr fun t ht => ?_
    rcases Config.mem_targetsAt.mp ht with ⟨r, -, hl⟩ | ⟨hb, -⟩ | ⟨hb, -⟩
    · exact hreg r hl
    · exact hrx (BufLoc.holds_iff.mp hb)
    · exact htx (BufLoc.holds_iff.mp hb)
  refine hostOp_of_decode_error (e := .unmapped w off op.dir) ?_
  rw [decode_inside hw h4 ha, Config.select_of_targetsAt_nil hnil]

/-- An access at a register's place is refused as X2 where no register there admits its direction. -/
theorem hostOp_reg_wrongDirection (hv : s.cfg.valid = true) {r : Reg} (haddr : op.addr = s.cfg.addr (.reg r))
    (hwidth : op.width = 4) (hd : ∀ r', s.cfg.loc r' = s.cfg.loc r → r'.admits op.dir = false) :
    ∃ t, s.cfg.targetLoc t = s.cfg.loc r ∧ hostOp op s = .refused (.wrongDirection t op.dir) := by
  obtain ⟨h4, hin⟩ := Config.loc_bounds hv r
  obtain ⟨t, ht, hsel⟩ := Config.select_wrongDirection (Config.loc_mem_targetsAt r) (d := op.dir) fun x hx => by
    obtain ⟨r', rfl, hl⟩ := Config.exists_reg_of_mem_targetsAt hv hx
    exact hd r' hl
  refine ⟨t, Config.targetLoc_of_mem_targetsAt hv ht h4, hostOp_of_decode_error (e := .wrongDirection t op.dir) ?_⟩
  rw [decode_aligned hv (w := (s.cfg.loc r).win) (off := (s.cfg.loc r).off) haddr hwidth h4 (by omega), hsel]

/-- Settles O9: selection finds what lies at the place, and nothing there admits the direction. -/
theorem wrongDirectionRefused : Obligations.WrongDirectionRefused := by
  intro s v hv
  refine ⟨fun r _ hd => hostOp_reg_wrongDirection hv rfl rfl hd,
    fun r _ hd => hostOp_reg_wrongDirection hv rfl rfl hd,
    fun k hk => hostOp_of_decode_error (e := .wrongDirection (.rxWord k) .write) ?_,
    fun k hk => hostOp_of_decode_error (e := .wrongDirection (.txWord k) .read) ?_⟩
  · obtain ⟨h4, -, hin⟩ := Config.rxBuf_bounds hv
    rw [decode_aligned hv (w := s.cfg.rxBuf.win) (off := s.cfg.rxBuf.off + 4 * k) rfl rfl (by omega) (by omega)]
    simp [writeOf, BusOp.dir, Config.select_rxWord hv hk]
  · obtain ⟨h4, -, hin⟩ := Config.txBuf_bounds hv
    rw [decode_aligned hv (w := s.cfg.txBuf.win) (off := s.cfg.txBuf.off + 4 * k) rfl rfl (by omega) (by omega)]
    simp [readOf, BusOp.dir, Config.select_txWord hv hk]

/-- A write that its register's second stage rejects is refused. -/
theorem hostOp_writeOf_reg_refused (hv : s.cfg.valid = true) {r : Reg} (ha : r.admits .write = true) {v : Word}
    {e : Reject} (h : decodeWrite s.cfg (.reg r) v = .error e) :
    hostOp (writeOf s.cfg (.reg r) v) s = .refused (refusalOf e) :=
  hostOp_of_decode_error ((decode_writeOf_reg hv ha v).trans h)

/-- Settles O10: the strobe's value is part of its encoding. -/
theorem badStrobeRefused : Obligations.BadStrobeRefused := by
  intro s v hv
  refine ⟨fun hne => ⟨?_, ?_⟩, fun hne => ?_⟩
  all_goals exact hostOp_writeOf_reg_refused hv rfl (e := .badStrobeValue v) (if_neg hne)

theorem hostOp_malformedCommand (hv : s.cfg.valid = true) {w : Word} (hw : s.cfg.writeForm w = false)
    (hr : s.cfg.readForm w = false) :
    hostOp (writeOf s.cfg (.reg .mdioCmd) w) s = .refused (.malformedMdioCommand w) :=
  hostOp_writeOf_reg_refused hv rfl (e := .malformedMdioCommand w) (by simp [decodeWrite, hw, hr])

/-- Settles O11. -/
theorem malformedCommandRefused : Obligations.MalformedCommandRefused :=
  fun _ _ hv hw hr => hostOp_malformedCommand hv hw hr

end Sys2Proof.Machine

/-! The MDIO registers: what each operation answers in each phase, and the two completions of the engine. -/

namespace Sys2Proof

variable {c : Config}

/-- In a shared read word the in-progress bit stands above the read result (R25, log 12). -/
theorem Config.busyBit_ge_of_shared (hv : c.valid = true) (hshared : c.mdioStat = c.mdioData) :
    16 ≤ c.busyBit.val := by
  have h := Config.mayShare_of_loc hv (r := .mdioStat) (r' := .mdioData) hshared nofun
  simpa [Config.mayShare, Reg.admits] using h

theorem writeTa_of_writeForm {w : Word} (hw : c.writeForm w = true) : writeTa w = c.turnaround := by
  simp only [Config.writeForm, Bool.and_eq_true, beq_iff_eq] at hw
  exact hw.2

theorem readTa_of_readForm {w : Word} (hr : c.readForm w = true) : readTa w = c.turnaround := by
  simp only [Config.readForm, Bool.and_eq_true, beq_iff_eq] at hr
  exact hr.2

end Sys2Proof

namespace Sys2Proof.Machine

variable {s : State}

/-! The data words of the two reads. -/

/-- The in-progress bit shows the phase, in a word of its own and in the shared one (R27). -/
theorem getLsbD_statWord_busyBit (s : State) (v : Word) :
    (s.statWord v).getLsbD s.cfg.busyBit.val = s.inProgress := by
  rw [State.statWord, getLsbD_putBit, if_pos rfl]

theorem getLsbD_statWord_of_ne (hne : s.cfg.mdioStat ≠ s.cfg.mdioData) (v : Word) {j : Nat}
    (hj : j ≠ s.cfg.busyBit.val) : (s.statWord v).getLsbD j = v.getLsbD j := by
  simp [State.statWord, sharedWord, hne, getLsbD_putBit, hj]

theorem State.readResult_of_valid (hr : s.mdioRvalid = true) (hb : s.mdioPhase ≠ .busy) :
    s.readResult = some s.mdioRdata :=
  if_pos ⟨hr, hb⟩

theorem State.readResult_of_invalid (h : s.mdioRvalid = false ∨ s.mdioPhase = .busy) : s.readResult = none := by
  refine if_neg fun ⟨hr, hb⟩ => ?_
  rcases h with h | h
  · simp [h] at hr
  · exact hb h

theorem dataWord_of_ne (hne : s.cfg.mdioStat ≠ s.cfg.mdioData) (v : Word) :
    s.dataWord v = putLow v s.readResult := by
  simp [State.dataWord, sharedWord, hne]

theorem extract_putLow_some (v : Word) (d : Half) : (putLow v (some d)).extractLsb' 0 16 = d :=
  extract_eq fun i hi => by rw [Nat.zero_add, getLsbD_putLow_some, if_pos hi]

theorem getLsbD_putLow_of_ge (v : Word) (d : Option Half) {j : Nat} (hj : 16 ≤ j) :
    (putLow v d).getLsbD j = v.getLsbD j := by
  cases d with
  | none => rfl
  | some d => rw [getLsbD_putLow_some, if_neg (by omega)]

/-- The low half of MDIO_DATA is the read result where there is one, in either word (R29, R154). -/
theorem extract_dataWord (hv : s.cfg.valid = true) {d : Half} (hd : s.readResult = some d) (v : Word) :
    (s.dataWord v).extractLsb' 0 16 = d := by
  by_cases hshared : s.cfg.mdioStat = s.cfg.mdioData
  · have hbit := Config.busyBit_ge_of_shared hv hshared
    refine extract_eq fun i hi => ?_
    simp only [State.dataWord, sharedWord, hshared, hd, beq_self_eq_true, ↓reduceIte, Nat.zero_add]
    rw [getLsbD_putBit, if_neg (by omega), getLsbD_putLow_some, if_pos hi]
  · rw [dataWord_of_ne hshared, hd, extract_putLow_some]

/-- Settles O12. -/
theorem readMdioStat : Obligations.ReadMdioStat :=
  fun s hv => ⟨decode_readOf_reg hv rfl nofun, s.statWord s.nextDraw, rfl, getLsbD_statWord_busyBit s _,
    fun hne _ hj => getLsbD_statWord_of_ne hne _ hj⟩

/-- Settles O18: the three clauses are the three ways the data word is laid over the draw. -/
theorem readMdioData : Obligations.ReadMdioData := by
  intro s hv
  refine ⟨fun hne => decode_readOf_reg hv rfl fun _ => hne, s.dataWord s.nextDraw, rfl, fun ⟨hr, hb⟩ => ?_,
    fun hne j hj => ?_, fun hne hinvalid => ?_⟩
  · exact extract_dataWord hv (State.readResult_of_valid hr hb) _
  · rw [dataWord_of_ne hne, getLsbD_putLow_of_ge _ _ hj]
    rfl
  · rw [dataWord_of_ne hne, State.readResult_of_invalid hinvalid]
    rfl

/-! The command writes and the strobe. -/

theorem exec_wrMdioCmdW_of_busy (hb : s.mdioPhase = .busy) (phy reg : BitVec 5) (data : Half) :
    exec (.wrMdioCmdW phy reg data) s = .fault (.mdioAccessWhileBusy (s.cfg.writeWord phy reg data)) :=
  if_pos hb

theorem exec_wrMdioCmdW_of_ne_busy (hb : s.mdioPhase ≠ .busy) (phy reg : BitVec 5) (data : Half) :
    exec (.wrMdioCmdW phy reg data) s = .next ((s.setMdioCmd (s.cfg.writeWord phy reg data)).startTxn
      (.write phy reg s.cfg.turnaround data)) :=
  if_neg hb

theorem exec_wrMdioCmdR_of_busy (hb : s.mdioPhase = .busy) (phy reg : BitVec 5) :
    exec (.wrMdioCmdR phy reg) s = .fault (.mdioAccessWhileBusy (s.cfg.readWord phy reg)) :=
  if_pos hb

theorem exec_wrMdioCmdR_of_ne_busy (hb : s.mdioPhase ≠ .busy) (phy reg : BitVec 5) :
    exec (.wrMdioCmdR phy reg) s = .next (s.setMdioCmd (s.cfg.readWord phy reg)).arm :=
  if_neg hb

theorem exec_wrMdioCtrlStart_of_busy (hb : s.mdioPhase = .busy) :
    exec .wrMdioCtrlStart s = .fault (.mdioAccessWhileBusy s.cfg.startStrobe) := by
  simp only [exec, execWrMdioCtrlStart, hb]

theorem exec_wrMdioCtrlStart_of_idle (hi : s.mdioPhase = .idle) :
    exec .wrMdioCtrlStart s = .fault .mdioStrobeNotArmed := by
  simp only [exec, execWrMdioCtrlStart, hi]

theorem exec_wrMdioCtrlStart_of_armed (ha : s.mdioPhase = .armed) :
    exec .wrMdioCtrlStart s
      = .next (s.startTxn (.read (readPhy s.mdioCmd) (readReg s.mdioCmd) (readTa s.mdioCmd))) :=
  execWrMdioCtrlStart_next.mpr ⟨ha, rfl⟩

/-- Settles O13: the word written is the one its fields make up, so it is stored whole. -/
theorem writeCommandStartsWrite : Obligations.WriteCommandStartsWrite := by
  intro s w hv hw
  have hword : s.cfg.writeWord (w.extractLsb' 23 5) (w.extractLsb' 18 5) (w.extractLsb' 0 16) = w :=
    writeWord_fields s.cfg hw
  have hta : w.extractLsb' 16 2 = s.cfg.turnaround := writeTa_of_writeForm hw
  refine ⟨(decode_writeOf_reg hv rfl w).trans (decodeWrite_of_writeForm hw), fun hb => ?_, fun hb => ?_⟩
  · rw [exec_wrMdioCmdW_of_busy hb, hword]
  · rw [exec_wrMdioCmdW_of_ne_busy hb, hword, hta]
    rfl

/-- Settles O14: the word is the one of the layout. -/
theorem writeCommandCompletes : Obligations.WriteCommandCompletes :=
  fun s phy reg data hb => ⟨s.cfg.writeWord phy reg data, writeForm_writeWord _ _ _ _, writePhy_writeWord _ _ _ _,
    writeReg_writeWord _ _ _ _, writeData_writeWord _ _ _ _, exec_wrMdioCmdW_of_ne_busy hb phy reg data⟩

/-- Settles O15: the word written is the one its fields make up. -/
theorem readCommandArms : Obligations.ReadCommandArms := by
  intro s w hv hr
  have hword : s.cfg.readWord (w.extractLsb' 4 5) (w.extractLsb' 9 5) = w := readWord_fields s.cfg hr
  refine ⟨(decode_writeOf_reg hv rfl w).trans (decodeWrite_of_readForm hv hr), fun hb => ?_, fun hb => ?_⟩
  · rw [exec_wrMdioCmdR_of_busy hb, hword]
  · rw [exec_wrMdioCmdR_of_ne_busy hb, hword]
    rfl

/-- Settles O16: the word is the one of the layout. -/
theorem readCommandCompletes : Obligations.ReadCommandCompletes :=
  fun s phy reg hb => ⟨s.cfg.readWord phy reg, readForm_readWord _ _ _, readPhy_readWord _ _ _,
    readReg_readWord _ _ _, exec_wrMdioCmdR_of_ne_busy hb phy reg⟩

theorem decode_writeOf_mdioCtrl {c : Config} (hv : c.valid = true) :
    decode c (writeOf c (.reg .mdioCtrl) c.startStrobe) = .ok .wrMdioCtrlStart :=
  (decode_writeOf_reg hv rfl _).trans (if_pos rfl)

/-- Settles O17. -/
theorem startStrobe : Obligations.StartStrobe :=
  fun _ hv => ⟨decode_writeOf_mdioCtrl hv, exec_wrMdioCtrlStart_of_busy, exec_wrMdioCtrlStart_of_idle,
    exec_wrMdioCtrlStart_of_armed⟩

/-- Settles O19: a documented word reaches its operation, which faults while Busy; any other is refused before. -/
theorem mdioWritesFaultWhileBusy : Obligations.MdioWritesFaultWhileBusy := by
  intro s v hv hb
  constructor
  · by_cases hw : s.cfg.writeForm v = true
    · obtain ⟨hd, hfault, -⟩ := writeCommandStartsWrite s v hv hw
      rw [if_pos (.inl hw), hostOp_of_decode hd, hfault hb]
    · by_cases hr : s.cfg.readForm v = true
      · obtain ⟨hd, hfault, -⟩ := readCommandArms s v hv hr
        rw [if_pos (.inr hr), hostOp_of_decode hd, hfault hb]
      · rw [if_neg (not_or.mpr ⟨hw, hr⟩)]
        exact hostOp_malformedCommand hv (Bool.eq_false_iff.mpr hw) (Bool.eq_false_iff.mpr hr)
  · by_cases hs : v = s.cfg.startStrobe
    · subst hs
      rw [if_pos rfl, hostOp_of_decode (decode_writeOf_mdioCtrl hv), exec_wrMdioCtrlStart_of_busy hb]
    · rw [if_neg hs]
      exact (badStrobeRefused s v hv).2 hs

/-! The engine. -/

theorem mdioComplete_of_write (hb : s.mdioPhase = .busy) {phy reg : BitVec 5} {ta : BitVec 2} {data : Half}
    (ht : s.mdioTxn = some (.write phy reg ta data)) (answer : Half) :
    mdioComplete answer s = s.endTxn.record (.mdioWriteTxn phy reg ta data) := by
  simp only [mdioComplete, hb, ht]

theorem mdioComplete_of_read (hb : s.mdioPhase = .busy) {phy reg : BitVec 5} {ta : BitVec 2}
    (ht : s.mdioTxn = some (.read phy reg ta)) (answer : Half) :
    mdioComplete answer s = (s.endTxn.setRdata answer).record (.mdioReadTxn phy reg ta answer) := by
  simp only [mdioComplete, hb, ht]

theorem mdioComplete_of_ne_busy (hb : s.mdioPhase ≠ .busy) (answer : Half) : mdioComplete answer s = s := by
  obtain ⟨-, -, -, -, h, -⟩ | ⟨-, -, -, h, -⟩ | ⟨-, h⟩ := mdioComplete_cases answer s
  · exact absurd h hb
  · exact absurd h hb
  · exact h

/-- The step takes the first agent off the agenda and lets it act (R80). -/
theorem step_of_agenda {a : Action} {rest : List Action} (h : s.agenda = a :: rest) :
    step s = act a { s with agenda := rest } := by
  simp only [step, runNext, h]

@[simp] theorem phyWrites_append (h l : List Event) : phyWrites (h ++ l) = phyWrites h ++ phyWrites l :=
  List.filterMap_append

/-- Settles O20. -/
theorem writeTransactionCompletes : Obligations.WriteTransactionCompletes := by
  intro s rest answer phy reg ta data ha hb ht
  constructor
  · rw [step_of_agenda ha, act, mdioComplete_of_write (s := { s with agenda := rest }) hb ht]
    rfl
  · rw [phyWrites_append]
    rfl

/-- Settles O21. -/
theorem readTransactionCompletes : Obligations.ReadTransactionCompletes := by
  intro s rest answer phy reg ta ha hb ht
  constructor
  · rw [step_of_agenda ha, act, mdioComplete_of_read (s := { s with agenda := rest }) hb ht]
    rfl
  · rw [phyWrites_append]
    exact List.append_nil _

end Sys2Proof.Machine

/-! The machine invariant, kept by every effect of a step: each case names the fields that change. -/

namespace Sys2Proof.Machine

variable {s t : State}

/-- Nothing in the invariant speaks of the agenda. -/
theorem State.Inv.withAgenda (hs : s.Inv) (l : List Action) : State.Inv { s with agenda := l } := { hs with }

/-- Nor of the error counter, the draws and the history. -/
theorem State.Inv.withCount (hs : s.Inv) (n : Word) (d : Nat) (h : List Event) :
    State.Inv { s with rxErrCnt := n, draws := d, history := h } := { hs with }

theorem State.Inv.effect (hs : s.Inv) {i : Instr} (h : Effect s i t) : t.Inv := by
  cases h with
  | read v n _ => exact { hs with }
  | startWrite phy reg data _ =>
    exact { hs with
      busyIff := by simp
      armedForm := by simp
      busyNoResult := by simp
      txnTa := by simp [Txn.ta] }
  | armRead phy reg hb =>
    have hnone : s.mdioTxn = none := by simpa [hs.busyIff] using hb
    exact { hs with
      busyIff := by simp [hnone]
      armedForm := by simp
      busyNoResult := by simp }
  | startRead ha =>
    have hta := readTa_of_readForm (hs.armedForm ha)
    exact { hs with
      busyIff := by simp
      armedForm := by simp
      busyNoResult := by simp
      txnTa := by simp [Txn.ta, hta] }
  | release _ => exact { hs with rxLenBounds := nofun, rxHeld := nofun }
  | ignoredAck => exact hs
  | storeWord k v hk _ =>
    exact { hs with
      txWf := Memory.setWord_wf hs.txWf _ _
      txBelow := Memory.setWord_below hs.txBelow (by omega) _ }
  | storeLength n hne => exact { hs with txLenBounds := fun h => absurd h hne }
  | send _ h0 hl =>
    have hpos : s.txLen.toNat ≠ 0 := fun h => h0 (BitVec.eq_of_toNat_eq h)
    exact { hs with
      txLenBounds := fun _ => ⟨Nat.one_le_iff_ne_zero.mpr hpos, hl⟩
      txNotDone := fun _ => rfl }
  | storeMacHi v => exact { hs with }
  | storeMacLo v => exact { hs with }

@[simp] theorem stageFrame_rxBuf (f : List Byte) (s : State) : (stageFrame f s).rxBuf = Memory.ofBytes 0 f := rfl

/-- A frame that fits the receive buffer has a length of 32 bits (log 13). -/
theorem toNat_ofNat_frame_length {c : Config} (hv : c.valid = true) {f : List Byte} (hu : f.length ≤ c.rxBuf.bytes) :
    (BitVec.ofNat 32 f.length).toNat = f.length := by
  obtain ⟨-, hlt, -⟩ := Config.buf_sizes hv
  rw [BitVec.toNat_ofNat, Nat.mod_eq_of_lt (by omega)]

theorem State.Inv.staged (hs : s.Inv) {f : List Byte} (hl : crcBytes ≤ f.length)
    (hu : f.length ≤ s.cfg.rxBuf.bytes) : (stageFrame f s).Inv := by
  have hlen : (stageFrame f s).rxLen.toNat = f.length := toNat_ofNat_frame_length hs.cfgValid hu
  exact { hs with
    rxLenBounds := fun _ => by
      rw [hlen]
      exact ⟨hl, hu⟩
    rxHeld := fun _ i hi => by
      rw [hlen] at hi
      simp [Memory.get?_ofBytes, hi]
    rxWf := Memory.ofBytes_wf 0 f
    rxBelow := Memory.ofBytes_below f hu }

/-- The end of a transaction leaves the MDIO group as it is while Idle. -/
theorem State.Inv.endTxn (hs : s.Inv) : s.endTxn.Inv :=
  { hs with busyIff := by simp, armedForm := by simp, busyNoResult := by simp, txnTa := by simp }

theorem State.Inv.actEffect (hs : s.Inv) {a : Action} (h : ActEffect s a t) : t.Inv := by
  cases h with
  | host op i _ he => exact hs.effect he
  | wroteTxn => exact { hs.endTxn with }
  | readTxn => exact { hs.endTxn with busyNoResult := by simp }
  | mdioRest => exact hs
  | staged f _ hl hu => exact hs.staged hl hu
  | dropped => exact hs.withCount _ _ _
  | droppedCounted => exact hs.withCount _ _ _
  | counted => exact hs.withCount _ _ _
  | sent => exact { hs with txLenBounds := nofun, txNotDone := nofun }
  | txRest => exact hs

/-- Settles O41: every effect keeps the invariant. -/
theorem stepKeepsInvariant : Obligations.StepKeepsInvariant := by
  intro s t hs h
  obtain ⟨-, rfl⟩ | ⟨a, rest, -, ha⟩ := step_next.mp h
  · exact hs
  · exact (hs.withAgenda rest).actEffect (act_effect ha)

/-- Settles O40: nothing is in flight, armed, staged or sent, and the buffers list nothing. -/
theorem resetMeetsInvariant : Obligations.ResetMeetsInvariant := by
  intro c hv
  obtain ⟨hrx, htx⟩ := reset_buffers_wf c
  exact
    { cfgValid := hv
      busyIff := by simp [State.resetWith]
      armedForm := nofun
      busyNoResult := nofun
      txnTa := nofun
      rxLenBounds := nofun
      rxHeld := nofun
      rxWf := hrx
      rxBelow := nofun
      txWf := htx
      txBelow := nofun
      txLenBounds := nofun
      txNotDone := nofun }

end Sys2Proof.Machine

/-! The receive slot: what each of its operations and each frame from the wire does to it. -/

namespace Sys2Proof.Machine

variable {s t : State}

/-! The reads. -/

theorem flagWord_decide (p : Prop) [Decidable p] : flagWord (decide p) = if p then 1 else 0 := by
  by_cases h : p <;> simp [flagWord, h]

theorem exec_rdRxAvail (s : State) :
    exec .rdRxAvail s = .next (s.returning (if s.rxPhase = .full then 1 else 0)) :=
  congrArg (fun v => Host.Outcome.next (s.returning v)) (flagWord_decide _)

theorem exec_rdRxbuf {k : Nat} (hk : k < s.cfg.rxBuf.bytes / 4) :
    exec (.rdRxbuf k) s = .next (s.drawn.returning (s.rxBufWord k s.nextDraw)) :=
  execRdRxbuf_next.mpr ⟨hk, rfl⟩

theorem lane_rxBufWord (s : State) (k : Nat) (v : Word) {j : Nat} (hj : j < 4) :
    lane (s.rxBufWord k v) j = (s.rxByte? (4 * k + j)).getD (lane v j) := by
  rw [State.rxBufWord]
  match j, hj with
  | 0, _ => exact lane_ofLanes_zero _ _ _ _
  | 1, _ => exact lane_ofLanes_one _ _ _ _
  | 2, _ => exact lane_ofLanes_two _ _ _ _
  | 3, _ => exact lane_ofLanes_three _ _ _ _

/-- A staged octet stands in its lane (R212). -/
theorem lane_rxBufWord_of_full (hf : s.rxPhase = .full) {k j : Nat} (hj : j < 4) (hl : 4 * k + j < s.rxLen.toNat)
    {b : Byte} (hb : s.rxBuf.get? (4 * k + j) = some b) (v : Word) : lane (s.rxBufWord k v) j = b := by
  rw [lane_rxBufWord s k v hj, State.rxByte?, if_pos ⟨hf, hl⟩, hb, Option.getD_some]

/-- Where no octet is staged the lane is the draw's (R212). -/
theorem lane_rxBufWord_of_undefined {k j : Nat} (hj : j < 4)
    (h : s.rxPhase = .empty ∨ s.rxLen.toNat ≤ 4 * k + j) (v : Word) : lane (s.rxBufWord k v) j = lane v j := by
  have hnot : ¬(s.rxPhase = .full ∧ 4 * k + j < s.rxLen.toNat) := by
    rintro ⟨hf, hl⟩
    rcases h with he | hge
    · simp [he] at hf
    · omega
  rw [lane_rxBufWord s k v hj, State.rxByte?, if_neg hnot, Option.getD_none]

/-- Settles O22: of all steps only the acknowledge empties the slot. -/
theorem readRxAvail : Obligations.ReadRxAvail := by
  intro s hv
  refine ⟨decode_readOf_reg hv rfl nofun, exec_rdRxAvail s, fun hf a t h => ?_⟩
  obtain hp | ⟨he, -⟩ | ⟨-, -, op, rfl, hd⟩ := (act_effect h).rxPhase_cases
  · exact .inl (hp.trans hf)
  · simp [hf] at he
  · exact .inr (by rw [eq_writeOf_of_decode_wrRxAck1 hv hd])

/-- Settles O23. -/
theorem readRxLen : Obligations.ReadRxLen :=
  fun _ hv => ⟨decode_readOf_reg hv rfl nofun, rfl⟩

/-- Settles O24. -/
theorem readRxBuf : Obligations.ReadRxBuf := by
  intro s k hv hk
  refine ⟨?_, s.rxBufWord k s.nextDraw, exec_rdRxbuf hk, fun j hj =>
    ⟨fun b hf hl hb => lane_rxBufWord_of_full hf hj hl hb _, fun h => lane_rxBufWord_of_undefined hj h _⟩⟩
  rw [Nat.add_assoc]
  exact decode_rxWord hv hk

/-! The acknowledge. -/

theorem exec_wrRxAck1_of_full (hf : s.rxPhase = .full) :
    exec .wrRxAck1 s = .next ((s.setRxPhase .empty).record .frameReleased) :=
  execWrRxAck1_next.mpr (.inl ⟨hf, rfl⟩)

theorem exec_wrRxAck1_of_ignore (he : s.rxPhase = .empty) (hi : s.cfg.ackEmpty = .ignore) :
    exec .wrRxAck1 s = .next s :=
  execWrRxAck1_next.mpr (.inr ⟨he, hi, rfl⟩)

theorem exec_wrRxAck1_of_strict (he : s.rxPhase = .empty) (hs : s.cfg.ackEmpty = .fault) :
    exec .wrRxAck1 s = .fault .ackWhileEmpty := by
  simp only [exec, execWrRxAck1, he, hs]

/-- Releasing the full slot lowers `irq_rx` first (R213, log 8). -/
theorem release_eq (hf : s.rxPhase = .full) : (s.setRxPhase .empty).record .frameReleased =
    { s with rxPhase := .empty, history := s.history ++ [.irqRx false, .frameReleased] } := by
  simp [State.setRxPhase, State.record, hf]

/-- Settles O25. -/
theorem acknowledge : Obligations.Acknowledge :=
  fun _ hv => ⟨decode_writeOf_rxAck hv, fun hf => (exec_wrRxAck1_of_full hf).trans (by rw [release_eq hf]),
    exec_wrRxAck1_of_ignore, exec_wrRxAck1_of_strict⟩

/-! The wire. -/

/-- A frame within the bounds is staged in the empty slot (R220). -/
theorem act_wireFrame_of_empty (he : s.rxPhase = .empty) {f : List Byte} (hlo : 4 ≤ f.length)
    (hhi : f.length ≤ s.cfg.rxBuf.bytes) : act (.wireFrame f) s = .next (stageFrame f s) :=
  receiveFrame_next.mpr ⟨hlo, hhi, .inl ⟨he, rfl⟩⟩

/-- A frame within the bounds that meets the full slot is dropped (R222). -/
theorem act_wireFrame_of_full (hf : s.rxPhase = .full) {f : List Byte} (hlo : 4 ≤ f.length)
    (hhi : f.length ≤ s.cfg.rxBuf.bytes) : act (.wireFrame f) s = .next (dropFrame s) :=
  receiveFrame_next.mpr ⟨hlo, hhi, .inr ⟨hf, rfl⟩⟩

/-- Staging in the empty slot raises `irq_rx` first (R220, log 8). -/
theorem stageFrame_eq (he : s.rxPhase = .empty) (f : List Byte) : stageFrame f s =
    { s with
      rxBuf := Memory.ofBytes 0 f, rxLen := BitVec.ofNat 32 f.length, rxPhase := .full
      history := s.history ++ [.irqRx true, .frameStaged f] } := by
  simp [stageFrame, State.setRxFrame, State.setRxPhase, State.record, he]

/-- Settles O26. -/
theorem frameIsStaged : Obligations.FrameIsStaged := by
  intro s f hv he hlo hhi
  refine ⟨Memory.ofBytes 0 f, ?_, toNat_ofNat_frame_length hv hhi, Memory.ofBytes_wf 0 f, fun i => ?_⟩
  · rw [act_wireFrame_of_empty he hlo hhi, stageFrame_eq he]
  · simp [Memory.get?_ofBytes]

/-- Settles O27: the two outcomes are the two of the free choice. -/
theorem frameIsDropped : Obligations.FrameIsDropped := by
  intro s f hf hlo hhi
  rw [act_wireFrame_of_full hf hlo hhi]
  obtain hd | hd := dropFrame_cases s <;> rw [hd]
  · exact .inl rfl
  · exact .inr (by simp [countBadFrame, State.record, State.drawn, State.countBad])

/-- Settles O28. -/
theorem badFrameIsCounted : Obligations.BadFrameIsCounted :=
  fun s => ⟨s.rxErrCnt + 1, BitVec.toNat_add _ _, rfl⟩

/-! Who owns the slot. -/

/-- The host stores nothing in the receive slot. -/
theorem Effect.rxSlot_eq {i : Instr} (h : Effect s i t) : t.rxBuf = s.rxBuf ∧ t.rxLen = s.rxLen := by
  cases h <;> exact ⟨rfl, rfl⟩

/-- While the slot is full no step of any agent changes its contents (R234). -/
theorem ActEffect.rxSlot_eq_of_full {a : Action} (h : ActEffect s a t) (hf : s.rxPhase = .full) :
    t.rxBuf = s.rxBuf ∧ t.rxLen = s.rxLen := by
  cases h
  case host he => exact he.rxSlot_eq
  case staged he _ _ => simp [hf] at he
  all_goals exact ⟨rfl, rfl⟩

theorem getLsbD_lane (v : Word) (j : Nat) {i : Nat} (hlo : 8 * j ≤ i) (hhi : i < 8 * j + 8) :
    (lane v j).getLsbD (i - 8 * j) = v.getLsbD i :=
  (getLsbD_of_extract rfl hlo hhi).symm

theorem ofLanes_lanes (v : Word) : ofLanes (lane v 0) (lane v 1) (lane v 2) (lane v 3) = v := by
  refine BitVec.eq_of_getLsbD_eq fun i hi => ?_
  rw [getLsbD_ofLanes]
  split
  · exact getLsbD_lane v 0 (by omega) (by omega)
  · split
    · exact getLsbD_lane v 1 (by omega) (by omega)
    · split
      · exact getLsbD_lane v 2 (by omega) (by omega)
      · exact getLsbD_lane v 3 (by omega) (by omega)

/-- While Empty a read of RXBUF answers the draw alone (R212). -/
theorem rxBufWord_of_empty (he : s.rxPhase = .empty) (k : Nat) (v : Word) : s.rxBufWord k v = v := by
  have hnone : ∀ i, s.rxByte? i = none := fun i => if_neg fun h => by simp [he] at h
  simp only [State.rxBufWord, hnone, Option.getD_none, ofLanes_lanes]

/-- Settles O46: while Empty the reads are draws, and of the effects `act_effect` lists only staging, which needs
the slot empty, stores in it. -/
theorem receiveSlotOwnership : Obligations.ReceiveSlotOwnership := by
  intro s hv
  refine ⟨fun he => ⟨fun f hlo hhi => ?_, ?_, fun k hk => ?_⟩,
    fun hf => ⟨fun a t h => ?_, ?_, fun k j b hk hj hl hb => ?_, ?_⟩⟩
  · exact ⟨_, act_wireFrame_of_empty he hlo hhi, rfl⟩
  · refine (readRxLen s hv).2.trans ?_
    simp [he]
  · rw [exec_rdRxbuf hk, rxBufWord_of_empty he]
    rfl
  · exact (act_effect h).rxSlot_eq_of_full hf
  · refine (readRxLen s hv).2.trans ?_
    simp [hf]
  · exact ⟨_, exec_rdRxbuf hk, lane_rxBufWord_of_full hf hj hl hb _⟩
  · exact ⟨_, (hostOp_of_decode (decode_writeOf_rxAck hv)).trans (exec_wrRxAck1_of_full hf), rfl⟩

end Sys2Proof.Machine

/-! The transmit slot: what each of its operations and the completion do to it. -/

namespace Sys2Proof.Machine

variable {s t : State}

/-- Of the host's operations the send strobe alone changes the transmit phase or TX_DONE (R43, R45). -/
theorem Effect.txFlags_cases {i : Instr} (h : Effect s i t) :
    (t.txPhase = s.txPhase ∧ t.txDone = s.txDone)
      ∨ (s.txPhase = .idle ∧ t.txPhase = .sending ∧ t.txDone = false ∧ i = .wrTxSend1) := by
  cases h
  case send hne _ _ =>
    have hidle : s.txPhase = .idle := by cases hp : s.txPhase <;> simp_all
    exact .inr ⟨hidle, rfl, rfl, rfl⟩
  all_goals exact .inl ⟨rfl, rfl⟩

/-- Of all steps the send strobe and the completion alone change the transmit phase or TX_DONE (R43, R45). -/
theorem ActEffect.txFlags_cases {a : Action} (h : ActEffect s a t) :
    (t.txPhase = s.txPhase ∧ t.txDone = s.txDone)
      ∨ (s.txPhase = .idle ∧ t.txPhase = .sending ∧ t.txDone = false
          ∧ ∃ op, a = .host op ∧ decode s.cfg op = .ok .wrTxSend1)
      ∨ (s.txPhase = .sending ∧ t.txPhase = .idle ∧ t.txDone = true ∧ a = .txEngine) := by
  cases h
  case host op i hd he =>
    obtain hkeep | ⟨hi, hs, hdone, rfl⟩ := he.txFlags_cases
    · exact .inl hkeep
    · exact .inr (.inl ⟨hi, hs, hdone, op, rfl, hd⟩)
  case sent hs => exact .inr (.inr ⟨hs, rfl, rfl, rfl⟩)
  all_goals exact .inl ⟨rfl, rfl⟩

/-- Settles O45. -/
theorem txPhaseTransitions : Obligations.TxPhaseTransitions := by
  intro s t a h hne
  obtain ⟨hp, hd⟩ | hcases := (act_effect h).txFlags_cases
  · exact absurd hne (not_or.mpr ⟨not_not.mpr hp, not_not.mpr hd⟩)
  · exact hcases

/-- The operation of a decoded write or read is the one that carries it, so a strobe has one operation alone. -/
theorem eq_encode_of_decode {c : Config} (hv : c.valid = true) {op : BusOp} {i : Instr} (h : decode c op = .ok i) :
    op = encode c i :=
  (encodeOfDecode c op i hv h).2.symm

theorem exec_rdTxBusy (s : State) :
    exec .rdTxBusy s = .next (s.returning (if s.txPhase = .sending then 1 else 0)) :=
  congrArg (fun v => Host.Outcome.next (s.returning v)) (flagWord_decide _)

/-- Settles O29: of all steps only the send strobe leaves Idle. -/
theorem readTxBusy : Obligations.ReadTxBusy := by
  intro s hv
  refine ⟨decode_readOf_reg hv rfl nofun, exec_rdTxBusy s, fun hi a t h => ?_⟩
  obtain ⟨hp, -⟩ | ⟨-, -, -, op, rfl, hd⟩ | ⟨hs, -⟩ := (act_effect h).txFlags_cases
  · exact .inl (hp.trans hi)
  · exact .inr (by rw [eq_encode_of_decode hv hd]; rfl)
  · simp [hi] at hs

/-- Settles O30. -/
theorem writeTxBuf : Obligations.WriteTxBuf := by
  intro s k v hv hk
  refine ⟨?_, fun hs => exec_wrTxbuf_of_sending hs hk v, fun hi =>
    ⟨s.txBuf.setWord (4 * k) v, exec_wrTxbuf_of_idle hi hk v, fun j hj => ?_, fun a ha => ?_⟩⟩
  · rw [Nat.add_assoc]
    exact decode_txWord hv hk v
  · rw [Memory.get?_setWord, if_pos (by omega), Nat.add_sub_cancel_left]
    rfl
  · rw [Memory.get?_setWord, if_neg (by omega)]

theorem exec_wrTxSend1_of_badLength (hi : s.txPhase = .idle)
    (hl : s.txLen.toNat = 0 ∨ s.cfg.txBuf.bytes < s.txLen.toNat) :
    exec .wrTxSend1 s = .fault (.txBadLength s.txLen) := by
  have hbad : s.txLen = 0#32 ∨ s.cfg.txBuf.bytes < s.txLen.toNat := hl.imp_left BitVec.eq_of_toNat_eq
  exact (if_neg (TxPhase.ne_sending_of_eq_idle hi)).trans (if_pos hbad)

/-- Handing the slot over lowers `irq_tx` where it is raised (R253, log 8). -/
theorem handOver_eq (s : State) : (s.setTxDone false).setTxPhase .sending =
    { s with
      txDone := false, txPhase := .sending
      history := s.history ++ (if s.txDone = true then [.irqTx false] else []) } := by
  cases hd : s.txDone <;> simp [State.setTxDone, State.setTxPhase, hd]

theorem decode_writeOf_txSend {c : Config} (hv : c.valid = true) :
    decode c (writeOf c (.reg .txSend) 1) = .ok .wrTxSend1 :=
  decode_writeOf_reg hv rfl _

/-- Settles O32. -/
theorem sendStrobe : Obligations.SendStrobe := by
  intro s hv
  refine ⟨decode_writeOf_txSend hv, exec_wrTxSend1_of_sending, exec_wrTxSend1_of_badLength, fun hi hlo hhi => ?_⟩
  rw [exec_wrTxSend1_of_idle hi hlo hhi, handOver_eq]

/-- Settles O33. -/
theorem readTxDone : Obligations.ReadTxDone :=
  fun _ hv => ⟨decode_readOf_reg hv rfl nofun, rfl⟩

theorem txComplete_of_sending (hs : s.txPhase = .sending) :
    txComplete s = ((s.record (.frameSent s.txFrame)).setTxDone true).setTxPhase .idle := by
  simp only [txComplete, hs]

theorem txComplete_of_idle (hi : s.txPhase = .idle) : txComplete s = s := by
  simp only [txComplete, hi]

/-- The completion raises `irq_tx` after the frame is sent, where it is not raised (R261, log 8). -/
theorem completion_eq (s : State) (f : List Byte) : ((s.record (.frameSent f)).setTxDone true).setTxPhase .idle =
    { s with
      txDone := true, txPhase := .idle
      history := s.history ++ [.frameSent f] ++ (if s.txDone = true then [] else [.irqTx true]) } := by
  cases hd : s.txDone <;> simp [State.setTxDone, State.setTxPhase, State.record, hd]

@[simp] theorem State.txFrame_length (s : State) : s.txFrame.length = s.txLen.toNat := by simp [State.txFrame]

theorem State.txFrame_getElem? (s : State) {i : Nat} (hi : i < s.txLen.toNat) : s.txFrame[i]? = some (s.txByte i) := by
  simp [State.txFrame, hi]

/-- Settles O34: the frame sent is the one in the slot. -/
theorem transmissionCompletes : Obligations.TransmissionCompletes := by
  intro s rest ha hs
  refine ⟨s.txFrame, ?_, s.txFrame_length, fun i b hi hb => ?_⟩
  · rw [step_of_agenda ha, act, txComplete_of_sending (s := { s with agenda := rest }) hs, completion_eq]
    rfl
  · rw [s.txFrame_getElem? hi, State.txByte, hb, Option.getD_some]

/-! The MAC address registers and the error counter. -/

/-- Settles O35. -/
theorem macAddressRegisters : Obligations.MacAddressRegisters :=
  fun _ v hv => ⟨⟨decode_readOf_reg hv rfl nofun, rfl⟩, ⟨decode_writeOf_reg hv rfl v, rfl⟩,
    ⟨decode_readOf_reg hv rfl nofun, rfl⟩, ⟨decode_writeOf_reg hv rfl v, rfl⟩⟩

/-- The low half of MAC_ADDR_HI holds its two octets, the first in the upper lane (R37). -/
theorem lanes_append_octets (u : Half) (o o' : Byte) :
    lane (u ++ o ++ o') 1 = o ∧ lane (u ++ o ++ o') 0 = o' := by
  refine ⟨extract_eq fun i hi => ?_, extract_eq fun i hi => ?_⟩
  all_goals change BitVec.getLsbD (w := 16 + 8 + 8) (u ++ o ++ o') _ = _
  · rw [BitVec.getLsbD_append, if_neg (by omega), BitVec.getLsbD_append, if_pos (by omega)]
    congr 1
    omega
  · rw [BitVec.getLsbD_append, if_pos (by omega)]
    congr 1
    omega

/-- Settles O36. -/
theorem macAddressOctets : Obligations.MacAddressOctets := by
  intro s u o0 o1 o2 o3 o4 o5
  refine ⟨s.setMacHi (u ++ o0 ++ o1), (s.setMacHi (u ++ o0 ++ o1)).setMacLo (ofLanes o5 o4 o3 o2), rfl, rfl, ?_⟩
  obtain ⟨h0, h1⟩ := lanes_append_octets u o0 o1
  simp [State.macAddress, h0, h1]

/-- Settles O37. -/
theorem readRxErrCnt : Obligations.ReadRxErrCnt :=
  fun _ hv => ⟨decode_readOf_reg hv rfl nofun, rfl⟩

end Sys2Proof.Machine

/-! The whole machine: the parameters, the MDIO phases, the reads, the idempotent writes and the events of the lines. -/

namespace Sys2Proof.Machine

variable {s t : State}

/-- Settles O1: the decoder is run on each word. -/
theorem sampleWordsDecode : Obligations.SampleWordsDecode := by
  refine ⟨?_, ?_, ?_, ?_, ?_, ?_, ?_⟩ <;> decide

/-- Settles O38. -/
theorem stepRunsDecoded : Obligations.StepRunsDecoded :=
  fun _ _ _ _ ha hd => (step_of_agenda ha).trans (hostOp_of_decode hd)

/-- Settles O39. -/
theorem resetValues : Obligations.ResetValues :=
  ⟨rfl, fun _ => ⟨rfl, rfl, rfl, rfl, rfl, rfl, rfl, rfl, rfl, rfl, rfl, rfl⟩⟩

theorem Effect.cfg_eq {i : Instr} (h : Effect s i t) : t.cfg = s.cfg := by cases h <;> rfl

theorem ActEffect.cfg_eq {a : Action} (h : ActEffect s a t) : t.cfg = s.cfg := by
  cases h
  case host he => exact he.cfg_eq
  all_goals rfl

/-- Settles O42. -/
theorem stepKeepsParameters : Obligations.StepKeepsParameters := by
  intro s t h
  obtain ⟨-, rfl⟩ | ⟨a, rest, -, ha⟩ := step_next.mp h
  · rfl
  · exact (act_effect ha).cfg_eq

/-- Of the host's operations the two command writes and the start strobe alone change the MDIO phase (R41). -/
theorem Effect.mdioPhase_cases {i : Instr} (h : Effect s i t) :
    t.mdioPhase = s.mdioPhase
      ∨ (s.mdioPhase ≠ .busy ∧ t.mdioPhase = .busy ∧ ∃ phy reg data, i = .wrMdioCmdW phy reg data)
      ∨ (s.mdioPhase = .armed ∧ t.mdioPhase = .busy ∧ i = .wrMdioCtrlStart)
      ∨ (s.mdioPhase ≠ .busy ∧ t.mdioPhase = .armed ∧ ∃ phy reg, i = .wrMdioCmdR phy reg) := by
  cases h
  case startWrite phy reg data hb => exact .inr (.inl ⟨hb, rfl, phy, reg, data, rfl⟩)
  case startRead ha => exact .inr (.inr (.inl ⟨ha, rfl, rfl⟩))
  case armRead phy reg hb => exact .inr (.inr (.inr ⟨hb, rfl, phy, reg, rfl⟩))
  all_goals exact .inl rfl

/-- Of the steps that are no host's the completion alone changes the MDIO phase (R41). -/
theorem ActEffect.mdioPhase_cases {a : Action} (h : ActEffect s a t) :
    t.mdioPhase = s.mdioPhase
      ∨ (∃ op i, a = .host op ∧ decode s.cfg op = .ok i ∧ Effect s i t)
      ∨ (s.mdioPhase = .busy ∧ t.mdioPhase = .idle ∧ ∃ answer, a = .mdioEngine answer) := by
  cases h
  case host op i hd he => exact .inr (.inl ⟨op, i, rfl, hd, he⟩)
  case wroteTxn a phy reg ta data hb _ => exact .inr (.inr ⟨hb, rfl, a, rfl⟩)
  case readTxn a phy reg ta hb _ => exact .inr (.inr ⟨hb, rfl, a, rfl⟩)
  all_goals exact .inl rfl

/-- Settles O43. -/
theorem mdioPhaseTransitions : Obligations.MdioPhaseTransitions := by
  intro s t a h hne
  obtain hp | ⟨op, i, rfl, hd, he⟩ | hdone := (act_effect h).mdioPhase_cases
  · exact absurd hp hne
  · obtain hp | ⟨hb, ht, phy, reg, data, rfl⟩ | ⟨ha, ht, rfl⟩ | ⟨hb, ht, phy, reg, rfl⟩ :=
      he.mdioPhase_cases
    · exact absurd hp hne
    · exact .inl ⟨hb, ht, op, phy, reg, data, rfl, hd⟩
    · exact .inr (.inl ⟨ha, ht, op, rfl, hd⟩)
    · have hidle : s.mdioPhase = .idle := by cases hp : s.mdioPhase <;> simp_all
      exact .inr (.inr (.inl ⟨hidle, ht, op, phy, reg, rfl, hd⟩))
  · exact .inr (.inr (.inr hdone))

/-- Settles O48: the nine reads each return a value, and the ten writes are no reads. -/
theorem readsAreHarmless : Obligations.ReadsAreHarmless := by
  intro s i hdir hwf
  cases i
  case rdRxbuf k => exact ⟨_, _, exec_rdRxbuf (of_decide_eq_true hwf)⟩
  case rdMdioStat | rdMdioData | rdRxLen => exact ⟨_, s.draws + 1, rfl⟩
  case rdRxAvail | rdTxBusy | rdTxDone | rdMacAddrHi | rdMacAddrLo | rdRxErrCnt => exact ⟨_, s.draws, rfl⟩
  all_goals cases hdir

/-- A word stored twice is stored once. -/
theorem Memory.setWord_setWord {m : Memory} (hm : m.wf) (a : Nat) (v : Word) :
    (m.setWord a v).setWord a v = m.setWord a v := by
  refine Memory.ext_of_wf (Memory.setWord_wf (Memory.setWord_wf hm a v) a v) (Memory.setWord_wf hm a v) fun i => ?_
  rw [Memory.get?_setWord, Memory.get?_setWord]
  split <;> rfl

/-- Settles O49: each stores a value over itself, and leaves the phase it needs as it is. -/
theorem storingWritesAreIdempotent : Obligations.StoringWritesAreIdempotent := by
  rintro s t i hs (⟨phy, reg, rfl⟩ | ⟨n, rfl⟩ | ⟨k, v, rfl⟩ | ⟨v, rfl⟩ | ⟨v, rfl⟩) h
  · obtain ⟨-, rfl⟩ := execWrMdioCmdR_next.mp h
    exact execWrMdioCmdR_next.mpr ⟨by simp, rfl⟩
  · obtain ⟨hne, rfl⟩ := execWrTxLen_next.mp h
    exact execWrTxLen_next.mpr ⟨hne, rfl⟩
  · obtain ⟨hk, hne, rfl⟩ := execWrTxbuf_next.mp h
    refine execWrTxbuf_next.mpr ⟨hk, hne, ?_⟩
    simp [State.setTxWord, Memory.setWord_setWord hs.txWf]
  · cases h
    rfl
  · cases h
    rfl

/-! The events of the two lines. -/

@[simp] theorem rxRises_append (h l : List Event) : rxRises (h ++ l) = rxRises h + rxRises l := List.countP_append

@[simp] theorem txRises_append (h l : List Event) : txRises (h ++ l) = txRises h + txRises l := List.countP_append

@[simp] theorem framesSent_append (h l : List Event) : framesSent (h ++ l) = framesSent h + framesSent l :=
  List.countP_append

/-- A host raises no line and sends no frame. -/
theorem Effect.rises_eq {i : Instr} (h : Effect s i t) :
    rxRises t.history = rxRises s.history ∧ txRises t.history = txRises s.history
      ∧ framesSent t.history = framesSent s.history := by
  cases h
  case release hf => simp [hf, rxRises, txRises, framesSent]
  case send => by_cases hd : s.txDone = false <;> simp [hd, rxRises, txRises, framesSent]
  all_goals exact ⟨rfl, rfl, rfl⟩

/-- Staging and completion each raise their line, which is down before: the slot is empty, TX_DONE 0 (R49). -/
theorem ActEffect.rises_eq {a : Action} (h : ActEffect s a t) (hs : s.Inv) :
    rxRises t.history + framesStaged s.history = rxRises s.history + framesStaged t.history
      ∧ txRises t.history + framesSent s.history = txRises s.history + framesSent t.history := by
  cases h
  case host he =>
    obtain ⟨hrx, htx, hsent⟩ := he.rises_eq
    rw [hrx, htx, hsent, he.framesStaged_eq]
    exact ⟨rfl, rfl⟩
  case staged f he _ _ =>
    rw [stageFrame_history f he]
    simp [rxRises, txRises, framesStaged, framesSent]
    omega
  case sent hsend =>
    simp [hs.txNotDone hsend, rxRises, txRises, framesStaged, framesSent]
    omega
  all_goals simp [rxRises, txRises, framesStaged, framesSent]

/-- Settles O50. -/
theorem oneRisePerFrame : Obligations.OneRisePerFrame := by
  intro s t hs h
  have hlevels : (t.irqRx = true ↔ t.rxPhase = .full) ∧ (t.irqTx = true ↔ t.txDone = true) :=
    ⟨decide_eq_true_iff, Iff.rfl⟩
  obtain ⟨-, rfl⟩ | ⟨a, rest, -, ha⟩ := step_next.mp h
  · exact ⟨rfl, rfl, hlevels⟩
  · obtain ⟨hrx, htx⟩ := (act_effect ha).rises_eq (hs.withAgenda rest)
    exact ⟨hrx, htx, hlevels⟩

end Sys2Proof.Machine

/-! Liveness: what is in flight ends by the step that completes it, and a due interrupt has its handler invoked. -/

namespace Sys2Proof.Machine

variable {s t : State}

theorem Effect.agenda_eq {i : Instr} (h : Effect s i t) : t.agenda = s.agenda := by cases h <;> rfl

/-- No agent's step changes what is still to come. -/
theorem ActEffect.agenda_eq {a : Action} (h : ActEffect s a t) : t.agenda = s.agenda := by
  cases h
  case host he => exact he.agenda_eq
  all_goals rfl

/-! Runs of the machine. -/

theorem run_succ_of_step (h : step s = .next t) (k : Nat) : Host.Core.run core (k + 1) s = Host.Core.run core k t := by
  have hcore : core.step s = .next t := h
  simp only [Host.Core.run, hcore]

/-- Within `n` steps the run from `s` meets `D`, or it stops. -/
def EndsWithin (n : Nat) (s : State) (D : State → Prop) : Prop :=
  (∃ k t, k ≤ n ∧ Host.Core.run core k s = .next t ∧ D t)
    ∨ (∃ k e, k ≤ n ∧ Host.Core.run core k s = .fault e)
    ∨ (∃ k r, k ≤ n ∧ Host.Core.run core k s = .refused r)

theorem EndsWithin.of_step {n : Nat} {D : State → Prop} (h : step s = .next t) (ht : EndsWithin n t D) :
    EndsWithin (n + 1) s D := by
  obtain ⟨k, u, hk, hr, hD⟩ | ⟨k, e, hk, hr⟩ | ⟨k, r, hk, hr⟩ := ht
  · exact .inl ⟨k + 1, u, by omega, (run_succ_of_step h k).trans hr, hD⟩
  · exact .inr (.inl ⟨k + 1, e, by omega, (run_succ_of_step h k).trans hr⟩)
  · exact .inr (.inr ⟨k + 1, r, by omega, (run_succ_of_step h k).trans hr⟩)

/-- What stays in flight (`Q`) until some step `ends` it has ended (`D`) when the agenda has been run, if such a
step is on it. -/
theorem endsWithin_agenda {Q D : State → Prop} {ends : Action → Prop}
    (hstep : ∀ s t a, Q s → act a s = .next t → D t ∨ (Q t ∧ ¬ends a))
    (hrest : ∀ s l, Q s → Q { s with agenda := l }) {l : List Action} (hl : s.agenda = l) (hQ : Q s)
    (hpending : ∃ a ∈ l, ends a) : EndsWithin l.length s D := by
  induction l generalizing s with
  | nil => simp at hpending
  | cons a l ih =>
    have hs := step_of_agenda hl
    cases hact : act a { s with agenda := l } with
    | fault e => exact .inr (.inl ⟨1, e, by simp, by simp [Host.Core.run, core, hs, hact]⟩)
    | refused r => exact .inr (.inr ⟨1, r, by simp, by simp [Host.Core.run, core, hs, hact]⟩)
    | next t =>
      have hst : step s = .next t := hs.trans hact
      obtain hD | ⟨hQt, hne⟩ := hstep _ t a (hrest s l hQ) hact
      · exact .inl ⟨1, t, by simp, (run_succ_of_step hst 0).trans rfl, hD⟩
      · have hpending' : ∃ b ∈ l, ends b := by
          obtain ⟨b, hb, he⟩ := hpending
          rcases List.mem_cons.mp hb with rfl | hb
          · exact absurd he hne
          · exact ⟨b, hb, he⟩
        exact (ih (act_effect hact).agenda_eq hQt hpending').of_step hst

/-- The engine ends the transaction in flight (R160, R161). -/
theorem mdioComplete_mdioPhase (hs : s.Inv) (hb : s.mdioPhase = .busy) (answer : Half) :
    (mdioComplete answer s).mdioPhase = .idle := by
  obtain ⟨_, _, _, _, -, -, he⟩ | ⟨_, _, _, -, -, he⟩ | ⟨hrest, -⟩ := mdioComplete_cases answer s
  · rw [he]
    rfl
  · rw [he]
    rfl
  · exact (hrest.elim (absurd hb) (absurd · (hs.busyIff.mp hb)))

/-- A step of the MDIO engine ends the transaction in flight; any other step leaves it in flight. -/
theorem act_of_busy {a : Action} (hs : s.Inv) (hb : s.mdioPhase = .busy) (h : act a s = .next t) :
    t.mdioPhase = .idle ∨ (t.mdioPhase = .busy ∧ ¬∃ answer, a = .mdioEngine answer) := by
  by_cases ha : ∃ answer, a = .mdioEngine answer
  · obtain ⟨answer, rfl⟩ := ha
    cases h
    exact .inl (mdioComplete_mdioPhase hs hb answer)
  · by_cases hp : t.mdioPhase = s.mdioPhase
    · exact .inr ⟨hp.trans hb, ha⟩
    · obtain ⟨hne, -⟩ | ⟨harmed, -⟩ | ⟨hidle, -⟩ | ⟨-, -, he⟩ := mdioPhaseTransitions s t a h hp
      · exact absurd hb hne
      · simp [hb] at harmed
      · simp [hb] at hidle
      · exact absurd he ha

/-- A step of the transmit engine ends the transmission; any other step leaves it in flight. -/
theorem act_of_sending {a : Action} (hs : s.txPhase = .sending) (h : act a s = .next t) :
    t.txPhase = .idle ∨ (t.txPhase = .sending ∧ a ≠ .txEngine) := by
  by_cases ha : a = .txEngine
  · subst ha
    cases h
    exact .inl (txComplete_txPhase s)
  · obtain ⟨hp, -⟩ | ⟨hidle, -⟩ | ⟨-, -, -, he⟩ := (act_effect h).txFlags_cases
    · exact .inr ⟨hp.trans hs, ha⟩
    · simp [hs] at hidle
    · exact absurd he ha

/-- A run under one more choice is the step of that choice after the run without it. -/
theorem runFor_succ {sched : Nat → Driver.Choice} {m : Nat} {y w z : Driver.System} (hw : runFor sched m y = .next w)
    (hz : Driver.sysStep (sched m) w = .next z) : runFor sched (m + 1) y = .next z := by
  rw [runFor, List.range_succ, List.map_append, Driver.sysRun_append]
  exact ⟨w, hw, Driver.sysRun_cons.mpr ⟨z, hz, rfl⟩⟩

/-- The choice `invoke` puts the handler beside the programs that are there, while the interrupt is enabled. -/
theorem sysStep_invoke {w : Driver.System} (h : w.interrupt = .enabled) (allocated : Bool) :
    Driver.sysStep (.invoke allocated) w = .next { w with procs := w.procs ++ [Driver.rxHandler allocated] } :=
  if_pos h

/-- Settles O51: the first two by the induction over the agenda; the third by the choice that fairness gives, which
invokes the handler unless the run has stopped or the interrupt is no longer due. -/
theorem liveTransactionEnds : Obligations.LiveTransactionEnds := by
  refine ⟨fun s hs hb ⟨a, ha⟩ => ?_, fun s hs ha => ?_, fun sched y n v hfair hv hdue => ?_⟩
  · exact endsWithin_agenda (Q := fun s => s.Inv ∧ s.mdioPhase = .busy) (D := fun t => t.mdioPhase = .idle)
      (ends := fun a => ∃ answer, a = .mdioEngine answer)
      (fun s t a ⟨hi, hb⟩ h => (act_of_busy hi hb h).imp_right fun ⟨hb', hne⟩ =>
        ⟨⟨hi.actEffect (act_effect h), hb'⟩, hne⟩)
      (fun s l ⟨hi, hb⟩ => ⟨hi.withAgenda l, hb⟩) rfl ⟨hs, hb⟩ ⟨_, ha, a, rfl⟩
  · exact endsWithin_agenda (Q := fun s => s.txPhase = .sending) (D := fun t => t.txPhase = .idle)
      (ends := (· = .txEngine)) (fun s t a => act_of_sending) (fun s l h => h) rfl hs ⟨_, ha, rfl⟩
  · obtain ⟨m, hnm, ⟨allocated, hinvoke⟩ | ⟨w, hw, hnot⟩⟩ := hfair n v hv hdue
    · cases hw : runFor sched m y with
      | fault e => exact .inr (.inl ⟨m, e, hnm, hw⟩)
      | refused r => exact .inr (.inr ⟨m, r, hnm, hw⟩)
      | next w =>
        refine .inl ⟨m, w, hnm, hw, ?_⟩
        by_cases henabled : w.interrupt = .enabled
        · refine .inl ⟨allocated, hinvoke, runFor_succ hw ?_⟩
          rw [hinvoke, sysStep_invoke henabled]
        · exact .inr fun hdue => henabled hdue.2
    · exact .inl ⟨m, w, hnm, hw, .inr hnot⟩

/-- Settles O52. -/
theorem stuckEnginesStayBusy : Obligations.StuckEnginesStayBusy := by
  refine ⟨fun s k ha => ?_, fun s answer hb => ?_, fun s hi => ?_⟩
  · induction k with
    | zero => rfl
    | succ k ih => exact (run_succ_of_step (step_next.mpr (.inl ⟨ha, rfl⟩)) k).trans ih
  · rw [act, mdioComplete_of_ne_busy hb]
  · rw [act, txComplete_of_idle hi]

end Sys2Proof.Machine

/-! The driver's procedures run line by line: one rule per kind of line for an agent alone. -/

namespace Sys2Proof.Driver

open Sys2Proof.Machine

variable {s t : State} {c : Config} {g : Option Nat} {k : Proc} {tr : List BusOp} {l : List Choice} {y w : System}

/-! The rules. -/

/-- Agent 0 alone with nothing outstanding, having issued the operations `tr`, which have all reached the block. -/
def lone (s : State) (g : Option Nat) (p : Proc) (tr : List BusOp) : System :=
  ⟨s, g, [p], [], issued tr, issued tr, .unarmed⟩

theorem issued_append (ops : List BusOp) (op : BusOp) : issued ops ++ [(0, op)] = issued (ops ++ [op]) := by
  simp [issued]

/-- A step that answers a next system goes on with the rest of the schedule. -/
theorem sysRun_of_step {ch : Choice} (h : sysStep ch y = .next w) : sysRun (ch :: l) y = sysRun l w := by
  simp only [sysRun, h]

theorem sysRun_lock : sysRun (.host 0 :: l) (lone s none (.lock k) tr) = sysRun l (lone s (some 0) k tr) := rfl

theorem sysRun_unlock : sysRun (.host 0 :: l) (lone s g (.unlock k) tr) = sysRun l (lone s none k tr) := rfl

theorem sysRun_env {p : Proc} {a : Action} (h : act a s = .next t) :
    sysRun (.env a :: l) (lone s g p tr) = sysRun l (lone t g p tr) :=
  sysRun_of_step (by simp only [sysStep, lone, h])

theorem sysRun_mdioEngine {p : Proc} {a : Half} :
    sysRun (.env (.mdioEngine a) :: l) (lone s g p tr) = sysRun l (lone (mdioComplete a s) g p tr) := sysRun_env rfl

/-- An agent's line with a bus operation, wherever the others are. -/
theorem sysStep_host {i : Nat} {p : Proc} {op : BusOp} {f : Word → Proc} (hp : y.procs[i]? = some p)
    (ho : p.operation y.block.cfg = some (op, f)) : sysStep (.host i) y = issueAs i op f y := by
  simp only [sysStep, hp, agentStep, ho]

/-- A line with a bus operation goes on from what the block returns. -/
theorem sysRun_operation {p : Proc} {op : BusOp} {f : Word → Proc} (hp : p.operation s.cfg = some (op, f))
    (h : hostOp op s = .next t) :
    sysRun (.host 0 :: l) (lone s g p tr) = sysRun l (lone t g (f (t.returned.getD 0#32)) (tr ++ [op])) := by
  refine sysRun_of_step ((sysStep_host rfl hp).trans (issueAs_next.mpr ⟨t, h, ?_⟩))
  simp only [lone, issued_append]
  rfl

theorem sysRun_read {x : Target} {f : Word → Proc} (hc : s.cfg = c) (h : hostOp (readOf c x) s = .next t) :
    sysRun (.host 0 :: l) (lone s g (.rd x f) tr)
      = sysRun l (lone t g (f (t.returned.getD 0#32)) (tr ++ [readOf c x])) := by
  subst hc
  exact sysRun_operation rfl h

theorem sysRun_write {x : Target} {v : Word} (hc : s.cfg = c) (h : hostOp (writeOf c x v) s = .next t) :
    sysRun (.host 0 :: l) (lone s g (.wr x v k) tr) = sysRun l (lone t g k (tr ++ [writeOf c x v])) := by
  subst hc
  exact sysRun_operation (f := fun _ => k) rfl h

/-- A write that faults stops the run. -/
theorem sysRun_write_fault {x : Target} {v : Word} {i : Nat} {e : Fault} (hp : y.procs[i]? = some (.wr x v k))
    (hc : y.block.cfg = c) (h : hostOp (writeOf c x v) y.block = .fault e) : sysRun (.host i :: l) y = .fault e := by
  subst hc
  simp only [sysRun, sysStep_host hp rfl, issueAs, h]

/-- A wait whose masked value is zero ends with its first read (R131). -/
theorem sysRun_poll {x : Target} {m : Word} (hc : s.cfg = c) (h : hostOp (readOf c x) s = .next t)
    (hz : t.returned.getD 0#32 &&& m = 0#32) :
    sysRun (.host 0 :: l) (lone s g (.poll0 x m k) tr) = sysRun l (lone t g k (tr ++ [readOf c x])) := by
  subst hc
  refine (sysRun_operation rfl h).trans ?_
  simp only [hz, ↓reduceIte]

/-! The waits on MDIO_STAT and the two MDIO procedures. -/

/-- The block after a read of MDIO_STAT (R150). -/
def polled (s : State) : State := s.drawn.returning (s.statWord s.nextDraw)

theorem hostOp_read_mdioStat (hv : c.valid = true) (hc : s.cfg = c) :
    hostOp (readOf c (.reg .mdioStat)) s = .next (polled s) := by
  subst hc
  exact hostOp_of_decode (decode_readOf_reg (r := .mdioStat) hv rfl nofun)

/-- Where the read word is shared it is read as MDIO_STAT, with the same answer (R25). -/
theorem hostOp_read_mdioData (hv : c.valid = true) (hc : s.cfg = c) :
    hostOp (readOf c (.reg .mdioData)) s = .next (s.drawn.returning (s.dataWord s.nextDraw)) := by
  subst hc
  by_cases hshared : s.cfg.mdioStat = s.cfg.mdioData
  · obtain ⟨hd, he⟩ := sharedReadWord s hv hshared
    exact (hostOp_of_decode hd).trans he.symm
  · exact hostOp_of_decode (decode_readOf_reg (r := .mdioData) hv rfl fun _ => hshared)

/-- While nothing is in flight the masked status is zero (R27, R366). -/
theorem statWord_and_busyMask (hb : s.mdioPhase ≠ .busy) (v : Word) : s.statWord v &&& busyMask s.cfg = 0#32 := by
  refine BitVec.eq_of_getLsbD_eq fun j hj => ?_
  by_cases hbit : j = s.cfg.busyBit.val
  · subst hbit
    rw [BitVec.getLsbD_and, getLsbD_statWord_busyBit]
    simp [State.inProgress, hb]
  · have hmask : (busyMask s.cfg).getLsbD j = false := by
      simp [busyMask]
      omega
    rw [BitVec.getLsbD_and, hmask]
    simp

theorem sysRun_poll_mdioStat (hv : c.valid = true) (hc : s.cfg = c) (hb : s.mdioPhase ≠ .busy) :
    sysRun (.host 0 :: l) (lone s g (.poll0 (.reg .mdioStat) (busyMask c) k) tr)
      = sysRun l (lone (polled s) g k (tr ++ [readOf c (.reg .mdioStat)])) :=
  sysRun_poll hc (hostOp_read_mdioStat hv hc) (hc ▸ statWord_and_busyMask hb _)

/-- From `s` to `s'` the MDIO transactions of the events `es` have been run, one after another, and nothing else. -/
structure AfterMdio (s : State) (es : List Event) (s' : State) : Prop where
  cfg : s'.cfg = s.cfg
  notBusy : s'.mdioPhase ≠ .busy
  idle : es ≠ [] ∨ s.mdioPhase = .idle → s'.mdioPhase = .idle
  rxPhase : s'.rxPhase = s.rxPhase
  txPhase : s'.txPhase = s.txPhase
  history : s'.history = s.history ++ es

theorem AfterMdio.refl (hb : s.mdioPhase ≠ .busy) : AfterMdio s [] s :=
  ⟨rfl, hb, fun h => h.resolve_left (absurd rfl), rfl, rfl, (List.append_nil _).symm⟩

theorem AfterMdio.trans {s' s'' : State} {es es' : List Event} (h : AfterMdio s es s') (h' : AfterMdio s' es' s'') :
    AfterMdio s (es ++ es') s'' where
  cfg := h'.cfg.trans h.cfg
  notBusy := h'.notBusy
  idle hor := by
    by_cases hne : es' = []
    · exact h'.idle (.inr (h.idle (by simpa [hne] using hor)))
    · exact h'.idle (.inl hne)
  rxPhase := h'.rxPhase.trans h.rxPhase
  txPhase := h'.txPhase.trans h.txPhase
  history := by rw [h'.history, h.history, List.append_assoc]

theorem AfterMdio.returning {es : List Event} {s' : State} (h : AfterMdio s es s') (v : Word) :
    AfterMdio s es (s'.drawn.returning v) := { h with }

theorem AfterMdio.polled {es : List Event} {s' : State} (h : AfterMdio s es s') : AfterMdio s es (polled s') :=
  h.returning _

/-- The event of a write transaction the driver starts (R160). -/
def wroteEvent (c : Config) (r : Nat) (v : Half) : Event :=
  .mdioWriteTxn c.fixedPhyAddr (BitVec.ofNat 5 r) c.turnaround v

/-- The event of a read transaction the driver starts (R161). -/
def readEvent (c : Config) (r : Nat) (v : Half) : Event :=
  .mdioReadTxn c.fixedPhyAddr (BitVec.ofNat 5 r) c.turnaround v

theorem hostOp_writeCommand (hv : c.valid = true) (hc : s.cfg = c) (hb : s.mdioPhase ≠ .busy) {r : Nat} (hr : r < 32)
    (v : Half) : hostOp (writeOf c (.reg .mdioCmd) (writeCommandWord c r v)) s =
      .next ((s.setMdioCmd (writeCommandWord c r v)).startTxn
        (.write c.fixedPhyAddr (BitVec.ofNat 5 r) c.turnaround v)) := by
  subst hc
  rw [writeCommandWord_eq _ hr]
  exact (hostOp_of_decode (decodeOfEncode s.cfg (.wrMdioCmdW _ _ _) hv rfl nofun)).trans
    (exec_wrMdioCmdW_of_ne_busy hb _ _ _)

theorem hostOp_readCommand (hv : c.valid = true) (hc : s.cfg = c) (hb : s.mdioPhase ≠ .busy) {r : Nat} (hr : r < 32) :
    hostOp (writeOf c (.reg .mdioCmd) (readCommandWord c r)) s = .next (s.setMdioCmd (readCommandWord c r)).arm := by
  subst hc
  rw [readCommandWord_eq _ hr]
  exact (hostOp_of_decode (decodeOfEncode s.cfg (.wrMdioCmdR _ _) hv rfl nofun)).trans
    (exec_wrMdioCmdR_of_ne_busy hb _ _)

theorem hostOp_startStrobe (hv : c.valid = true) (hc : s.cfg = c) (ha : s.mdioPhase = .armed) {r : Nat} (hr : r < 32)
    (hcmd : s.mdioCmd = readCommandWord c r) : hostOp (writeOf c (.reg .mdioCtrl) c.startStrobe) s =
      .next (s.startTxn (.read c.fixedPhyAddr (BitVec.ofNat 5 r) c.turnaround)) := by
  subst hc
  rw [hostOp_of_decode (decode_writeOf_mdioCtrl hv), exec_wrMdioCtrlStart_of_armed ha, hcmd, readCommandWord_eq _ hr,
    readPhy_readWord, readReg_readWord, readTa_readWord]

/-- The block with the driver's write of a PHY register in flight (R170). -/
def writing (c : Config) (r : Nat) (v : Half) (s : State) : State :=
  ((polled s).setMdioCmd (writeCommandWord c r v)).startTxn (.write c.fixedPhyAddr (BitVec.ofNat 5 r) c.turnaround v)

/-- The block once that write is completed (R160). -/
def written (c : Config) (r : Nat) (v : Half) (s : State) : State :=
  (writing c r v s).endTxn.record (wroteEvent c r v)

theorem afterMdio_written (c : Config) (r : Nat) (v : Half) (s : State) :
    AfterMdio s [wroteEvent c r v] (written c r v s) :=
  ⟨rfl, nofun, fun _ => rfl, rfl, rfl, rfl⟩

/-- The block with the driver's read of a PHY register in flight (R171). -/
def reading (c : Config) (r : Nat) (s : State) : State :=
  ((polled s).setMdioCmd (readCommandWord c r)).arm.startTxn (.read c.fixedPhyAddr (BitVec.ofNat 5 r) c.turnaround)

/-- The block once the PHY has answered that read with `a` (R161). -/
def answered (c : Config) (r : Nat) (a : Half) (s : State) : State :=
  ((reading c r s).endTxn.setRdata a).record (readEvent c r a)

theorem afterMdio_answered (c : Config) (r : Nat) (a : Half) (s : State) :
    AfterMdio s [readEvent c r a] (answered c r a s) :=
  ⟨rfl, nofun, fun _ => rfl, rfl, rfl, rfl⟩

theorem readResult_polled_answered (c : Config) (r : Nat) (a : Half) (s : State) :
    (polled (answered c r a s)).readResult = some a :=
  State.readResult_of_valid (s := polled (answered c r a s)) rfl (afterMdio_answered c r a s).notBusy

/-- A wait for Idle, the command write and the completion of the transaction it starts. -/
theorem sysRun_mdioWriteThen (hv : c.valid = true) (hc : s.cfg = c) (hb : s.mdioPhase ≠ .busy) {r : Nat} (hr : r < 32)
    (v a : Half) :
    sysRun (.host 0 :: .host 0 :: .env (.mdioEngine a) :: l) (lone s g (mdioWriteThen c r v k) tr)
      = sysRun l (lone (written c r v s) g (.poll0 (.reg .mdioStat) (busyMask c) k)
          (tr ++ [readOf c (.reg .mdioStat), writeOf c (.reg .mdioCmd) (writeCommandWord c r v)])) := by
  have hcmd : hostOp (writeOf c (.reg .mdioCmd) (writeCommandWord c r v)) (polled s) = .next (writing c r v s) :=
    hostOp_writeCommand (s := polled s) hv hc hb hr v
  have hcomplete : mdioComplete a (writing c r v s) = written c r v s := mdioComplete_of_write rfl rfl a
  rw [mdioWriteThen, sysRun_poll_mdioStat hv hc hb, sysRun_write (s := polled s) hc hcmd, sysRun_mdioEngine,
    hcomplete, List.append_assoc]
  rfl

/-- A wait for Idle, the command write, the strobe, the completion with the PHY's answer, a second wait and the
read of the result. -/
theorem sysRun_mdioReadThen (hv : c.valid = true) (hc : s.cfg = c) (hb : s.mdioPhase ≠ .busy) {r : Nat} (hr : r < 32)
    (a : Half) (f : Half → Proc) : ∃ s' tr', AfterMdio s [readEvent c r a] s' ∧
      sysRun (.host 0 :: .host 0 :: .host 0 :: .env (.mdioEngine a) :: .host 0 :: .host 0 :: l)
          (lone s g (mdioReadThen c r f) tr)
        = sysRun l (lone s' g (f a) tr') := by
  have hcmd := hostOp_readCommand (s := polled s) hv hc hb hr
  have hstrobe : hostOp (writeOf c (.reg .mdioCtrl) c.startStrobe) ((polled s).setMdioCmd (readCommandWord c r)).arm
      = .next (reading c r s) :=
    hostOp_startStrobe (s := ((polled s).setMdioCmd (readCommandWord c r)).arm) hv hc rfl hr rfl
  have hcomplete : mdioComplete a (reading c r s) = answered c r a s := mdioComplete_of_read rfl rfl a
  have hanswered := afterMdio_answered c r a s
  have hended := hanswered.polled
  have hcfg : (polled (answered c r a s)).cfg = c := hended.cfg.trans hc
  have hread := hostOp_read_mdioData hv hcfg
  have hvalid : (polled (answered c r a s)).cfg.valid = true := by rw [hcfg, hv]
  have hdata := extract_dataWord hvalid (readResult_polled_answered c r a s) (polled (answered c r a s)).nextDraw
  rw [mdioReadThen, sysRun_poll_mdioStat hv hc hb, sysRun_write (s := polled s) hc hcmd,
    sysRun_write (s := ((polled s).setMdioCmd (readCommandWord c r)).arm) hc hstrobe, sysRun_mdioEngine, hcomplete,
    sysRun_poll_mdioStat hv (hanswered.cfg.trans hc) hanswered.notBusy, sysRun_read hcfg hread,
    State.returning_returned, Option.getD_some, hdata]
  exact ⟨_, _, hended.returning _, rfl⟩

/-- After a write of a PHY register the echo PHY answers what was written (R46). -/
theorem echoPhy_append_write (h : List Event) (phy reg : BitVec 5) (ta : BitVec 2) (v : Half) :
    echoPhy (h ++ [.mdioWriteTxn phy reg ta v]) phy reg = some v := by
  simp [echoPhy, phyWrites]

/-- Settles O53: the write's completion leaves the PHY with `v`, and the read's completion returns it. -/
theorem mdioRoundTrip : Obligations.MdioRoundTrip := by
  intro s r v a hv hb hr y0 first second
  have hwritten := afterMdio_written s.cfg r v s
  have hfirst : sysRun first y0 = .next (lone (written s.cfg r v s) none
      (.poll0 (.reg .mdioStat) (busyMask s.cfg) (mdioRead s.cfg r))
      [readOf s.cfg (.reg .mdioStat), writeOf s.cfg (.reg .mdioCmd) (writeCommandWord s.cfg r v)]) :=
    sysRun_mdioWriteThen (l := []) (tr := []) hv rfl hb hr v a
  have hpoll := sysRun_poll_mdioStat (s := written s.cfg r v s) (g := none) (k := mdioRead s.cfg r)
    (tr := [readOf s.cfg (.reg .mdioStat), writeOf s.cfg (.reg .mdioCmd) (writeCommandWord s.cfg r v)])
    (l := second.tail) hv hwritten.cfg hwritten.notBusy
  obtain ⟨s', tr', hread, hrun⟩ := sysRun_mdioReadThen (s := polled (written s.cfg r v s)) (l := []) (g := none)
    (a := v) hv hwritten.polled.cfg hwritten.polled.notBusy hr fun x => .done (.value x)
  refine ⟨hostInOrder_of_no_post (by simp [first, second]) rfl, _, lone s' none (.done (.value v)) tr', hfirst,
    hwritten.history, ?_, hpoll.trans hrun, rfl, hread.history, hread.idle (.inl nofun)⟩
  exact (congrArg (echoPhy · _ _) hwritten.history).trans (echoPhy_append_write _ _ _ _ _)

end Sys2Proof.Driver

/-! The PHY bring-up: by induction over the pairs, each write under the guard, then the acknowledge. -/

namespace Sys2Proof

variable {c : Config}

/-- The seven pairs of a bring-up and their register numbers (R190, R191). -/
theorem Config.bringup_facts (hv : c.valid = true) : c.bringup.length = 7 ∧ ∀ p ∈ c.bringup, p.reg < 32 := by
  obtain ⟨-, -, -, -, -, -, -, -, hb⟩ := Config.valid_parts hv
  unfold Config.bringupOk at hb
  split at hb
  · rename_i heq
    simp only [Bool.and_eq_true, List.all_eq_true, decide_eq_true_eq] at hb
    rw [heq]
    exact ⟨rfl, hb.2⟩
  · cases hb

end Sys2Proof

namespace Sys2Proof.Driver

open Sys2Proof.Machine

variable {s : State} {c : Config} {k : Proc} {tr : List BusOp} {l : List Choice}

/-- The choices that run one guarded write of the bring-up. -/
def pairChoices (a : Half) : List Choice :=
  [.host 0, .host 0, .host 0, .env (.mdioEngine a), .host 0, .host 0]

/-- The operations of one write of the bring-up (R170). -/
def pairOps (c : Config) (p : PhyPair) : List BusOp :=
  [readOf c (.reg .mdioStat), writeOf c (.reg .mdioCmd) (writeCommandWord c p.reg p.val), readOf c (.reg .mdioStat)]

/-- One line of the bring-up: a register write under the guard (R92). -/
def guardedWrite (c : Config) (p : PhyPair) (k : Proc) : Proc := .lock (mdioWriteThen c p.reg p.val (.unlock k))

theorem sysRun_guardedWrite (hv : c.valid = true) (hc : s.cfg = c) (hb : s.mdioPhase ≠ .busy) {p : PhyPair}
    (hp : p.reg < 32) (a : Half) :
    sysRun (pairChoices a ++ l) (lone s none (guardedWrite c p k) tr)
      = sysRun l (lone (polled (written c p.reg p.val s)) none k (tr ++ pairOps c p)) := by
  have hwritten := afterMdio_written c p.reg p.val s
  rw [pairChoices, guardedWrite, List.cons_append, sysRun_lock, List.cons_append, List.cons_append, List.cons_append,
    sysRun_mdioWriteThen hv hc hb hp, List.cons_append,
    sysRun_poll_mdioStat hv (hwritten.cfg.trans hc) hwritten.notBusy, List.cons_append, sysRun_unlock, List.append_assoc]
  rfl

theorem sysRun_guardedWrites (hv : c.valid = true) (a : Half) {ps : List PhyPair} (hps : ∀ p ∈ ps, p.reg < 32)
    (hc : s.cfg = c) (hb : s.mdioPhase ≠ .busy) :
    ∃ s', AfterMdio s (ps.map fun p => wroteEvent c p.reg p.val) s' ∧
      sysRun ((List.replicate ps.length (pairChoices a)).flatten ++ l) (lone s none (ps.foldr (guardedWrite c) k) tr)
        = sysRun l (lone s' none k (tr ++ (ps.map (pairOps c)).flatten)) := by
  induction ps generalizing s tr with
  | nil => exact ⟨s, .refl hb, by simp⟩
  | cons p ps ih =>
    have hwritten := (afterMdio_written c p.reg p.val s).polled
    obtain ⟨s', hs', hrun⟩ := ih (tr := tr ++ pairOps c p) (fun q hq => hps q (List.mem_cons_of_mem p hq))
      (hwritten.cfg.trans hc) hwritten.notBusy
    refine ⟨s', hwritten.trans hs', ?_⟩
    rw [List.length_cons, List.replicate_succ, List.flatten_cons, List.append_assoc, List.foldr_cons,
      sysRun_guardedWrite hv hc hb (hps p List.mem_cons_self), hrun, List.append_assoc]
    rfl

theorem hostOp_acknowledge (hv : c.valid = true) (hc : s.cfg = c) :
    hostOp (writeOf c (.reg .rxAck) 1#32) s = exec .wrRxAck1 s := by
  subst hc
  exact hostOp_of_decode (decode_writeOf_rxAck hv)

/-- Where the acknowledge answers, it leaves the slot empty, and lowers the line only of a staged frame (R213). -/
theorem exec_wrRxAck1_answers (h : s.cfg.ackEmpty = .ignore ∨ s.rxPhase = .full) :
    ∃ t, exec .wrRxAck1 s = .next t ∧ t.rxPhase = .empty ∧ t.mdioPhase = s.mdioPhase ∧ t.txPhase = s.txPhase
      ∧ t.history = s.history ++ (if s.rxPhase = .full then [.irqRx false, .frameReleased] else []) := by
  cases hp : s.rxPhase with
  | full => exact ⟨_, (exec_wrRxAck1_of_full hp).trans (congrArg _ (release_eq hp)), rfl, rfl, rfl, rfl⟩
  | empty =>
    have hi : s.cfg.ackEmpty = .ignore := h.resolve_right (by simp [hp])
    exact ⟨s, exec_wrRxAck1_of_ignore hp hi, hp, rfl, rfl, (List.append_nil _).symm⟩

/-- Settles O54: the induction runs the seven writes, and then the slot and ACK_EMPTY decide the acknowledge. -/
theorem bringUpSequence : Obligations.BringUpSequence := by
  intro s a hv hb y0 sched
  obtain ⟨hlen, hregs⟩ := Config.bringup_facts hv
  obtain ⟨s', hs', hrun⟩ := sysRun_guardedWrites (l := [.host 0, .host 0, .host 0]) (tr := [])
    (k := .lock (.wr (.reg .rxAck) 1#32 (.unlock (.done .success)))) hv a hregs rfl hb
  rw [hlen, sysRun_lock] at hrun
  have hsched : sysRun sched y0 = _ := hrun
  have hack := hostOp_acknowledge hv hs'.cfg
  refine ⟨hostInOrder_of_no_post (by simp [sched]) rfl, fun hstrict hempty => ?_, fun hanswers => ?_⟩
  · have hfault := exec_wrRxAck1_of_strict (hs'.rxPhase.trans hempty) (by rw [hs'.cfg, hstrict])
    exact hsched.trans (sysRun_write_fault rfl hs'.cfg (hack.trans hfault))
  · rw [← hs'.cfg, ← hs'.rxPhase] at hanswers
    obtain ⟨t, ht, hrx, hmdio, htx, hhist⟩ := exec_wrRxAck1_answers hanswers
    have hne : s.cfg.bringup.map (fun p => wroteEvent s.cfg p.reg p.val) ≠ [] :=
      List.ne_nil_of_length_pos (by simp [hlen])
    refine ⟨_, hsched.trans ((sysRun_write hs'.cfg (hack.trans ht)).trans sysRun_unlock), rfl, rfl, ?_,
      hmdio.trans (hs'.idle (.inl hne)), hrx, htx.trans hs'.txPhase⟩
    exact hhist.trans (by rw [hs'.history, hs'.rxPhase]; rfl)

end Sys2Proof.Driver

/-! The receive handler, run line by line: the flag decides, and the copy reads the frame word by word. -/

namespace Sys2Proof.Driver

open Sys2Proof.Machine

variable {s : State} {c : Config} {g : Option Nat} {tr : List BusOp} {l : List Choice} {f : List Byte}

theorem hostOp_read_rxAvail (hv : c.valid = true) (hc : s.cfg = c) :
    hostOp (readOf c (.reg .rxAvail)) s = .next (s.returning (if s.rxPhase = .full then 1 else 0)) := by
  subst hc
  exact (hostOp_of_decode (decode_readOf_reg (r := .rxAvail) hv rfl nofun)).trans (exec_rdRxAvail s)

theorem hostOp_read_rxLen (hv : c.valid = true) (hc : s.cfg = c) (hf : s.rxPhase = .full) :
    hostOp (readOf c (.reg .rxLen)) s = .next (s.drawn.returning s.rxLen) := by
  subst hc
  refine (hostOp_of_decode (decode_readOf_reg (r := .rxLen) hv rfl nofun)).trans ?_
  simp [exec, execRdRxLen, readDrawn, State.rxLenWord, hf]

theorem hostOp_read_rxWord (hv : c.valid = true) (hc : s.cfg = c) {k : Nat} (hk : k < c.rxBuf.bytes / 4) :
    hostOp (readOf c (.rxWord k)) s = .next (s.drawn.returning (s.rxBufWord k s.nextDraw)) := by
  subst hc
  exact (hostOp_of_decode (decode_rxWord hv hk)).trans (exec_rdRxbuf hk)

/-- The frame `f` stands whole in the receive slot (R31, R220). -/
structure HoldsFrame (s : State) (f : List Byte) : Prop where
  full : s.rxPhase = .full
  length : s.rxLen.toNat = f.length
  octets : ∀ i, s.rxBuf.get? i = f[i]?

theorem holdsFrame_stageFrame {c : Config} (hv : c.valid = true) (s : State) (hf : f.length ≤ c.rxBuf.bytes) :
    HoldsFrame (stageFrame f s) f :=
  ⟨rfl, toNat_ofNat_frame_length hv hf, fun i => by simp [Memory.get?_ofBytes]⟩

/-- From `s` to `s'` the host has only read: nothing of the block has changed (R74). -/
def OnlyReads (s s' : State) : Prop := ∃ v n, s' = { s with returned := v, draws := n }

theorem OnlyReads.refl (s : State) : OnlyReads s s := ⟨_, _, rfl⟩

theorem OnlyReads.trans {s' s'' : State} (h : OnlyReads s s') (h' : OnlyReads s' s'') : OnlyReads s s'' := by
  obtain ⟨v, n, rfl⟩ := h
  obtain ⟨v', n', rfl⟩ := h'
  exact ⟨v', n', rfl⟩

theorem onlyReads_returning (s : State) (v : Word) : OnlyReads s (s.returning v) := ⟨_, _, rfl⟩

theorem onlyReads_drawn_returning (s : State) (v : Word) : OnlyReads s (s.drawn.returning v) := ⟨_, _, rfl⟩

theorem OnlyReads.holdsFrame {s' : State} (h : OnlyReads s s') (hs : HoldsFrame s f) : HoldsFrame s' f := by
  obtain ⟨v, n, rfl⟩ := h
  exact { hs with }

theorem OnlyReads.cfg_eq {s' : State} (h : OnlyReads s s') : s'.cfg = s.cfg := by
  obtain ⟨v, n, rfl⟩ := h
  rfl

/-- The four lanes of a word of the slot are the next four octets of the frame. -/
theorem take_append_rxBufWord (hs : HoldsFrame s f) {k : Nat} (hk : 4 * k + 4 ≤ f.length) (v : Word) :
    f.take (4 * k) ++ [lane (s.rxBufWord k v) 0, lane (s.rxBufWord k v) 1, lane (s.rxBufWord k v) 2,
      lane (s.rxBufWord k v) 3] = f.take (4 * (k + 1)) := by
  have hlane : ∀ j (hj : j < 4), lane (s.rxBufWord k v) j = f[4 * k + j] := fun j hj =>
    lane_rxBufWord_of_full hs.full hj (by rw [hs.length]; omega) (by rw [hs.octets, List.getElem?_eq_getElem]) v
  rw [hlane 0 (by omega), hlane 1 (by omega), hlane 2 (by omega), hlane 3 (by omega),
    show 4 * (k + 1) = 4 * k + 3 + 1 by omega, List.take_succ_eq_append_getElem (by omega),
    List.take_succ_eq_append_getElem (by omega), List.take_succ_eq_append_getElem (by omega),
    List.take_succ_eq_append_getElem (by omega)]
  simp only [List.append_assoc, List.cons_append, List.nil_append, Nat.add_zero]

/-- A copy of whole words of the frame, from word `k` on, gives the frame's octets so far (R131). -/
theorem sysRun_copyIn (hv : c.valid = true) (hb : f.length ≤ c.rxBuf.bytes) (fin : List Byte → Proc) {n k : Nat}
    (hc : s.cfg = c) (hs : HoldsFrame s f) (hk : 4 * (k + n) ≤ f.length) :
    ∃ s', OnlyReads s s' ∧
      sysRun (List.replicate n (.host 0) ++ l) (lone s g (copyIn k n (f.take (4 * k)) fin) tr)
        = sysRun l (lone s' g (fin (f.take (4 * (k + n))))
            (tr ++ (List.range' k n).map fun k => readOf c (.rxWord k))) := by
  induction n generalizing s k tr with
  | zero => exact ⟨s, .refl s, by simp [copyIn]⟩
  | succ n ih =>
    have hread := onlyReads_drawn_returning s (s.rxBufWord k s.nextDraw)
    obtain ⟨s', hs', hrun⟩ := ih (k := k + 1) (tr := tr ++ [readOf c (.rxWord k)]) (hread.cfg_eq.trans hc)
      (hread.holdsFrame hs) (by omega)
    refine ⟨s', hread.trans hs', ?_⟩
    rw [List.replicate_succ, List.cons_append, copyIn, sysRun_read hc (hostOp_read_rxWord hv hc (by omega)),
      State.returning_returned, Option.getD_some, take_append_rxBufWord hs (by omega), hrun, List.range'_succ]
    simp [Nat.add_right_comm, Nat.add_assoc]

/-- What the handler runs once it has found a frame of length `n` (R230, R232). -/
def handleFrame (allocated : Bool) (n : Word) : Proc :=
  if allocated then
    copyIn 0 (wordsFor (n - 4#32).toNat) [] fun got => acknowledge (.handled (some (got.take (n - 4#32).toNat)))
  else acknowledge (.handled none)

/-- The handler finds the staged frame and its length under the guard (R230). -/
theorem sysRun_rxHandler_full (hv : c.valid = true) (hc : s.cfg = c) (hf : s.rxPhase = .full) (allocated : Bool) :
    ∃ s', OnlyReads s s' ∧ sysRun (.host 0 :: .host 0 :: .host 0 :: .host 0 :: l) (alone s (rxHandler allocated))
      = sysRun l (lone s' none (handleFrame allocated s.rxLen) [readOf c (.reg .rxAvail), readOf c (.reg .rxLen)]) := by
  have havail := hostOp_read_rxAvail (s := s) hv hc
  rw [if_pos hf] at havail
  have hlen := hostOp_read_rxLen (s := s.returning 1) hv hc hf
  refine ⟨_, (onlyReads_returning s 1).trans (onlyReads_drawn_returning (s.returning 1) s.rxLen), ?_⟩
  change sysRun _ (lone s none (rxHandler allocated) []) = _
  rw [rxHandler, sysRun_lock, sysRun_read hc havail, State.returning_returned, Option.getD_some,
    if_neg (by decide), sysRun_read (s := s.returning 1) hc hlen, sysRun_unlock]
  rfl

/-- The acknowledge releases the staged frame, under the guard (R230 step 6). -/
theorem sysRun_acknowledge (hv : c.valid = true) (hc : s.cfg = c) (hf : s.rxPhase = .full) (r : Result) :
    sysRun (.host 0 :: .host 0 :: .host 0 :: l) (lone s none (acknowledge r) tr)
      = sysRun l (lone ((s.setRxPhase .empty).record .frameReleased) none (.done r)
          (tr ++ [writeOf c (.reg .rxAck) 1#32])) := by
  rw [acknowledge, sysRun_lock, sysRun_write hc ((hostOp_acknowledge hv hc).trans (exec_wrRxAck1_of_full hf)),
    sysRun_unlock]

theorem OnlyReads.release_history {s' : State} (h : OnlyReads s s') (hf : s.rxPhase = .full) :
    ((s'.setRxPhase .empty).record .frameReleased).history = s.history ++ [.irqRx false, .frameReleased] := by
  obtain ⟨v, n, rfl⟩ := h
  exact congrArg State.history (release_eq (s := { s with returned := v, draws := n }) hf)

/-- Settles O56: the flag reads 0. -/
theorem spuriousInterrupt : Obligations.SpuriousInterrupt := by
  intro s allocated hv he
  have havail := hostOp_read_rxAvail (s := s) hv rfl
  rw [if_neg (by simp [he])] at havail
  have hrun : sysRun (List.replicate 3 (.host 0)) (alone s (rxHandler allocated))
      = .next (lone (s.returning 0) none (.done .notHandled) [readOf s.cfg (.reg .rxAvail)]) := by
    change sysRun [.host 0, .host 0, .host 0] (lone s none (rxHandler allocated) []) = _
    rw [rxHandler, sysRun_lock, sysRun_read rfl havail, State.returning_returned, Option.getD_some,
      if_pos (show (0 : Word) = 0#32 from rfl), sysRun_unlock]
    rfl
  exact ⟨_, hrun, endsAt_of_run hrun rfl rfl rfl, rfl, rfl, rfl, rfl⟩

/-- Settles O57: after the two reads the handler goes straight to the acknowledge. -/
theorem allocationFailureAcknowledges : Obligations.AllocationFailureAcknowledges := by
  intro s hv hf
  obtain ⟨s', hs', hrun⟩ := sysRun_rxHandler_full (l := List.replicate 3 (.host 0)) hv rfl hf false
  have hf' : s'.rxPhase = .full := by obtain ⟨v, n, rfl⟩ := hs'; exact hf
  have hrun := hrun.trans (sysRun_acknowledge (l := []) hv hs'.cfg_eq hf' (.handled none))
  exact ⟨_, hrun, endsAt_of_run (m := 7) hrun rfl rfl rfl, rfl, rfl, rfl, hs'.release_history hf⟩

/-- The payload of a staged frame is the frame less its CRC (R230). -/
theorem HoldsFrame.payload_length (hs : HoldsFrame s f) (h4 : 4 ≤ f.length) :
    (s.rxLen - 4#32).toNat = f.length - 4 := by
  have hle : 4#32 ≤ s.rxLen := by
    rw [BitVec.le_def, hs.length]
    exact h4
  rw [BitVec.toNat_sub_of_le hle, hs.length]
  rfl

/-- The handler run alone on a staged frame: the two reads, the copy of whole words, the acknowledge (R230). -/
theorem sysRun_rxHandler (hv : c.valid = true) (hc : s.cfg = c) (hs : HoldsFrame s f) (hlo : 4 ≤ f.length)
    (hhi : f.length ≤ c.rxBuf.bytes) : ∃ s', OnlyReads s s' ∧
      sysRun (List.replicate (wordsFor (f.length - 4) + 7) (.host 0)) (alone s (rxHandler true))
        = .next (lone ((s'.setRxPhase .empty).record .frameReleased) none
            (.done (.handled (some (f.take (f.length - 4)))))
            ([readOf c (.reg .rxAvail), readOf c (.reg .rxLen)]
              ++ (List.range (wordsFor (f.length - 4))).map (fun k => readOf c (.rxWord k))
              ++ [writeOf c (.reg .rxAck) 1])) := by
  obtain ⟨s1, hs1, hfound⟩ := sysRun_rxHandler_full
    (l := List.replicate (wordsFor (f.length - 4)) (.host 0) ++ List.replicate 3 (.host 0)) hv hc hs.full true
  obtain ⟨s2, hs2, hcopy⟩ := sysRun_copyIn (s := s1) (g := none) (l := List.replicate 3 (.host 0)) (k := 0)
    (n := wordsFor (f.length - 4)) (tr := [readOf c (.reg .rxAvail), readOf c (.reg .rxLen)]) hv hhi
    (fun got => acknowledge (.handled (some (got.take (f.length - 4))))) (hs1.cfg_eq.trans hc) (hs1.holdsFrame hs)
    (by simp only [wordsFor]; omega)
  have hread := hs1.trans hs2
  have hack := sysRun_acknowledge (s := s2) (l := [])
    (tr := [readOf c (.reg .rxAvail), readOf c (.reg .rxLen)]
      ++ (List.range (wordsFor (f.length - 4))).map fun k => readOf c (.rxWord k))
    hv (hread.cfg_eq.trans hc) (hread.holdsFrame hs).full (.handled (some (f.take (f.length - 4))))
  have hbody : handleFrame true s.rxLen = copyIn 0 (wordsFor (f.length - 4)) []
      fun got => acknowledge (.handled (some (got.take (f.length - 4)))) := by
    rw [handleFrame, if_pos rfl, hs.payload_length hlo]
  have htake : (f.take (4 * (0 + wordsFor (f.length - 4)))).take (f.length - 4) = f.take (f.length - 4) := by
    rw [List.take_take, Nat.min_eq_left (by simp only [wordsFor]; omega)]
  rw [htake, ← List.range_eq_range'] at hcopy
  rw [hbody] at hfound
  refine ⟨s2, hread, ?_⟩
  rw [show wordsFor (f.length - 4) + 7 = 4 + (wordsFor (f.length - 4) + 3) by omega, List.replicate_add,
    List.replicate_add]
  exact hfound.trans (hcopy.trans hack)

/-- Settles O55: the staged frame is read whole words at a time, and the payload taken of what is read. -/
theorem handlerDeliversFrame : Obligations.HandlerDeliversFrame := by
  intro s t f hv he hlo hhi hstage
  rw [act_wireFrame_of_empty he hlo hhi] at hstage
  obtain rfl : stageFrame f s = t := Host.Outcome.next.inj hstage
  have hs := holdsFrame_stageFrame hv s hhi
  obtain ⟨s', hs', hrun⟩ := sysRun_rxHandler (s := stageFrame f s) (c := s.cfg) hv rfl hs hlo hhi
  have hwire := sysRun_env (g := none) (p := rxHandler true) (tr := [])
    (l := List.replicate (wordsFor (f.length - 4) + 7) (.host 0)) (act_wireFrame_of_empty he hlo hhi)
  refine ⟨_, hwire.trans hrun, endsAt_of_run hrun rfl rfl rfl, rfl, rfl, rfl,
    (hs'.release_history hs.full).trans ?_⟩
  rw [stageFrame_history f he, List.append_assoc]
  rfl

end Sys2Proof.Driver

/-! `transmit`, run line by line: the copy puts the frame in the slot, the length and the strobe hand it over. -/

namespace Sys2Proof.Driver

open Sys2Proof.Machine

variable {s : State} {c : Config} {g : Option Nat} {k : Proc} {tr : List BusOp} {l : List Choice} {f : List Byte}
  {pad : Nat → Byte}

theorem hostOp_read_txBusy (hv : c.valid = true) (hc : s.cfg = c) :
    hostOp (readOf c (.reg .txBusy)) s = .next (s.returning (if s.txPhase = .sending then 1 else 0)) := by
  subst hc
  exact (hostOp_of_decode (decode_readOf_reg (r := .txBusy) hv rfl nofun)).trans (exec_rdTxBusy s)

theorem hostOp_write_txWord (hv : c.valid = true) (hc : s.cfg = c) (hi : s.txPhase = .idle) {k : Nat}
    (hk : k < c.txBuf.bytes / 4) (v : Word) : hostOp (writeOf c (.txWord k) v) s = .next (s.setTxWord k v) := by
  subst hc
  exact (hostOp_of_decode (decode_txWord hv hk v)).trans (exec_wrTxbuf_of_idle hi hk v)

theorem hostOp_write_txLen (hv : c.valid = true) (hc : s.cfg = c) (n : Word) :
    hostOp (writeOf c (.reg .txLen) n) s = exec (.wrTxLen n) s := by
  subst hc
  exact hostOp_of_decode (decode_writeOf_reg hv rfl n)

theorem hostOp_write_txSend (hv : c.valid = true) (hc : s.cfg = c) :
    hostOp (writeOf c (.reg .txSend) 1#32) s = exec .wrTxSend1 s := by
  subst hc
  exact hostOp_of_decode (decode_writeOf_txSend hv)

/-- A word copied out holds its four octets of the frame in their lanes, and the padding beyond (R131). -/
theorem lane_frameWord (f : List Byte) (pad : Nat → Byte) (k : Nat) {j : Nat} (hj : j < 4) :
    lane (frameWord f pad k) j = f[4 * k + j]?.getD (pad (4 * k + j)) := by
  rw [frameWord]
  match j, hj with
  | 0, _ => exact lane_ofLanes_zero _ _ _ _
  | 1, _ => exact lane_ofLanes_one _ _ _ _
  | 2, _ => exact lane_ofLanes_two _ _ _ _
  | 3, _ => exact lane_ofLanes_three _ _ _ _

theorem txByte_setTxWord_frameWord (s : State) (f : List Byte) (pad : Nat → Byte) (k i : Nat) :
    (s.setTxWord k (frameWord f pad k)).txByte i =
      if 4 * k ≤ i ∧ i < 4 * k + 4 then f[i]?.getD (pad i) else s.txByte i := by
  rw [State.txByte_setTxWord]
  split
  · rw [lane_frameWord f pad k (by omega), Nat.add_sub_cancel' (by omega)]
  · rfl

/-- The block after words `k` to `k + n - 1` of the frame have been copied out. -/
def copied (f : List Byte) (pad : Nat → Byte) (k : Nat) : Nat → State → State
  | 0, s => s
  | n + 1, s => copied f pad (k + 1) n (s.setTxWord k (frameWord f pad k))

/-- The copy changes the slot's octets alone. -/
theorem copied_eq (f : List Byte) (pad : Nat → Byte) (k n : Nat) (s : State) :
    ∃ b, copied f pad k n s = { s with txBuf := b } := by
  induction n generalizing k s with
  | zero => exact ⟨s.txBuf, rfl⟩
  | succ n ih =>
    obtain ⟨b, hb⟩ := ih (k + 1) (s.setTxWord k (frameWord f pad k))
    exact ⟨b, hb⟩

/-- What the copy has stored: the frame's octets, and the padding beyond, where it has written. -/
theorem txByte_copied (f : List Byte) (pad : Nat → Byte) (k n : Nat) (s : State) (i : Nat) :
    (copied f pad k n s).txByte i = if 4 * k ≤ i ∧ i < 4 * (k + n) then f[i]?.getD (pad i) else s.txByte i := by
  induction n generalizing k s with
  | zero => rw [if_neg (by omega), copied]
  | succ n ih =>
    rw [copied, ih, txByte_setTxWord_frameWord]
    by_cases hword : 4 * k ≤ i ∧ i < 4 * k + 4
    · rw [if_neg (by omega), if_pos hword, if_pos (by omega)]
    · rw [if_neg hword]
      by_cases hlater : 4 * (k + 1) ≤ i ∧ i < 4 * (k + 1 + n)
      · rw [if_pos hlater, if_pos (by omega)]
      · rw [if_neg hlater, if_neg (by omega)]

theorem sysRun_copyOut (hv : c.valid = true) {n i : Nat} (hc : s.cfg = c) (hi : s.txPhase = .idle)
    (hk : i + n ≤ c.txBuf.bytes / 4) :
    sysRun (List.replicate n (.host 0) ++ l) (lone s g (copyOut f pad i n k) tr)
      = sysRun l (lone (copied f pad i n s) g k
          (tr ++ (List.range' i n).map fun i => writeOf c (.txWord i) (frameWord f pad i))) := by
  induction n generalizing s i tr with
  | zero => simp [copyOut, copied]
  | succ n ih =>
    rw [List.replicate_succ, List.cons_append, copyOut, sysRun_write hc (hostOp_write_txWord hv hc hi (by omega) _),
      ih (s := s.setTxWord i (frameWord f pad i)) hc hi (by omega), copied, List.range'_succ]
    simp

/-- The end of `transmit`: the length and the strobe hand the copied frame over (R270). -/
def handOver (f : List Byte) : Proc :=
  .wr (.reg .txLen) (BitVec.ofNat 32 f.length) (.wr (.reg .txSend) 1#32 (.unlock (.done .accepted)))

/-- The operations of `transmit` up to the end of the copy (R270). -/
def copyTrace (c : Config) (f : List Byte) (pad : Nat → Byte) : List BusOp :=
  [readOf c (.reg .txBusy), readOf c (.reg .txBusy)]
    ++ (List.range (wordsFor f.length)).map fun i => writeOf c (.txWord i) (frameWord f pad i)

/-- The block once `transmit` has copied the frame. -/
def afterCopy (f : List Byte) (pad : Nat → Byte) (s : State) : State :=
  copied f pad 0 (wordsFor f.length) (s.returning 0)

theorem afterCopy_eq (f : List Byte) (pad : Nat → Byte) (s : State) :
    ∃ b, afterCopy f pad s = { s with returned := some 0, txBuf := b } :=
  copied_eq f pad 0 (wordsFor f.length) (s.returning 0)

theorem txByte_afterCopy (f : List Byte) (pad : Nat → Byte) (s : State) {i : Nat} (hi : i < f.length) :
    (afterCopy f pad s).txByte i = f[i]?.getD (pad i) := by
  rw [afterCopy, txByte_copied, if_pos (by simp only [wordsFor]; omega)]

/-- `transmit` on the idle slot, up to the end of the copy: the wait, the re-check, the frame's words (R270). -/
theorem sysRun_transmit_copy (hv : c.valid = true) (hc : s.cfg = c) (hi : s.txPhase = .idle)
    (hf : f.length ≤ c.txBuf.bytes) :
    sysRun (List.replicate (wordsFor f.length + 3) (.host 0) ++ l) (alone s (transmit f pad))
      = sysRun l (lone (afterCopy f pad s) (some 0) (handOver f) (copyTrace c f pad)) := by
  have hbusy := hostOp_read_txBusy (s := s) hv hc
  have hbusy' := hostOp_read_txBusy (s := s.returning 0) hv hc
  have hzero : (s.returning 0).returned.getD 0#32 &&& 0xFFFFFFFF#32 = 0#32 := by simp
  obtain ⟨-, hmod, -⟩ := Config.txBuf_bounds hv
  rw [if_neg (by simp [hi])] at hbusy hbusy'
  rw [Nat.add_comm, List.replicate_add, List.append_assoc]
  change sysRun (.host 0 :: .host 0 :: .host 0 :: (List.replicate (wordsFor f.length) (.host 0) ++ l))
    (lone s none (transmit f pad) []) = _
  rw [transmit, sysRun_lock, sysRun_poll hc hbusy hzero, sysRun_read (s := s.returning 0) hc hbusy',
    State.returning_returned, Option.getD_some, if_neg (by decide),
    sysRun_copyOut (s := (s.returning 0).returning 0) hv hc hi (by simp only [wordsFor]; omega),
    ← List.range_eq_range']
  rfl

/-- The frame in the slot is `f` where the length is its own and the copy has stored its octets (R261). -/
theorem txFrame_eq {t : State} (hlen : t.txLen.toNat = f.length)
    (hoctets : ∀ i, i < f.length → t.txByte i = f[i]?.getD (pad i)) : t.txFrame = f := by
  refine List.ext_getElem? fun i => ?_
  by_cases hi : i < f.length
  · rw [t.txFrame_getElem? (by omega), hoctets i hi, List.getElem?_eq_getElem hi, Option.getD_some]
  · rw [List.getElem?_eq_none (by rw [t.txFrame_length]; omega), List.getElem?_eq_none (by omega)]

/-- The slot handed over: TX_DONE is 0 and the hardware owns it (R253). -/
def handedOver (s : State) : State := (s.setTxDone false).setTxPhase .sending

/-- The length and the strobe, each complete before the next line (R81, R270). -/
theorem sysRun_handOver (hv : c.valid = true) (hc : s.cfg = c) (hi : s.txPhase = .idle) (hlo : 1 ≤ f.length)
    (hhi : f.length ≤ c.txBuf.bytes) (hlt : f.length < 2 ^ 32) :
    sysRun (.host 0 :: .host 0 :: .host 0 :: l) (lone s g (handOver f) tr)
      = sysRun l (lone (handedOver (s.setTxLen (BitVec.ofNat 32 f.length))) none (.done .accepted)
          (tr ++ [writeOf c (.reg .txLen) (BitVec.ofNat 32 f.length), writeOf c (.reg .txSend) 1])) := by
  subst hc
  have hlen : (BitVec.ofNat 32 f.length).toNat = f.length := Nat.mod_eq_of_lt hlt
  have hwrite := (hostOp_write_txLen (s := s) hv rfl (BitVec.ofNat 32 f.length)).trans (exec_wrTxLen_of_idle hi _)
  have hsend := (hostOp_write_txSend (s := s.setTxLen (BitVec.ofNat 32 f.length)) hv rfl).trans
    (exec_wrTxSend1_of_idle hi (by rw [State.setTxLen_txLen, hlen]; exact hlo)
      (by rw [State.setTxLen_txLen, hlen]; exact hhi))
  rw [handOver, sysRun_write rfl hwrite, sysRun_write (s := s.setTxLen (BitVec.ofNat 32 f.length)) rfl hsend,
    sysRun_unlock, List.append_assoc]
  rfl

/-- The completion sends the frame in the slot and raises the line (R261). -/
theorem act_txEngine_handedOver (s : State) : ∃ t, act .txEngine (handedOver s) = .next t ∧ t.history = s.history
    ++ (if s.txDone = true then [.irqTx false] else []) ++ [.frameSent s.txFrame, .irqTx true] := by
  have hhist : (handedOver s).history = s.history ++ (if s.txDone = true then [.irqTx false] else []) :=
    congrArg State.history (handOver_eq s)
  refine ⟨_, rfl, ?_⟩
  rw [txComplete_of_sending rfl, completion_eq, hhist, List.append_assoc]
  rfl

theorem sysRun_transmit (hv : c.valid = true) (hc : s.cfg = c) (hi : s.txPhase = .idle) (hlo : 1 ≤ f.length)
    (hhi : f.length ≤ c.txBuf.bytes) (hlt : f.length < 2 ^ 32) :
    sysRun (List.replicate (wordsFor f.length + 6) (.host 0)) (alone s (transmit f pad))
      = .next (lone (handedOver ((afterCopy f pad s).setTxLen (BitVec.ofNat 32 f.length))) none (.done .accepted)
          (copyTrace c f pad ++ [writeOf c (.reg .txLen) (BitVec.ofNat 32 f.length), writeOf c (.reg .txSend) 1])) := by
  obtain ⟨b, hb⟩ := afterCopy_eq f pad s
  have hend := sysRun_handOver (s := afterCopy f pad s) (g := some 0) (tr := copyTrace c f pad) (l := [])
    hv (by rw [hb]; exact hc) (by rw [hb]; exact hi) hlo hhi hlt
  rw [show wordsFor f.length + 6 = wordsFor f.length + 3 + 3 by omega, List.replicate_add]
  exact (sysRun_transmit_copy hv hc hi hhi).trans hend

/-! The strobe that overtakes the length. -/

/-- The agent has gone on from the write of the length, which is outstanding, to the strobe (R81). -/
def lengthPosted (s : State) (g : Option Nat) (f : List Byte) (tr : List BusOp) : System :=
  ⟨s, g, [.wr (.reg .txSend) 1#32 (.unlock (.done .accepted))],
    [⟨0, writeOf s.cfg (.reg .txLen) (BitVec.ofNat 32 f.length), 0⟩],
    issued tr ++ [(0, writeOf s.cfg (.reg .txLen) (BitVec.ofNat 32 f.length))], issued tr, .unarmed⟩

theorem sysStep_post_length : sysStep (.post 0 0) (lone s g (handOver f) tr) = .next (lengthPosted s g f tr) := rfl

/-- An outstanding operation that faults where it reaches the block stops the run. -/
theorem sysRun_reach_fault {y : System} {n : Nat} {o : Outstanding} {e : Fault} (ho : y.outstanding[n]? = some o)
    (h : hostOp o.op y.block = .fault e) : sysRun (.reach n :: l) y = .fault e := by
  simp only [sysRun, sysStep, reachStep, ho, h]

/-- The slot is handed over with the length of before, and the length that follows faults (R82, R252). -/
theorem overtaking_of_legal (hv : s.cfg.valid = true) (hi : s.txPhase = .idle) (hlo : 1 ≤ s.txLen.toNat)
    (hhi : s.txLen.toNat ≤ s.cfg.txBuf.bytes) :
    ∃ y, sysRun [.post 0 0, .host 0] (lone s g (handOver f) tr) = .next y ∧ y.block = handedOver s
      ∧ sysRun [.reach 0] y = .fault (.txWriteWhileBusy none) := by
  have hsend := (hostOp_write_txSend (s := s) hv rfl).trans (exec_wrTxSend1_of_idle hi hlo hhi)
  have hstrobe := (sysStep_host (y := lengthPosted s g f tr) (i := 0) rfl rfl).trans
    (issueAs_next.mpr ⟨handedOver s, hsend, rfl⟩)
  have hlate := (hostOp_write_txLen (s := handedOver s) hv rfl (BitVec.ofNat 32 f.length)).trans
    (exec_wrTxLen_of_sending rfl _)
  exact ⟨_, (sysRun_of_step sysStep_post_length).trans (sysRun_of_step hstrobe), rfl, sysRun_reach_fault rfl hlate⟩

/-- The strobe faults where the length of before is no legal one (R253). -/
theorem overtaking_of_illegal (hv : s.cfg.valid = true) (hi : s.txPhase = .idle)
    (hl : s.txLen.toNat = 0 ∨ s.cfg.txBuf.bytes < s.txLen.toNat) :
    sysRun [.post 0 0, .host 0] (lone s g (handOver f) tr) = .fault (.txBadLength s.txLen) := by
  have hsend := (hostOp_write_txSend (s := s) hv rfl).trans (exec_wrTxSend1_of_badLength hi hl)
  exact (sysRun_of_step sysStep_post_length).trans
    (sysRun_write_fault (y := lengthPosted s g f tr) (i := 0) rfl rfl hsend)

/-- Settles O58: in order, the length written is the frame's and its octets stand in the slot; out of order, the
strobe is decided by the length of before. -/
theorem transmitSendsFrame : Obligations.TransmitSendsFrame := by
  intro s f pad hv hi hlo hhi hlt
  obtain ⟨b, hb⟩ := afterCopy_eq f pad s
  have hcopy := sysRun_transmit_copy (pad := pad) (l := [.post 0 0, .host 0]) hv rfl hi hhi
  refine ⟨?_, fun hlo' hhi' => ?_, fun hbad => ?_⟩
  · have hrun := sysRun_transmit (pad := pad) hv rfl hi hlo hhi hlt
    obtain ⟨t, ht, hhist⟩ := act_txEngine_handedOver ((afterCopy f pad s).setTxLen (BitVec.ofNat 32 f.length))
    have hframe : ((afterCopy f pad s).setTxLen (BitVec.ofNat 32 f.length)).txFrame = f :=
      txFrame_eq (Nat.mod_eq_of_lt hlt) fun i hi => txByte_afterCopy f pad s hi
    refine ⟨_, hrun, endsAt_of_run hrun rfl rfl rfl, rfl, ?_, rfl, t, ht, ?_⟩
    · simp [lone, copyTrace]
    · rw [hhist, hframe, hb]
      rfl
  · rw [hb] at hcopy
    obtain ⟨y, hy, hblock, hlate⟩ :=
      overtaking_of_legal (s := { s with returned := some 0, txBuf := b }) hv hi hlo' hhi'
    exact ⟨y, hcopy.trans hy, by rw [hblock]; rfl, by rw [hblock]; rfl, hlate⟩
  · rw [hb] at hcopy
    exact hcopy.trans (overtaking_of_illegal (s := { s with returned := some 0, txBuf := b }) hv hi hbad)

/-- Settles O59: the re-check reads 1, since the other host's strobe has come between the two reads. -/
theorem transmitRefusesWhenBusy : Obligations.TransmitRefusesWhenBusy := by
  intro s f pad hv hi hlo hhi sched
  have hidle := hostOp_read_txBusy (s := s) hv rfl
  rw [if_neg (by simp [hi])] at hidle
  have hzero : (s.returning 0).returned.getD 0#32 &&& 0xFFFFFFFF#32 = 0#32 := by simp
  have hsend : act (.host (writeOf s.cfg (.reg .txSend) 1)) (s.returning 0) = .next (handedOver (s.returning 0)) :=
    (hostOp_write_txSend (s := s.returning 0) hv rfl).trans (exec_wrTxSend1_of_idle hi hlo hhi)
  have hbusy := hostOp_read_txBusy (s := handedOver (s.returning 0)) hv rfl
  rw [if_pos (show (handedOver (s.returning 0)).txPhase = .sending from rfl)] at hbusy
  have hrun : sysRun sched (alone s (transmit f pad)) = .next (lone ((handedOver (s.returning 0)).returning 1) none
      (.done .busy) [readOf s.cfg (.reg .txBusy), readOf s.cfg (.reg .txBusy)]) := by
    change sysRun sched (lone s none (transmit f pad) []) = _
    rw [transmit, sysRun_lock, sysRun_poll rfl hidle hzero, sysRun_env hsend,
      sysRun_read (s := handedOver (s.returning 0)) rfl hbusy, State.returning_returned, Option.getD_some,
      if_pos (by decide), sysRun_unlock]
    rfl
  exact ⟨hostInOrder_of_no_post (by simp [sched]) rfl, _, hrun, rfl, rfl, rfl, rfl, rfl⟩

/-! The guard. -/

/-- One step after which the guard is still held leaves a waiting agent waiting, and issues and brings to the block
nothing of its own (R90, R94). -/
theorem waiting_step {y w : System} {ch : Choice} {i j : Nat} (hw : w.guard = some j) (hg : y.guard = some j)
    (hp : y.procs[i]? = some (.lock k)) (h : sysStep ch y = .next w) :
    w.procs[i]? = some (.lock k) ∧ w.issued.filter (fun e => e.1 = i) = y.issued.filter (fun e => e.1 = i)
      ∧ (y.waits i = false → w.waits i = false
          ∧ w.trace.filter (fun e => e.1 = i) = y.trace.filter (fun e => e.1 = i)) := by
  -- another agent goes on
  have hset : ∀ {n : Nat} (q : Proc), n ≠ i → (y.procs.set n q)[i]? = some (.lock k) := fun q hn => by
    rw [List.getElem?_set_ne hn, hp]
  have happend : ∀ q : Proc, (y.procs ++ [q])[i]? = some (.lock k) := fun q => by
    rw [List.getElem?_append_left (List.getElem?_eq_some_iff.mp hp).1, hp]
  -- the waiting agent has no bus operation to issue
  have hother : ∀ {n : Nat} {p : Proc} {o : BusOp × (Word → Proc)}, y.procs[n]? = some p →
      p.operation y.block.cfg = some o → n ≠ i := by
    rintro n p o hn ho rfl
    obtain rfl : Proc.lock k = p := Option.some.inj (hp.symm.trans hn)
    cases ho
  have hskip : ∀ {n : Nat} (op : BusOp) (tr : List (Nat × BusOp)), n ≠ i →
      (tr ++ [(n, op)]).filter (fun e => e.1 = i) = tr.filter fun e => e.1 = i := fun op tr hn => by
    simp [hn]
  cases sysStep_effect h with
  | issue n p op f s hn ho =>
    have hne := hother hn ho
    exact ⟨hset _ hne, hskip op _ hne, fun hwait => ⟨hwait, hskip op _ hne⟩⟩
  | guard n p q g _ hn hq hgr =>
    rcases hgr with ⟨-, hfree⟩ | rfl
    · simp [hg] at hfree
    · cases hw
  | arm n q _ hn =>
    have hne : n ≠ i := by
      rintro rfl
      simp [hp] at hn
    exact ⟨hset _ hne, rfl, fun hwait => ⟨hwait, rfl⟩⟩
  | post n v p op f hn ho =>
    have hne := hother hn ho
    refine ⟨hset _ hne, hskip op _ hne, fun hwait => ⟨?_, rfl⟩⟩
    simpa [System.waits, hne] using hwait
  | reach n o s ho =>
    refine ⟨hp, rfl, fun hwait => ?_⟩
    simp only [System.waits, List.any_eq_false, beq_iff_eq] at hwait ⊢
    exact ⟨fun x hx => hwait x (List.mem_of_mem_eraseIdx hx), hskip o.op _ (hwait o (List.mem_of_getElem? ho))⟩
  | start q => exact ⟨happend q, rfl, fun hwait => ⟨hwait, rfl⟩⟩
  | invoke a => exact ⟨happend _, rfl, fun hwait => ⟨hwait, rfl⟩⟩
  | _ => exact ⟨hp, rfl, fun hwait => ⟨hwait, rfl⟩⟩

/-- Settles O60, by induction over the schedule. -/
theorem guardExcludes : Obligations.GuardExcludes := by
  intro l y z i j k hg hp hkeeps hrun
  induction l generalizing y with
  | nil =>
    cases hrun
    exact ⟨hp, rfl, fun _ => rfl⟩
  | cons ch l ih =>
    obtain ⟨w, hw, hrun⟩ := sysRun_cons.mp hrun
    have hwg : w.guard = some j := hkeeps [ch] l w rfl (sysRun_of_step hw)
    obtain ⟨hwp, hissued, htrace⟩ := waiting_step hwg hg hp hw
    obtain ⟨hzp, hissued', htrace'⟩ := ih w hwg hwp
      (fun l' rest x hl hx => hkeeps (ch :: l') rest x (congrArg (ch :: ·) hl) ((sysRun_of_step hw).trans hx)) hrun
    exact ⟨hzp, hissued'.trans hissued, fun hwait => (htrace' (htrace hwait).1).trans (htrace hwait).2⟩

end Sys2Proof.Driver
